-- ==== Sys2Proof/Word.lean ====
section
/-!
DEFINITION. The word types of the engine (spec/00_scope.md R8: bit 0 is the least significant bit,
all values are unsigned) and their plainest arithmetic.
-/

namespace Sys2Proof

/-- A 32-bit register or CRC value (10_state.md R33). -/
abbrev Word := BitVec 32

/-- A byte of data memory (20_memory.md R70). -/
abbrev Byte := BitVec 8

/-- A 64-bit quantity: LEN, ADDR, a CLMUL or LUTRD result (20_memory.md R72). -/
abbrev DWord := BitVec 64

/-- The `{h, l}` of 00_scope.md R8: `h` above `l`. -/
def join (h l : Word) : DWord := h ++ l

/-- Bits 31:0 of a 64-bit quantity. -/
def lowWord (v : DWord) : Word := v.extractLsb' 0 32

/-- Bits 63:32 of a 64-bit quantity. -/
def highWord (v : DWord) : Word := v.extractLsb' 32 32

end Sys2Proof
end

