-- ==== Sys2Proof/Config.lean ====
section
/-!
DEFINITION. What is fixed for a machine: the constants of spec/00_scope.md R7, and its OPEN parameters.

An OPEN parameter has no value here: each is an `opaque` constant without a body, and `Params` gathers them.
The types admit legal values only (ADDR_WIDTH is 1..64, ENGINE_BASE is 256-byte aligned), so that no statement
needs a premise that a parameter is legal. The free values (93_implementation_defined.md I9) are opaque too.
-/

namespace Sys2Proof

/-- CTRL.BACKEND (10_state.md R36). The reserved value 3 is not a backend. -/
inductive Backend where
  | generic
  | accel
  | multi
  deriving DecidableEq, Repr

/-- CTRL.STRATEGY (10_state.md R36). -/
inductive Strategy where
  | fold3
  | unroll64
  deriving DecidableEq, Repr

/-- The backend fields CTRL[8:2] (10_state.md R36). -/
structure Selection where
  backend  : Backend
  ncrc     : BitVec 2
  npclmul  : BitVec 2
  strategy : Strategy
  deriving DecidableEq, Repr

/-- The parameters of 00_scope.md R7 that are marked OPEN: an argument of the model, one value for a machine. -/
structure Params where
  /-- SCRAMBLE_K (42_scramble.md R203). -/
  scrambleK       : Word
  /-- ADDR_WIDTH less 1, so that ADDR_WIDTH is 1..64. -/
  addrWidthPred   : Fin 64
  /-- ENGINE_BASE divided by 256. -/
  enginePage      : Nat
  /-- MULTISTREAM_PRESENT. -/
  multistream     : Bool
  /-- The implementation's choice of DISPATCH_DEFAULT, where it makes one (10_state.md R37). -/
  dispatchChoice  : Option Selection
  /-- NEED_ALIGNED_LOADS: how the GENERIC datapath starts, never a result (20_memory.md R75). -/
  needAligned     : Bool
  /-- PREFETCH_HORIZON: no architectural effect (92_eei_decisions.md D36). -/
  prefetchHorizon : Nat
  deriving DecidableEq, Repr

namespace Config

/-- POLY, the reflected generator polynomial (00_scope.md R2). -/
def poly : Word := 0x82F63B78#32

/-- EMPTY_VALUE (00_scope.md R7, 41_crc_ops.md R161): equal to POLY, and not zero. -/
def emptyValue : Word := 0x82F63B78#32

/-- P of degree 32 in normal form (00_scope.md R2). -/
def fullPoly : DWord := 0x11EDC6F41#64

/-- LEN_WIDTH. -/
def lenWidth : Nat := 64

/-- ZEROES_BASE_LG. -/
def zeroesBaseLg : Nat := 4

/-- ZEROES_BLOCK = ZEROES_BASE - 1. -/
def zeroesBlock : Nat := 15

/-- ZEROES_CAPACITY. -/
def zeroesCapacity : Nat := 256

/-- ZEROES_COUNT. -/
def zeroesCount : Nat := 240

/-- POWERS_COUNT. -/
def powersCount : Nat := 62

/-- SMALL_CUTOFF. -/
def smallCutoff : Nat := 256

/-- MEDIUM_CUTOFF. -/
def mediumCutoff : Nat := 2048

/-- SCRAMBLE_ROT. -/
def scrambleRot : Nat := 17

opaque scrambleK : Word
opaque addrWidthPred : Fin 64
opaque enginePage : Nat
opaque multistream : Bool
opaque dispatchChoice : Option Selection
opaque needAligned : Bool
opaque prefetchHorizon : Nat

/-- The machine's parameters. Nothing in Lean can evaluate one (log 2). -/
def device : Params where
  scrambleK := scrambleK
  addrWidthPred := addrWidthPred
  enginePage := enginePage
  multistream := multistream
  dispatchChoice := dispatchChoice
  needAligned := needAligned
  prefetchHorizon := prefetchHorizon

/-- The free RESULT of an EXTEND whose buffer was not kept (20_memory.md R79): the n-th value drawn (log 7). -/
opaque freeWord : Nat → Word

end Config

/-- ADDR_WIDTH (00_scope.md R7). -/
def Params.addrWidth (p : Params) : Nat := p.addrWidthPred.val + 1

/-- The number of bytes of the data space, 2^ADDR_WIDTH (20_memory.md R70). -/
def Params.dataBytes (p : Params) : Nat := 2 ^ p.addrWidth

/-- ENGINE_BASE (00_scope.md R7): 256-byte aligned. -/
def Params.engineBase (p : Params) : Nat := 256 * p.enginePage

end Sys2Proof
end

