-- ==== Sys2Proof/Machine/Gf2.lean ====
section
/-!
DEFINITION. The primitive functions of spec/00_scope.md R9-R11 on CRC-domain values, in the clear form the rules
give them. The datapaths of the other files compute the same values; nothing here reads a table file.
-/

namespace Sys2Proof.Machine

/-- `rev32` of 00_scope.md R11: bit i of the result is bit 31 - i of `v`. -/
def rev32 (v : Word) : Word := v.reverse

/-- `rotr32` of 00_scope.md R8. -/
def rotr32 (v : Word) (s : Nat) : Word := (v >>> s) ||| (v <<< (32 - s))

/-- `BitStep_q` of 00_scope.md R11: one message bit of value 0, modulo the polynomial `q`. -/
def bitStepQ (q c : Word) : Word := (c >>> 1) ^^^ (if c.getLsbD 0 then q else 0#32)

/-- `BitStep_POLY`. -/
def bitStep (c : Word) : Word := bitStepQ Config.poly c

/-- `n` bit steps: multiplication by x^n modulo P. -/
def bitSteps : Nat → Word → Word
  | 0, c => c
  | n + 1, c => bitStep (bitSteps n c)

/-- The inverse of one bit step (40_table_builder.md R138): division by x modulo P. -/
def bitUnstep (c : Word) : Word :=
  ((if c.getLsbD 31 then c ^^^ Config.poly else c) <<< 1) ||| (if c.getLsbD 31 then 1#32 else 0#32)

/-- `n` inverse bit steps. -/
def bitUnsteps : Nat → Word → Word
  | 0, c => c
  | n + 1, c => bitUnstep (bitUnsteps n c)

/-- The entry of table0 for a byte in its closed form (40_table_builder.md R131). -/
def byteEntry (b : Byte) : Word := bitSteps 8 (b.setWidth 32)

/-- `ByteStep` of 00_scope.md R11. -/
def byteStep (c : Word) (b : Byte) : Word :=
  byteEntry ((c ^^^ b.setWidth 32).setWidth 8) ^^^ (c >>> 8)

/-- `Ext` of 00_scope.md R11: the first byte is processed first. -/
def ext (c : Word) (bs : List Byte) : Word := bs.foldl byteStep c

/-- The carry-less product of `a` and the low `n` bits of `b`, within `w` bits: the XOR of `a << i` over the set
bits i of `b`. -/
def clMulBits {w : Nat} (a b : BitVec w) : Nat → BitVec w
  | 0 => 0#w
  | n + 1 => clMulBits a b n ^^^ (if b.getLsbD n then a <<< n else 0#w)

/-- `ClMul` of 00_scope.md R11. -/
def clMul (a b : Word) : DWord := clMulBits (a.setWidth 64) (b.setWidth 64) 32

/-- Long division by P of a normal-form value (00_scope.md R10): the terms of degree 32 to 31 + n are cancelled from
the highest down. -/
def reduceP : Nat → DWord → DWord
  | 0, v => v
  | n + 1, v => reduceP n (if v.getLsbD (32 + n) then v ^^^ (Config.fullPoly <<< n) else v)

/-- The remainder modulo P of a normal-form polynomial of degree below 64. -/
def modP (v : DWord) : Word := (reduceP 32 v).setWidth 32

/-- `MulMod` of 00_scope.md R11: rep((poly a * poly b) mod P), where `rev32` takes the reflected form of R9 to
normal form and back. -/
def mulMod (a b : Word) : Word := rev32 (modP (clMul (rev32 a) (rev32 b)))

/-- rep(1) (00_scope.md R9). -/
def one : Word := 0x80000000#32

/-- `XPow` of 00_scope.md R11: rep(x^k mod P). -/
def xPow (k : Nat) : Word := bitSteps k one

/-- `XPowInv` of 00_scope.md R11: rep(x^(-k) mod P). -/
def xPowInv (k : Nat) : Word := bitUnsteps k one

/-- `ExtZ` of 00_scope.md R11. -/
def extZ (c : Word) (n : Nat) : Word := mulMod c (xPow (8 * n))

/-- `UnextZ` of 00_scope.md R11. -/
def unextZ (c : Word) (n : Nat) : Word := mulMod c (xPowInv (8 * n))

/-- `ZC` of 43_gf2_multiply.md R215. -/
def zeroConstant (n : Nat) : Word := xPow (32 * (n / 4))

/-- The low `k` bytes of `w` in little-endian order (20_memory.md R71). -/
def leBytes (w : DWord) : Nat → List Byte
  | 0 => []
  | k + 1 => w.setWidth 8 :: leBytes (w >>> 8) k

/-- `CrcStep` of 43_gf2_multiply.md R212: the hardware CRC step unit over `k` bytes. -/
def crcStep (c : Word) (w : DWord) (k : Nat) : Word := ext c (leBytes w k)

/-- `Scramble` of 42_scramble.md R200. -/
def scramble (k x : Word) : Word := rotr32 (x + k) Config.scrambleRot

/-- `Unscramble` of 42_scramble.md R201. -/
def unscramble (k x : Word) : Word := rotr32 x (32 - Config.scrambleRot) - k

end Sys2Proof.Machine
end

