-- ==== Sys2Proof/Machine/Builder.lean ====
section
/-!
DEFINITION. The LUT builders that run in BUILD (spec/40_table_builder.md R130-R140, 44_multistream.md R252).
-/

namespace Sys2Proof.Machine

/-- `PolyMultiply(a, b, q)` of 40_table_builder.md R134, after `n` of its 32 rounds: round i takes bit i of `a`. -/
def polyMulRounds (q a b : Word) : Nat → Word
  | 0 => 0#32
  | n + 1 => bitStepQ q (polyMulRounds q a b n) ^^^ (if a.getLsbD n then b else 0#32)

/-- `PolyMultiply(a, b, q)` (40_table_builder.md R134). -/
def polyMultiply (a b q : Word) : Word := polyMulRounds q a b 32

/-- `n` bit steps modulo `q`. -/
def bitStepsQ (q : Word) : Nat → Word → Word
  | 0, c => c
  | n + 1, c => bitStepQ q (bitStepsQ q n c)

/-- The power-of-two entries 1, 2, 4, .., 128 of a row whose entry 128 is `top` (40_table_builder.md R132):
each is one step from the entry for twice its index. -/
def rowPowers (q top : Word) : List Word :=
  [bitStepsQ q 7 top, bitStepsQ q 6 top, bitStepsQ q 5 top, bitStepsQ q 4 top,
   bitStepsQ q 3 top, bitStepsQ q 2 top, bitStepsQ q 1 top, top]

/-- The 256 entries of a row (40_table_builder.md R132): entry 0 is 0, and for each power of two i the entries
i..2i-1 are the entry for i XOR the entries 0..i-1. -/
def tableRow (q top : Word) : List Word :=
  (rowPowers q top).foldl (fun t p => t ++ t.map (p ^^^ ·)) [0#32]

/-- The rows of `FillWordTable(q, last, word_size)` from the row whose entry 128 is `top` on: the next row's entry
128 is one step from this row's entry 1 (40_table_builder.md R132). -/
def tableRows (q : Word) : Nat → Word → List (List Word)
  | 0, _ => []
  | n + 1, top => tableRow q top :: tableRows q n (bitStepsQ q 8 top)

/-- `FillWordTable(q, last, word_size)` (40_table_builder.md R132). -/
def fillWordTable (q last : Word) (wordSize : Nat) : List (List Word) := tableRows q wordSize last

/-- `n` entries of one magnitude: `v`, `v * inc`, `v * inc^2`, .. (40_table_builder.md R135). -/
def zeroesRun (q inc : Word) : Nat → Word → List Word
  | 0, _ => []
  | n + 1, v => v :: zeroesRun q inc n (polyMultiply v inc q)

/-- `v * inc^n`. -/
def mulTimes (q inc : Word) : Nat → Word → Word
  | 0, v => v
  | n + 1, v => mulTimes q inc n (polyMultiply v inc q)

/-- The blocks of `n` magnitudes, `inc` to the 16th power from one to the next (40_table_builder.md R135). -/
def zeroesBlocks (q : Word) : Nat → Word → List Word
  | 0, _ => []
  | n + 1, inc =>
    zeroesRun q inc Config.zeroesBlock inc ++ zeroesBlocks q n (mulTimes q inc Config.zeroesBlock inc)

/-- The seed of `FillZeroesTable(q)`: x squared three times, x^8 (40_table_builder.md R135, 90_conflicts.md C5). -/
def zeroesSeed (q : Word) : Word :=
  let x := one >>> 1
  let x2 := polyMultiply x x q
  let x4 := polyMultiply x2 x2 q
  polyMultiply x4 x4 q

/-- The entries `FillZeroesTable(q)` writes (40_table_builder.md R135); the count it returns is their number. -/
def fillZeroesTable (q : Word) : List Word :=
  zeroesBlocks q ((Config.lenWidth + 3) / Config.zeroesBaseLg) (zeroesSeed q)

/-- The capacity check (40_table_builder.md R141). -/
def capacityOk (t : List Word) : Bool := decide (t.length ≤ Config.zeroesCapacity)

/-- U, the unextension polynomial (40_table_builder.md R138). -/
def unextPoly : Word := rev32 ((Config.poly <<< 1) ^^^ 1#32)

/-- `last` of the word-interleaved tables (40_table_builder.md R133): Ext(POLY, 12 zero bytes). -/
def interleavedLast : Word := ext Config.poly (List.replicate 12 0#8)

/-- The powers from `v` on, each the square of the one before (40_table_builder.md R139). -/
def powersFrom : Nat → Word → List Word
  | 0, _ => []
  | n + 1, v => v :: powersFrom n (polyMultiply v v Config.poly)

/-- `powers` (40_table_builder.md R139). -/
def powersTable : List Word := powersFrom Config.powersCount Config.poly

/-- The reduction constants, TSEL 9 (44_multistream.md R252): K576, K512, K192, K128, K96, K64, MU, P. -/
def reductionConstants : List DWord :=
  [0x00000000A6955F31#64, 0x00000000AA97D41D#64, 0x000000006503EA99#64, 0x0000000018571D18#64,
   0x00000000D7A01665#64, 0x000000003AAB4576#64, 0x000000011F91CAF6#64, 0x000000011EDC6F41#64]

end Sys2Proof.Machine
end

