-- ==== Sys2Proof/Machine/Tables.lean ====
section
/-!
DEFINITION. The read-only table files (10_state.md R45), what BUILD writes into them, and how an entry is read.
-/

namespace Sys2Proof.Machine

/-- The table files (10_state.md R45). A file that has not been built lists nothing. -/
structure Tables where
  table0        : List Word
  /-- table_[0], .., table_[3]. -/
  interleaved   : List (List Word)
  zeroes        : List Word
  reverseTable0 : List Word
  reverseZeroes : List Word
  powers        : List Word
  kconst        : List DWord
  deriving DecidableEq, Repr

/-- No table built yet (10_state.md R51: unspecified and not readable; log 5). -/
def unbuiltTables : Tables where
  table0 := []
  interleaved := []
  zeroes := []
  reverseTable0 := []
  reverseZeroes := []
  powers := []
  kconst := []

/-- The files as BUILD leaves them (40_table_builder.md R130-R140). -/
def builtTables (multistream : Bool) : Tables where
  table0 := (fillWordTable Config.poly Config.poly 1).getD 0 []
  interleaved := fillWordTable Config.poly interleavedLast 4
  zeroes := fillZeroesTable Config.poly
  reverseTable0 := (fillWordTable unextPoly unextPoly 1).getD 0 []
  reverseZeroes := fillZeroesTable unextPoly
  powers := powersTable
  kconst := if multistream then reductionConstants else []

/-- An entry of a 32-bit table file. The model reads an entry that is not listed as 0; no command reads one. -/
def entry (t : List Word) (i : Nat) : Word := t.getD i 0#32

/-- An entry of kconst, in the width of the fold accumulators. -/
def kEntry (t : List DWord) (i : Nat) : BitVec 128 := (t.getD i 0#64).setWidth 128

/-- The value LUTRD reads (40_table_builder.md R143). -/
def readEntry (t : Tables) (tsel : BitVec 4) (idx : BitVec 8) : DWord :=
  match tsel.toNat with
  | 0 => (entry t.table0 idx.toNat).setWidth 64
  | 1 => (entry (t.interleaved.getD 0 []) idx.toNat).setWidth 64
  | 2 => (entry (t.interleaved.getD 1 []) idx.toNat).setWidth 64
  | 3 => (entry (t.interleaved.getD 2 []) idx.toNat).setWidth 64
  | 4 => (entry (t.interleaved.getD 3 []) idx.toNat).setWidth 64
  | 5 => (entry t.zeroes idx.toNat).setWidth 64
  | 6 => (entry t.reverseTable0 idx.toNat).setWidth 64
  | 7 => (entry t.reverseZeroes idx.toNat).setWidth 64
  | 8 => (entry t.powers idx.toNat).setWidth 64
  | 9 => t.kconst.getD idx.toNat 0#64
  | _ => 0#64

end Sys2Proof.Machine
end

