-- ==== Sys2Proof/Machine/Generic.lean ====
section
/-!
DEFINITION. The GENERIC datapaths on the table files: the 4-lane EXTEND (41_crc_ops.md R168) and the base-16
zero extension (R170).
-/

namespace Sys2Proof.Machine

/-- `ByteStep` of 00_scope.md R11, reading the byte-extension table file. -/
def tableByteStep (t0 : List Word) (c : Word) (b : Byte) : Word :=
  entry t0 ((c ^^^ b.setWidth 32).setWidth 8).toNat ^^^ (c >>> 8)

/-- The little-endian word of four bytes, `W` of 41_crc_ops.md R168: the first is the low byte. -/
def word4 (bs : List Byte) : Word :=
  bs.getD 3 0#8 ++ bs.getD 2 0#8 ++ bs.getD 1 0#8 ++ bs.getD 0 0#8

/-- The four staggered lanes (41_crc_ops.md R168). -/
structure Lanes where
  l0 : Word
  l1 : Word
  l2 : Word
  l3 : Word
  deriving DecidableEq, Repr

/-- `S(v, q)` of 41_crc_ops.md R168, with `w` the data word at q. -/
def laneStep (tw : List (List Word)) (v w : Word) : Word :=
  w ^^^ entry (tw.getD 3 []) (v.extractLsb' 0 8).toNat ^^^ entry (tw.getD 2 []) (v.extractLsb' 8 8).toNat
    ^^^ entry (tw.getD 1 []) (v.extractLsb' 16 8).toNat ^^^ entry (tw.getD 0 []) (v.extractLsb' 24 8).toNat

/-- The lanes at the start of step (2): the first 16 bytes, the accumulator in the first word. -/
def firstLanes (c : Word) (bs : List Byte) : Lanes where
  l0 := word4 bs ^^^ c
  l1 := word4 (bs.drop 4)
  l2 := word4 (bs.drop 8)
  l3 := word4 (bs.drop 12)

/-- `n` strides of 16 bytes, each lane advancing by its word (step (2)). -/
def strides (tw : List (List Word)) : Nat → Lanes → List Byte → Lanes
  | 0, l, _ => l
  | n + 1, l, bs =>
    strides tw n
      { l0 := laneStep tw l.l0 (word4 bs)
        l1 := laneStep tw l.l1 (word4 (bs.drop 4))
        l2 := laneStep tw l.l2 (word4 (bs.drop 8))
        l3 := laneStep tw l.l3 (word4 (bs.drop 12)) } (bs.drop 16)

/-- `n` single words, the lanes rotating (step (3)). -/
def rotations (tw : List (List Word)) : Nat → Lanes → List Byte → Lanes
  | 0, l, _ => l
  | n + 1, l, bs =>
    rotations tw n { l0 := l.l1, l1 := l.l2, l2 := l.l3, l3 := laneStep tw l.l0 (word4 bs) } (bs.drop 4)

/-- One lane of step (4): four byte steps over zero bytes of the lane's word XOR the carry. -/
def absorbLane (t0 : List Word) (carry lane : Word) : Word :=
  (List.replicate 4 0#8).foldl (tableByteStep t0) (lane ^^^ carry)

/-- Step (4): the four lanes recombined. -/
def recombineLanes (t0 : List Word) (l : Lanes) : Word :=
  [l.l0, l.l1, l.l2, l.l3].foldl (absorbLane t0) 0#32

/-- Steps (2) to (5) of 41_crc_ops.md R168, on the bytes left after step (1). -/
def genericBody (t : Tables) (c : Word) (bs : List Byte) : Word :=
  if 16 ≤ bs.length then
    let rest := bs.drop 16
    let n := rest.length / 16
    let strode := strides t.interleaved n (firstLanes c bs) rest
    let rest2 := rest.drop (16 * n)
    let k := rest2.length / 4
    let rotated := rotations t.interleaved k strode rest2
    (rest2.drop (4 * k)).foldl (tableByteStep t.table0) (recombineLanes t.table0 rotated)
  else
    bs.foldl (tableByteStep t.table0) c

/-- How many leading bytes step (1) takes singly: up to the next 4-byte boundary, if the platform needs aligned
loads and the data is that long (41_crc_ops.md R168). -/
def leadBytes (needAligned : Bool) (addr len : Nat) : Nat :=
  let x := (4 - addr % 4) % 4
  if needAligned && decide (x ≤ len) then x else 0

/-- The GENERIC EXTEND datapath (41_crc_ops.md R168). -/
def genericExtend (needAligned : Bool) (t : Tables) (addr : Nat) (c : Word) (bs : List Byte) : Word :=
  let x := leadBytes needAligned addr bs.length
  genericBody t ((bs.take x).foldl (tableByteStep t.table0) c) (bs.drop x)

/-- `mtab` of 41_crc_ops.md R170: the carry-less multiple of `m` by a 2-bit value (90_conflicts.md C4). -/
def twoBitMultiple (m : DWord) (d : BitVec 2) : DWord :=
  match d.toNat with
  | 0 => 0#64
  | 1 => m
  | 2 => m <<< 1
  | _ => (m <<< 1) ^^^ m

/-- One 8-bit fold of `l` into `r` and its reduction through the byte table (41_crc_ops.md R170). -/
def foldByte (t0 : List Word) (m : DWord) (l : Word) (r : DWord) : DWord :=
  let r := r ^^^ twoBitMultiple m (l.extractLsb' 0 2) ^^^ (twoBitMultiple m (l.extractLsb' 2 2) <<< 2)
    ^^^ (twoBitMultiple m (l.extractLsb' 4 2) <<< 4) ^^^ (twoBitMultiple m (l.extractLsb' 6 2) <<< 6)
  (r >>> 8) ^^^ (entry t0 (r.setWidth 8).toNat).setWidth 64

/-- `n` folds, the next 8 bits of `l` in each. -/
def foldBytes (t0 : List Word) (m : DWord) : Nat → Word → DWord → DWord
  | 0, _, r => r
  | n + 1, l, r => foldBytes t0 m n (l >>> 8) (foldByte t0 m l r)

/-- `l` multiplied by a zero-table entry, as the body of the digit loop does (41_crc_ops.md R170). -/
def mulByEntry (t0 : List Word) (z l : Word) : Word :=
  (foldBytes t0 (z.setWidth 64 <<< 1) 4 l 0#64).setWidth 32

/-- The digit loop of `ExtZImpl` (41_crc_ops.md R170): one base-16 digit of `n` a pass, at most `fuel` of them. -/
def extZDigits (z t0 : List Word) : Nat → Nat → Nat → Word → Word
  | 0, _, _, l => l
  | fuel + 1, i, n, l =>
    if n = 0 then l
    else
      let d := n % 16
      extZDigits z t0 fuel (i + 15) (n / 16) (if d = 0 then l else mulByEntry t0 (entry z (i + d - 1)) l)

/-- `ExtZImpl` (41_crc_ops.md R170): LEN has 16 base-16 digits. -/
def extZImpl (z t0 : List Word) (c : Word) (n : DWord) : Word := extZDigits z t0 16 0 n.toNat c

/-- The GENERIC zero extension (41_crc_ops.md R170). -/
def genericExtZ (t : Tables) (c : Word) (n : DWord) : Word := extZImpl t.zeroes t.table0 c n

/-- The unextension of every backend (41_crc_ops.md R170, 43_gf2_multiply.md R220): bit-reversed values on the
reverse tables. -/
def reverseUnextZ (t : Tables) (c : Word) (n : DWord) : Word :=
  rev32 (extZImpl t.reverseZeroes t.reverseTable0 (rev32 c) n)

end Sys2Proof.Machine
end

