-- ==== Sys2Proof/Machine/Accel.lean ====
section
/-!
DEFINITION. The multiply-reduce unit, the zero-constant unit and the accelerated zero extension
(43_gf2_multiply.md R213, R217, R218).
-/

namespace Sys2Proof.Machine

/-- The reduction of a 64-bit product whose bit j is the coefficient of x^(63-j): the high word XOR the CRC step of
the low word (43_gf2_multiply.md R213). -/
def reduceProduct (t : DWord) : Word := highWord t ^^^ crcStep 0#32 ((lowWord t).setWidth 64) 4

/-- `MulModHw` (43_gf2_multiply.md R213). -/
def mulModHw (a b : Word) : Word := reduceProduct (clMul a b <<< 1)

/-- The loop of `ZConstHw` (43_gf2_multiply.md R217): one bit of `q` a pass, at most `fuel` of them. -/
def zConstRounds (powers : List Word) : Nat → Nat → Nat → Word → Word
  | 0, _, _, acc => acc
  | fuel + 1, i, q, acc =>
    if q = 0 then acc
    else zConstRounds powers fuel (i + 1) (q / 2) (if q % 2 = 1 then mulModHw acc (entry powers i) else acc)

/-- `ZConstHw` (43_gf2_multiply.md R217): the bits 0..61 of floor(n / 4). -/
def zConstHw (powers : List Word) (n : Nat) : Word := zConstRounds powers Config.powersCount 0 (n / 4) one

/-- The 0 to 3 zero bytes of `ExtZHw` (43_gf2_multiply.md R218). -/
def stepZeroTail (c : Word) (r : Nat) : Word :=
  let v := if 2 ≤ r then crcStep c 0#64 2 else c
  if r % 2 = 1 then crcStep v 0#64 1 else v

/-- `ExtZHw` (43_gf2_multiply.md R218). -/
def accelExtZ (t : Tables) (c : Word) (n : DWord) : Word :=
  let v := stepZeroTail c (n.toNat % 4)
  if 3 < n.toNat then mulModHw v (zConstHw t.powers n.toNat) else v

end Sys2Proof.Machine
end

