-- ==== Sys2Proof/Machine/Multi.lean ====
section
/-!
DEFINITION. The multi-stream EXTEND datapath and its recombination unit (44_multistream.md R241-R252).
-/

namespace Sys2Proof.Machine

/-- A 128-bit fold accumulator (44_multistream.md R248). -/
abbrev Acc := BitVec 128

/-- The little-endian 8-byte word at the head of a byte string, `W64` (44_multistream.md R242). -/
def word8 (bs : List Byte) : DWord := word4 (bs.drop 4) ++ word4 bs

/-- `n` 8-byte steps (44_multistream.md R242). -/
def wordSteps : Nat → Word → List Byte → Word
  | 0, c, _ => c
  | n + 1, c, bs => wordSteps n (crcStep c (word8 bs) 8) (bs.drop 8)

/-- `Seq(c, S)` (44_multistream.md R242): 8-byte steps, then 1-byte steps. -/
def seqUnit (c : Word) (bs : List Byte) : Word :=
  let n := bs.length / 8
  (bs.drop (8 * n)).foldl (fun v b => crcStep v (b.setWidth 64) 1) (wordSteps n c bs)

/-- Bytes `at` to `at + len - 1` of a byte string. -/
def slice (bs : List Byte) (start len : Nat) : List Byte := (bs.drop start).take len

/-- `Fold3Combine` (44_multistream.md R245), its constants from the zero-constant unit (log 18). -/
def fold3Combine (powers : List Word) (c0 c1 c2 : Word) (region : Nat) : Word :=
  c2 ^^^ reduceProduct ((clMul c0 (zConstHw powers (2 * region)) <<< 1) ^^^ (clMul c1 (zConstHw powers region) <<< 1))

/-- Fold3 (44_multistream.md R244). -/
def fold3Extend (t : Tables) (c : Word) (bs : List Byte) : Word :=
  let region := bs.length / 24 * 8
  let c0 := seqUnit c (slice bs 0 region)
  let c1 := seqUnit 0#32 (slice bs region region)
  let c2 := seqUnit 0#32 (slice bs (2 * region) region)
  seqUnit (fold3Combine t.powers c0 c1 c2 region) (bs.drop (3 * region))

/-- `M16` (44_multistream.md R248): the message polynomial of a 16-byte chunk in normal form. -/
def chunkPoly (bs : List Byte) : Acc :=
  (bs.take 16).foldl (fun v b => (v <<< 8) ||| b.reverse.setWidth 128) 0#128

/-- `H(V)`, bits 127:64. -/
def accHigh (v : Acc) : Acc := v >>> 64

/-- `Lo(V)`, bits 63:0. -/
def accLow (v : Acc) : Acc := (v.setWidth 64).setWidth 128

/-- The carry-less product of two operands of at most 64 bits (44_multistream.md R248). -/
def clMul64 (a b : Acc) : Acc := clMulBits a b 64

/-- `Fold(V, Kh, Kl)` (44_multistream.md R248). -/
def foldAcc (v kh kl : Acc) : Acc := clMul64 (accHigh v) kh ^^^ clMul64 (accLow v) kl

/-- The four accumulators of a carry-less-multiply lane (44_multistream.md R248). -/
structure Folds where
  v0 : Acc
  v1 : Acc
  v2 : Acc
  v3 : Acc
  deriving DecidableEq, Repr

/-- The four chunks of a 64-byte block. -/
def loadBlock (bs : List Byte) : Folds where
  v0 := chunkPoly bs
  v1 := chunkPoly (bs.drop 16)
  v2 := chunkPoly (bs.drop 32)
  v3 := chunkPoly (bs.drop 48)

/-- `n` later blocks of a lane: each accumulator is folded forward by 64 bytes and takes its chunk in
(44_multistream.md R248). -/
def foldBlocks (k : List DWord) : Nat → Folds → List Byte → Folds
  | 0, v, _ => v
  | n + 1, v, bs =>
    let q := loadBlock bs
    foldBlocks k n
      { v0 := foldAcc v.v0 (kEntry k 0) (kEntry k 1) ^^^ q.v0
        v1 := foldAcc v.v1 (kEntry k 0) (kEntry k 1) ^^^ q.v1
        v2 := foldAcc v.v2 (kEntry k 0) (kEntry k 1) ^^^ q.v2
        v3 := foldAcc v.v3 (kEntry k 0) (kEntry k 1) ^^^ q.v3 } (bs.drop 64)

/-- The merge of the four accumulators (44_multistream.md R249). -/
def mergeFolds (k : List DWord) (v : Folds) : Acc :=
  let w1 := foldAcc v.v0 (kEntry k 2) (kEntry k 3) ^^^ v.v1
  let w2 := foldAcc w1 (kEntry k 2) (kEntry k 3) ^^^ v.v2
  foldAcc w2 (kEntry k 2) (kEntry k 3) ^^^ v.v3

/-- The reduction of 128 bits to 64 (44_multistream.md R249): two folds, by K96 and by K64. -/
def foldTo64 (k : List DWord) (w : Acc) : Acc :=
  let t := clMul64 (accHigh w) (kEntry k 4) ^^^ (accLow w <<< 32)
  clMul64 ((t.extractLsb' 64 32).setWidth 128) (kEntry k 5) ^^^ accLow t

/-- The Barrett step (44_multistream.md R249): R in normal form. -/
def barrett (k : List DWord) (t : Acc) : Word :=
  let q := clMul64 ((t.extractLsb' 32 32).setWidth 128) (kEntry k 6) >>> 32
  (t ^^^ clMul64 q (kEntry k 7)).setWidth 32

/-- `FinalizePclmulStream` (44_multistream.md R249): the lane's value, reflected. -/
def finalizeLane (k : List DWord) (v : Folds) : Word := rev32 (barrett k (foldTo64 k (mergeFolds k v)))

/-- A carry-less-multiply lane over its region (44_multistream.md R248, R249). -/
def pclmulLane (k : List DWord) (region : List Byte) : Word :=
  finalizeLane k (foldBlocks k (region.length / 64 - 1) (loadBlock region) (region.drop 64))

/-- The value of lane `i` (44_multistream.md R246): the first NCRC lanes are hardware-CRC lanes (R247), the rest
carry-less-multiply lanes; lane 0 starts from `c`, every other lane from 0. -/
def laneValue (t : Tables) (ncrc : Nat) (c : Word) (bs : List Byte) (span i : Nat) : Word :=
  if i < ncrc then seqUnit (if i = 0 then c else 0#32) (slice bs (i * span) span)
  else pclmulLane t.kconst (slice bs (i * span) span)

/-- The recombination unit (44_multistream.md R250). -/
def recombine (z : Word) : List Word → Word
  | [] => 0#32
  | l :: rest => rest.foldl (fun acc v => mulModHw acc z ^^^ v) l

/-- EXTEND for large inputs (44_multistream.md R246-R251) with `n` lanes. -/
def largeExtend (t : Tables) (ncrc n : Nat) (c : Word) (bs : List Byte) : Word :=
  let span := bs.length / (n * 64) * 64
  let lanes := (List.range n).map (laneValue t ncrc c bs span)
  seqUnit (recombine (zConstHw t.powers span) lanes) (bs.drop (n * span))

/-- The MULTI EXTEND datapath (44_multistream.md R241). -/
def multiExtend (t : Tables) (sel : Selection) (c : Word) (bs : List Byte) : Word :=
  if bs.length < Config.smallCutoff then seqUnit c bs
  else if bs.length < Config.mediumCutoff then
    match sel.strategy with
    | .fold3 => fold3Extend t c bs
    | .unroll64 => seqUnit c bs
  else largeExtend t sel.ncrc.toNat (sel.ncrc.toNat + sel.npclmul.toNat) c bs

end Sys2Proof.Machine
end

