-- ==== Sys2Proof/Syntax.lean ====
section
/-!
DEFINITION. The commands of the block, one constructor for each row of spec/opcode_table.json
(30_encoding.md R105). Operands are registers and not in the word, but for LUTRD's table and index (R100, R101).
-/

namespace Sys2Proof

/-- A command (30_encoding.md R105). -/
inductive Instr where
  | nop
  | empty
  | extend
  | extz
  | unextz
  | concat
  | combine
  | scramble
  | unscramble
  | clmul
  | mulmod
  | zconst
  /-- LUTRD with TSEL (4 bits) and IDX (8 bits), 30_encoding.md R103. -/
  | lutrd (tsel : BitVec 4) (idx : BitVec 8)
  deriving DecidableEq, Repr

end Sys2Proof
end

