-- ==== Sys2Proof/Decode.lean ====
section
/-!
DEFINITION. The decoder of command words (30_encoding.md R101-R103, R105, R107), total on every 32-bit word and
rejecting by name, and after it the encoder, written from the same tables.
-/

namespace Sys2Proof

/-- Why a word is no command (30_encoding.md R109). The third kind of illegal encoding, a LUTRD whose index is
out of range, is `Instr.wellFormed`: it depends on a parameter. -/
inductive DecodeError where
  /-- OPC in 0x0D..0xFF. -/
  | illegalOpcode
  /-- A reserved bit is set: [31:8] of format Z, [31:20] of format T. -/
  | illegalField
  deriving DecidableEq, Repr

/-- The OPC field, bits 7:0 (30_encoding.md R101). -/
def opcField (w : Word) : BitVec 8 := w.extractLsb' 0 8

/-- The IDX field, bits 15:8 (30_encoding.md R101). -/
def idxField (w : Word) : BitVec 8 := w.extractLsb' 8 8

/-- The TSEL field, bits 19:16 (30_encoding.md R101). -/
def tselField (w : Word) : BitVec 4 := w.extractLsb' 16 4

/-- A format Z word: every bit above OPC is 0 (30_encoding.md R102). -/
def formatZ (w : Word) (i : Instr) : Except DecodeError Instr :=
  if w.extractLsb' 8 24 = 0#24 then .ok i else .error .illegalField

/-- A format T word: bits 31:20 are 0 (30_encoding.md R103). -/
def formatT (w : Word) : Except DecodeError Instr :=
  if w.extractLsb' 20 12 = 0#12 then .ok (.lutrd (tselField w) (idxField w)) else .error .illegalField

/-- The command a word stands for (30_encoding.md R105), the checks in the order of R107. -/
def decode (w : Word) : Except DecodeError Instr :=
  match (opcField w).toNat with
  | 0x00 => formatZ w .nop
  | 0x01 => formatZ w .empty
  | 0x02 => formatZ w .extend
  | 0x03 => formatZ w .extz
  | 0x04 => formatZ w .unextz
  | 0x05 => formatZ w .concat
  | 0x06 => formatZ w .combine
  | 0x07 => formatZ w .scramble
  | 0x08 => formatZ w .unscramble
  | 0x09 => formatZ w .clmul
  | 0x0A => formatZ w .mulmod
  | 0x0B => formatZ w .zconst
  | 0x0C => formatT w
  | _ => .error .illegalOpcode

/-- The word of a format Z command (30_encoding.md R102). -/
def wordZ (opc : BitVec 8) : Word := 0#24 ++ opc

/-- The word of a format T command (30_encoding.md R103): RSV, TSEL, IDX, OPC. -/
def wordT (tsel : BitVec 4) (idx : BitVec 8) (opc : BitVec 8) : Word := 0#12 ++ tsel ++ idx ++ opc

/-- The command word of a command (30_encoding.md R105). -/
def encode (i : Instr) : Word :=
  match i with
  | .nop => wordZ 0x00#8
  | .empty => wordZ 0x01#8
  | .extend => wordZ 0x02#8
  | .extz => wordZ 0x03#8
  | .unextz => wordZ 0x04#8
  | .concat => wordZ 0x05#8
  | .combine => wordZ 0x06#8
  | .scramble => wordZ 0x07#8
  | .unscramble => wordZ 0x08#8
  | .clmul => wordZ 0x09#8
  | .mulmod => wordZ 0x0A#8
  | .zconst => wordZ 0x0B#8
  | .lutrd tsel idx => wordT tsel idx 0x0C#8

/-- The word of an opcode-table row: `nbits` bits of `w`, every bit above them 0. A command is one 32-bit word
written whole to CMD (30_encoding.md R100), so no byte order enters. -/
def tableWord (nbits w : Nat) : Word := BitVec.ofNat 32 (w % 2 ^ nbits)

/-- The command the decoder reads from the bits of an opcode-table row. -/
def decodeTableWord (nbits w : Nat) : Option Instr :=
  match decode (tableWord nbits w) with
  | .ok i => some i
  | .error _ => none

end Sys2Proof
end

