-- ==== Sys2Proof/Machine/Select.lean ====
section
/-!
DEFINITION. The backend fields CTRL[8:2]: their bits, which tuples are legal, and DISPATCH_DEFAULT
(10_state.md R36, R37).
-/

namespace Sys2Proof.Machine

/-- CTRL.BACKEND's code (10_state.md R36). -/
def backendBits (b : Backend) : BitVec 2 :=
  match b with
  | .generic => 0#2
  | .accel => 1#2
  | .multi => 2#2

/-- The backend of a code; 3 is reserved (10_state.md R36). -/
def backendOfBits (b : BitVec 2) : Option Backend :=
  match b.toNat with
  | 0 => some .generic
  | 1 => some .accel
  | 2 => some .multi
  | _ => none

/-- CTRL.STRATEGY's code (10_state.md R36). -/
def strategyBits (t : Strategy) : BitVec 1 :=
  match t with
  | .fold3 => 0#1
  | .unroll64 => 1#1

/-- The backend fields a CTRL word names, if its BACKEND is not the reserved value (10_state.md R36). -/
def selectionOfWord (w : Word) : Option Selection :=
  match backendOfBits (w.extractLsb' 2 2) with
  | some b => some
      { backend := b
        ncrc := w.extractLsb' 4 2
        npclmul := w.extractLsb' 6 2
        strategy := if w.getLsbD 8 then .unroll64 else .fold3 }
  | none => none

/-- The legality rule of 10_state.md R37 beyond BACKEND ≠ 3: MULTI needs the unit, NCRC is 1..3, and the lane total
is at least 2 under every backend. -/
def selectionLegal (multistream : Bool) (t : Selection) : Bool :=
  (t.backend != .multi || multistream) && t.ncrc != 0#2 && decide (2 ≤ t.ncrc.toNat + t.npclmul.toNat)

/-- The legal backend fields of a written CTRL value, if it is legal (10_state.md R37). -/
def legalWrite (multistream : Bool) (w : Word) : Option Selection :=
  match selectionOfWord w with
  | some t => if selectionLegal multistream t then some t else none
  | none => none

/-- The CTRL word of IRQ_EN and the backend fields; reserved bits read 0 (10_state.md R36). -/
def ctrlWord (irqEn : Bool) (t : Selection) : Word :=
  0#23 ++ strategyBits t.strategy ++ t.npclmul ++ t.ncrc ++ backendBits t.backend ++ 0#1 ++ BitVec.ofBool irqEn

/-- What DISPATCH_DEFAULT is when the implementation does not choose (10_state.md R37). -/
def unchosenDefault (multistream : Bool) : Selection where
  backend := if multistream then .multi else .accel
  ncrc := 3#2
  npclmul := 1#2
  strategy := .fold3

/-- DISPATCH_DEFAULT (10_state.md R37): the implementation's choice where it chose a legal tuple. -/
def dispatchDefault (p : Params) : Selection :=
  match p.dispatchChoice with
  | some t => if selectionLegal p.multistream t then t else unchosenDefault p.multistream
  | none => unchosenDefault p.multistream

end Sys2Proof.Machine
end

