-- ==== Sys2Proof/Machine/State.lean ====
section
/-!
DEFINITION. The state of the block and of what surrounds it, as plain data, and its reset
(spec/10_state.md, spec/70_reset_and_hazards.md R320, R321). INVENTORY.md lists every field with its rule.
-/

namespace Sys2Proof.Machine

/-- The sequencer state SEQ (10_state.md R31). -/
inductive Seq where
  | build
  | idle
  | busy
  | fatal
  deriving DecidableEq, Repr

/-- What STATUS.ECODE can hold (60_exceptions.md R280); the codes 8..15 are never produced. -/
inductive ErrorCode where
  | none
  | illegalOpcode
  | illegalField
  | notReady
  | busy
  | indexRange
  | addrRange
  | busError
  deriving DecidableEq, Repr

/-- The latched command context (10_state.md R47, 30_encoding.md R108). -/
structure Context where
  word : Word
  crcA : Word
  crcB : Word
  len  : DWord
  addr : DWord
  sel  : Selection
  deriving DecidableEq, Repr

/-- A host's access on the bus: a read, or a write of a word (10_state.md R34). -/
structure HostAccess where
  /-- The bus address. -/
  addr  : Nat
  /-- The size of the access in bytes. -/
  bytes : Nat
  /-- The word written; absent for a read. -/
  write : Option Word
  deriving DecidableEq, Repr

/-- What can happen next. One input is consumed by each step (log 6). -/
inductive Input where
  /-- A host reads or writes the register block (10_state.md R33). -/
  | host (a : HostAccess)
  /-- The engine's turn: BUILD ends, or the running command completes (70_reset_and_hazards.md R336). -/
  | engine
  /-- The reset input is asserted (70_reset_and_hazards.md R320). -/
  | reset
  /-- Another agent issues a store of a byte to data memory (20_memory.md R79). -/
  | store (a : Nat) (b : Byte)
  /-- The platform makes the n-th pending store visible to the engine (20_memory.md R83(c)). -/
  | publish (n : Nat)
  /-- The data bus answers a read of the running EXTEND with a bus error (20_memory.md R80). -/
  | readError
  deriving DecidableEq, Repr

/-- What the block answered to the last host access (10_state.md R34). -/
inductive Response where
  /-- No access yet. -/
  | nothing
  /-- The address is outside the register block: another device's access. -/
  | notSelected
  /-- A write, performed or ignored. -/
  | written
  /-- The word a read returned. -/
  | data (v : Word)
  /-- The bus error response to an access of the wrong size or alignment. -/
  | busError
  deriving DecidableEq, Repr

/-- Data memory: the bytes that differ from what an unlisted address reads as, by rising address (log 3). -/
abbrev Memory := List Host.Cell

/-- The state of the machine. -/
structure State where
  /-- The parameters of 00_scope.md R7; no step changes them (log 2). -/
  params        : Params
  seq           : Seq
  /-- STATUS.DONE. -/
  done          : Bool
  /-- STATUS.ERR. -/
  err           : Bool
  /-- STATUS.ECODE. -/
  ecode         : ErrorCode
  /-- CTRL.IRQ_EN. -/
  irqEn         : Bool
  /-- CTRL[8:2]. -/
  sel           : Selection
  crcA          : Word
  crcB          : Word
  lenLo         : Word
  lenHi         : Word
  addrLo        : Word
  addrHi        : Word
  result        : Word
  resultHi      : Word
  ctx           : Context
  /-- A byte of the running command's range was written, or was not visible at acceptance (20_memory.md R79). -/
  bufferTouched : Bool
  /-- A read of the running command was answered with a bus error (20_memory.md R80). -/
  readFailed    : Bool
  tables        : Tables
  /-- Data memory as the engine sees it. -/
  mem           : Memory
  /-- Stores issued and not yet visible to the engine, oldest first (20_memory.md R83(c)). -/
  unseen        : List Host.Cell
  /-- What happens next, the first first (log 6). -/
  inputs        : List Input
  resp          : Response
  /-- How many free values have been drawn (log 7). -/
  draws         : Nat
  deriving DecidableEq, Repr

/-- Why the machine stops. No command of the block stops it. -/
inductive Fault where
  /-- Raised by the input `store` for an address at or above 2^ADDR_WIDTH: the data space has no such byte
  (20_memory.md R70). Safe (log 17). -/
  | outsideDataSpace
  deriving DecidableEq, Repr

/-- Why a command has no meaning in the model. -/
inductive Refusal where
  /-- Raised by a refused arm of `exec`, with the mnemonic of the command. Safe. No arm is refused. -/
  | notModelled (mnemonic : String)
  deriving DecidableEq, Repr

/-- The context at reset: "unspecified and unread" (10_state.md R51); a DESIGN CHOICE (log 4). -/
def resetContext : Context where
  word := 0#32
  crcA := 0#32
  crcB := 0#32
  len := 0#64
  addr := 0#64
  sel := { backend := .generic, ncrc := 1#2, npclmul := 1#2, strategy := .fold3 }

/-- A block with parameters `p` right after power-on (10_state.md R51, 70_reset_and_hazards.md R321). -/
def State.initial (p : Params) : State where
  params := p
  seq := .build
  done := false
  err := false
  ecode := .none
  irqEn := false
  sel := dispatchDefault p
  crcA := 0#32
  crcB := 0#32
  lenLo := 0#32
  lenHi := 0#32
  addrLo := 0#32
  addrHi := 0#32
  result := 0#32
  resultHi := 0#32
  ctx := resetContext
  bufferTouched := false
  readFailed := false
  tables := unbuiltTables
  mem := []
  unseen := []
  inputs := []
  resp := .nothing
  draws := 0

/-- The machine right after reset. -/
def State.reset : State := State.initial Config.device

end Sys2Proof.Machine
end

