-- ==== Sys2Proof/WellFormed.lean ====
section
/-!
DEFINITION. Which commands are legal (30_encoding.md R104): only LUTRD has a check, the range of its index.
-/

namespace Sys2Proof

/-- How many entries the table TSEL has (30_encoding.md R104, 10_state.md R45). A reserved TSEL has none, and
table 9 exists only with the multi-stream unit. -/
def tableEntries (multistream : Bool) (tsel : BitVec 4) : Nat :=
  match tsel.toNat with
  | 0 => 256
  | 1 => 256
  | 2 => 256
  | 3 => 256
  | 4 => 256
  | 5 => Config.zeroesCount
  | 6 => 256
  | 7 => Config.zeroesCount
  | 8 => Config.powersCount
  | 9 => if multistream then 8 else 0
  | _ => 0

/-- `legal_index` of 30_encoding.md R107: TSEL names a table and IDX an entry of it. -/
def legalIndex (multistream : Bool) (tsel : BitVec 4) (idx : BitVec 8) : Bool :=
  decide (idx.toNat < tableEntries multistream tsel)

/-- A command the block may accept, its operand registers apart (30_encoding.md R107). -/
def Instr.wellFormed (p : Params) (i : Instr) : Bool :=
  match i with
  | .nop => true
  | .empty => true
  | .extend => true
  | .extz => true
  | .unextz => true
  | .concat => true
  | .combine => true
  | .scramble => true
  | .unscramble => true
  | .clmul => true
  | .mulmod => true
  | .zconst => true
  | .lutrd tsel idx => legalIndex p.multistream tsel idx

end Sys2Proof
end

