-- ==== Sys2Proof/Machine/Ops.lean ====
section
/-!
DEFINITION. The named operations over memory and registers: data memory, recording an error and completing a
command (60_exceptions.md R281-R285), acceptance's latch (30_encoding.md R108), the end of BUILD and reset.
The block takes no traps (R287): what it has instead of exception entry is `recordError`.
-/

namespace Sys2Proof.Machine

/-- A step's outcome. -/
abbrev Result := Host.Outcome State Fault Refusal

/-! ## Data memory (20_memory.md) -/

/-- What an address that nothing has written reads as (log 3). -/
def unlistedByte : Byte := 0#8

/-- `MemRead(a, 1)` where the bus answers with data (20_memory.md R74). -/
def Memory.read (m : Memory) (a : Nat) : Byte :=
  match m with
  | [] => unlistedByte
  | (k, v) :: rest => if k = a then v else Memory.read rest a

/-- The memory without its entry for `a`. -/
def Memory.erase (m : Memory) (a : Nat) : Memory :=
  match m with
  | [] => []
  | (k, v) :: rest => if k = a then rest else (k, v) :: Memory.erase rest a

/-- The memory with the entry `(a, b)` in its place by address. -/
def Memory.insert (m : Memory) (a : Nat) (b : Byte) : Memory :=
  match m with
  | [] => [(a, b)]
  | (k, v) :: rest =>
    if a < k then (a, b) :: (k, v) :: rest
    else if a = k then (a, b) :: rest
    else (k, v) :: Memory.insert rest a b

/-- A byte written by another agent (20_memory.md R79); the engine writes none (R77). Writing what an unlisted
address reads as removes the entry. -/
def Memory.write (m : Memory) (a : Nat) (b : Byte) : Memory :=
  if b = unlistedByte then Memory.erase m a else Memory.insert m a b

/-- Every entry's address is above `lo` and the next one's is higher still, and no entry is the unlisted byte. -/
def Memory.wfAbove (lo : Option Nat) (m : Memory) : Bool :=
  match m with
  | [] => true
  | (k, v) :: rest =>
    (match lo with
      | none => true
      | some l => decide (l < k)) && v != unlistedByte && Memory.wfAbove (some k) rest

/-- The canonical form of a memory: addresses strictly rising, no entry equal to the unlisted byte. -/
def Memory.wf (m : Memory) : Bool := Memory.wfAbove none m

/-- The `n` bytes from `a` on, the lowest address first (20_memory.md R71). Addresses do not wrap (R73). -/
def Memory.readBytes (m : Memory) (a : Nat) : Nat → List Byte
  | 0 => []
  | n + 1 => Memory.read m a :: Memory.readBytes m (a + 1) n

/-! ## Errors and completion (60_exceptions.md) -/

/-- `CmdError(code)` (60_exceptions.md R281). -/
def recordError (code : ErrorCode) (s : State) : State := { s with err := true, ecode := code }

/-- `reject(code)` of a CMD write: the error is recorded and nothing else (60_exceptions.md R282). -/
def reject (code : ErrorCode) (s : State) : State := recordError code s

/-- Failed completion (60_exceptions.md R285): the error is recorded and SEQ returns to IDLE; DONE and the result
registers keep their values. -/
def failCommand (code : ErrorCode) (s : State) : State := { recordError code s with seq := .idle }

/-- Successful completion of a command that writes no result (60_exceptions.md R284; NOP). -/
def finishPlain (s : State) : State := { s with done := true, seq := .idle }

/-- Successful completion with a 64-bit result (60_exceptions.md R284, 10_state.md R42). -/
def finishWide (v : DWord) (s : State) : State :=
  { s with result := lowWord v, resultHi := highWord v, done := true, seq := .idle }

/-- Successful completion with a 32-bit result: RESULT_HI is 0 (60_exceptions.md R284, 10_state.md R42). -/
def finishWord (v : Word) (s : State) : State :=
  { s with result := v, resultHi := 0#32, done := true, seq := .idle }

/-- Successful completion with a free RESULT (20_memory.md R79; log 7). -/
def finishFree (s : State) : State :=
  { finishWord (Config.freeWord s.draws) s with draws := s.draws + 1 }

/-! ## Acceptance (30_encoding.md R107, R108) -/

/-- LEN = {LEN_HI, LEN_LO} (10_state.md R40). -/
def State.len (s : State) : DWord := join s.lenHi s.lenLo

/-- ADDR = {ADDR_HI, ADDR_LO} (10_state.md R41). -/
def State.addr (s : State) : DWord := join s.addrHi s.addrLo

/-- The range check of 20_memory.md R73: exact, and none for LEN = 0. -/
def rangeOk (p : Params) (addr len : DWord) : Bool :=
  decide (len = 0#64 ∨ addr.toNat + len.toNat ≤ p.dataBytes)

/-- The context a command word and the registers give (30_encoding.md R108). -/
def contextOf (w : Word) (s : State) : Context where
  word := w
  crcA := s.crcA
  crcB := s.crcB
  len := s.len
  addr := s.addr
  sel := s.sel

/-- Address `a` is in [ADDR, ADDR + LEN) of a context (20_memory.md R76). -/
def Context.covers (c : Context) (a : Nat) : Bool :=
  decide (c.addr.toNat ≤ a ∧ a < c.addr.toNat + c.len.toNat)

/-- Some pending store is to the range of a context: it was not visible at acceptance (20_memory.md R83(c),
70_reset_and_hazards.md R333(b)). -/
def hidesStore (c : Context) (unseen : List Host.Cell) : Bool := unseen.any (fun x => c.covers x.1)

/-- Acceptance of command word `w` (30_encoding.md R107, R108): the context is latched, DONE is cleared, SEQ is
BUSY. -/
def latch (w : Word) (s : State) : State :=
  { s with
    ctx := contextOf w s
    bufferTouched := hidesStore (contextOf w s) s.unseen
    readFailed := false
    done := false
    seq := .busy }

/-! ## BUILD and reset -/

/-- The end of BUILD (40_table_builder.md R130, R141, R142): the tables are built, with the capacity check after each
zero table; SEQ becomes IDLE, or FATAL if a check fails. DONE and ERR are not touched. DESIGN CHOICE (log 5): in FATAL,
where the spec leaves the tables any value, they stay as they stood. -/
def finishBuild (s : State) : State :=
  if capacityOk (fillZeroesTable Config.poly) then
    if capacityOk (fillZeroesTable unextPoly) then
      { s with tables := builtTables s.params.multistream, seq := .idle }
    else { s with seq := .fatal }
  else { s with seq := .fatal }

/-- The reset input (70_reset_and_hazards.md R320): every register and flag of the block takes its reset value.
What is not the block keeps its own: the parameters, data memory, pending stores and inputs (log 20). -/
def resetBlock (s : State) : State :=
  { State.initial s.params with mem := s.mem, unseen := s.unseen, inputs := s.inputs, draws := s.draws }

end Sys2Proof.Machine
end

