-- ==== Sys2Proof/Machine/Operands.lean ====
section
/-!
DEFINITION. The operand forms of the commands: every operand is the value latched at acceptance
(30_encoding.md R104, R108; 00_scope.md R13).
-/

namespace Sys2Proof.Machine

/-- CRC_A as the running command sees it. -/
def operandA (s : State) : Word := s.ctx.crcA

/-- CRC_B as the running command sees it. -/
def operandB (s : State) : Word := s.ctx.crcB

/-- LEN as the running command sees it. -/
def operandLen (s : State) : DWord := s.ctx.len

/-- ADDR as the running command sees it. -/
def operandAddr (s : State) : DWord := s.ctx.addr

/-- The backend the running command uses (70_reset_and_hazards.md R331). -/
def operandSel (s : State) : Selection := s.ctx.sel

/-- The message of EXTEND: the LEN bytes from ADDR on (20_memory.md R71, R113). -/
def message (s : State) : List Byte :=
  Memory.readBytes s.mem (operandAddr s).toNat (operandLen s).toNat

/-- The running EXTEND reads no byte (20_memory.md R73). -/
def emptyMessage (s : State) : Bool := operandLen s == 0#64

end Sys2Proof.Machine
end

