-- ==== Sys2Proof/Machine/CrcOps.lean ====
section
/-!
DEFINITION. The meanings of NOP, EMPTY, EXTEND, EXTZ, UNEXTZ, CONCAT and COMBINE (41_crc_ops.md), each the
completion of the accepted command.
-/

namespace Sys2Proof.Machine

/-- The EXTEND datapath of a backend (41_crc_ops.md R168, 43_gf2_multiply.md R219, 44_multistream.md R241). -/
def extendPath (p : Params) (t : Tables) (sel : Selection) (addr : Nat) (c : Word) (bs : List Byte) : Word :=
  match sel.backend with
  | .generic => genericExtend p.needAligned t addr c bs
  | .accel => genericExtend p.needAligned t addr c bs
  | .multi => multiExtend t sel c bs

/-- The zero-extension datapath of a backend (41_crc_ops.md R170, 43_gf2_multiply.md R218, 44_multistream.md R255). -/
def extZPath (t : Tables) (sel : Selection) (c : Word) (n : DWord) : Word :=
  match sel.backend with
  | .generic => genericExtZ t c n
  | .accel => accelExtZ t c n
  | .multi => accelExtZ t c n

/-- NOP (41_crc_ops.md R160). -/
def execNop (s : State) : Result := .next (finishPlain s)

/-- EMPTY (41_crc_ops.md R161). -/
def execEmpty (s : State) : Result := .next (finishWord Config.emptyValue s)

/-- The value EXTEND computes when its reads succeed and its buffer is kept (41_crc_ops.md R163). -/
def extendValue (s : State) : Word :=
  extendPath s.params s.tables (operandSel s) (operandAddr s).toNat (operandA s) (message s)

/-- EXTEND (41_crc_ops.md R163): a failed read ends it with BUS_ERROR (20_memory.md R80), a buffer that was not kept
gives any RESULT (R79). An empty message reads nothing, so neither can happen to it (R73). A range acceptance would
have rejected is answered by the same code here (log 13). -/
def execExtend (s : State) : Result :=
  if emptyMessage s then .next (finishWord (extendValue s) s)
  else if !rangeOk s.params (operandAddr s) (operandLen s) then .next (failCommand .addrRange s)
  else if s.readFailed then .next (failCommand .busError s)
  else if s.bufferTouched then .next (finishFree s)
  else .next (finishWord (extendValue s) s)

/-- EXTZ (41_crc_ops.md R165). -/
def execExtz (s : State) : Result :=
  .next (finishWord (extZPath s.tables (operandSel s) (operandA s) (operandLen s)) s)

/-- UNEXTZ (41_crc_ops.md R166), by the reverse tables under every backend (43_gf2_multiply.md R220). -/
def execUnextz (s : State) : Result :=
  .next (finishWord (reverseUnextZ s.tables (operandA s) (operandLen s)) s)

/-- CONCAT (41_crc_ops.md R171): the EMPTY baseline is removed before the extension. -/
def execConcat (s : State) : Result :=
  .next (finishWord
    (extZPath s.tables (operandSel s) (operandA s ^^^ Config.emptyValue) (operandLen s) ^^^ operandB s) s)

/-- COMBINE (41_crc_ops.md R172). -/
def execCombine (s : State) : Result :=
  .next (finishWord (extZPath s.tables (operandSel s) (operandA s) (operandLen s) ^^^ operandB s) s)

end Sys2Proof.Machine
end

