-- ==== Sys2Proof/Machine/Lut.lean ====
section
/-!
DEFINITION. The meaning of LUTRD (40_table_builder.md R143).
-/

namespace Sys2Proof.Machine

/-- LUTRD (40_table_builder.md R143). An index acceptance would have rejected is answered by the same code here
(log 13). -/
def execLutrd (tsel : BitVec 4) (idx : BitVec 8) (s : State) : Result :=
  if legalIndex s.params.multistream tsel idx then .next (finishWide (readEntry s.tables tsel idx) s)
  else .next (failCommand .indexRange s)

end Sys2Proof.Machine
end

