-- ==== Sys2Proof/Machine/Multiply.lean ====
section
/-!
DEFINITION. The meanings of CLMUL, MULMOD and ZCONST (43_gf2_multiply.md), on the multiplier units under every
backend (R220).
-/

namespace Sys2Proof.Machine

/-- CLMUL (43_gf2_multiply.md R210). -/
def execClmul (s : State) : Result := .next (finishWide (clMul (operandA s) (operandB s)) s)

/-- MULMOD (43_gf2_multiply.md R211, R213). -/
def execMulmod (s : State) : Result := .next (finishWord (mulModHw (operandA s) (operandB s)) s)

/-- ZCONST (43_gf2_multiply.md R216, R217). -/
def execZconst (s : State) : Result := .next (finishWord (zConstHw s.tables.powers (operandLen s).toNat) s)

end Sys2Proof.Machine
end

