-- ==== Sys2Proof/Machine/Scramble.lean ====
section
/-!
DEFINITION. The meanings of SCRAMBLE and UNSCRAMBLE (42_scramble.md).
-/

namespace Sys2Proof.Machine

/-- SCRAMBLE (42_scramble.md R200). -/
def execScramble (s : State) : Result := .next (finishWord (scramble s.params.scrambleK (operandA s)) s)

/-- UNSCRAMBLE (42_scramble.md R201). -/
def execUnscramble (s : State) : Result := .next (finishWord (unscramble s.params.scrambleK (operandA s)) s)

end Sys2Proof.Machine
end

