-- ==== Sys2Proof/Machine/Dispatch.lean ====
section
/-!
DEFINITION. The command table of the sequencer: one arm for each command, its completion (30_encoding.md R105).
-/

namespace Sys2Proof.Machine

def exec (i : Instr) (s : State) : Host.Outcome State Fault Refusal :=
  match i with
  -- 41_crc_ops.md
  | .nop => Sys2Proof.Machine.execNop s
  | .empty => Sys2Proof.Machine.execEmpty s
  | .extend => Sys2Proof.Machine.execExtend s
  | .extz => Sys2Proof.Machine.execExtz s
  | .unextz => Sys2Proof.Machine.execUnextz s
  | .concat => Sys2Proof.Machine.execConcat s
  | .combine => Sys2Proof.Machine.execCombine s
  -- 42_scramble.md
  | .scramble => Sys2Proof.Machine.execScramble s
  | .unscramble => Sys2Proof.Machine.execUnscramble s
  -- 43_gf2_multiply.md
  | .clmul => Sys2Proof.Machine.execClmul s
  | .mulmod => Sys2Proof.Machine.execMulmod s
  | .zconst => Sys2Proof.Machine.execZconst s
  -- 40_table_builder.md
  | .lutrd tsel idx => Sys2Proof.Machine.execLutrd tsel idx s

end Sys2Proof.Machine
end

