-- ==== Sys2Proof/Machine/Flags.lean ====
section
/-!
DEFINITION. STATUS, its write-one-to-clear bits and the IRQ level (10_state.md R35, R44, R49).
-/

namespace Sys2Proof.Machine

/-- STATUS.BUSY (10_state.md R35). -/
def State.busyBit (s : State) : Bool := s.seq == .build || s.seq == .busy

/-- STATUS.READY (10_state.md R35). -/
def State.readyBit (s : State) : Bool := s.seq == .idle || s.seq == .busy

/-- STATUS.FATAL (10_state.md R35). -/
def State.fatalBit (s : State) : Bool := s.seq == .fatal

/-- The code of STATUS.ECODE (60_exceptions.md R280). -/
def ErrorCode.bits (e : ErrorCode) : BitVec 4 :=
  match e with
  | .none => 0#4
  | .illegalOpcode => 1#4
  | .illegalField => 2#4
  | .notReady => 3#4
  | .busy => 4#4
  | .indexRange => 5#4
  | .addrRange => 6#4
  | .busError => 7#4

/-- STATUS as a host reads it (10_state.md R35): reserved bits are 0. -/
def statusWord (s : State) : Word :=
  0#20 ++ s.ecode.bits ++ 0#3 ++ BitVec.ofBool s.fatalBit ++ BitVec.ofBool s.err ++ BitVec.ofBool s.done
    ++ BitVec.ofBool s.readyBit ++ BitVec.ofBool s.busyBit

/-- The IRQ level (10_state.md R49). -/
def State.irq (s : State) : Bool := s.irqEn && (s.done || s.err)

/-- DONE is cleared where bit 2 of a STATUS write is 1 (10_state.md R35). -/
def clearDone (w : Word) (s : State) : State := { s with done := s.done && !w.getLsbD 2 }

/-- ERR and ECODE are cleared where bit 3 of a STATUS write is 1 (10_state.md R35, 60_exceptions.md R289). -/
def clearErr (w : Word) (s : State) : State :=
  { s with
    err := s.err && !w.getLsbD 3
    ecode := if w.getLsbD 3 then .none else s.ecode }

/-- A write of STATUS (10_state.md R35): only the two W1C bits have an effect. -/
def writeStatus (w : Word) (s : State) : State := clearErr w (clearDone w s)

/-- A write of CTRL (10_state.md R37): IRQ_EN always, the backend fields only if they are legal. -/
def writeCtrl (w : Word) (s : State) : State :=
  { s with
    irqEn := w.getLsbD 0
    sel := (legalWrite s.params.multistream w).getD s.sel }

end Sys2Proof.Machine
end

