-- ==== Sys2Proof/Machine/HostBus.lean ====
section
/-!
DEFINITION. The register block on the host bus (10_state.md R33-R38) and the acceptance of command words
(30_encoding.md R107).
-/

namespace Sys2Proof.Machine

/-- The registers of the map (10_state.md R33). -/
inductive Reg where
  | poly
  | status
  | ctrl
  | cmd
  | crcA
  | crcB
  | lenLo
  | lenHi
  | addrLo
  | addrHi
  | result
  | resultHi
  deriving DecidableEq, Repr

/-- The register at an offset; every other offset is reserved (10_state.md R33). -/
def regAt (offset : Nat) : Option Reg :=
  match offset with
  | 0x00 => some .poly
  | 0x04 => some .status
  | 0x08 => some .ctrl
  | 0x0C => some .cmd
  | 0x10 => some .crcA
  | 0x14 => some .crcB
  | 0x18 => some .lenLo
  | 0x1C => some .lenHi
  | 0x20 => some .addrLo
  | 0x24 => some .addrHi
  | 0x28 => some .result
  | 0x2C => some .resultHi
  | _ => none

/-- What a read of a register returns (10_state.md R33-R36, R43); CMD reads 0 (R34). -/
def readReg (r : Reg) (s : State) : Word :=
  match r with
  | .poly => Config.poly
  | .status => statusWord s
  | .ctrl => ctrlWord s.irqEn s.sel
  | .cmd => 0#32
  | .crcA => s.crcA
  | .crcB => s.crcB
  | .lenLo => s.lenLo
  | .lenHi => s.lenHi
  | .addrLo => s.addrLo
  | .addrHi => s.addrHi
  | .result => s.result
  | .resultHi => s.resultHi

/-- The code a decoding failure is rejected with (30_encoding.md R109). -/
def decodeCode (e : DecodeError) : ErrorCode :=
  match e with
  | .illegalOpcode => .illegalOpcode
  | .illegalField => .illegalField

/-- The checks of a decoded command word (30_encoding.md R107): the index of LUTRD, then the range of EXTEND. -/
def checkOperands (i : Instr) (s : State) : Except ErrorCode Instr :=
  if !i.wellFormed s.params then .error .indexRange
  else if i = .extend ∧ !rangeOk s.params s.addr s.len then .error .addrRange
  else .ok i

/-- The checks of a CMD write in the order of 30_encoding.md R107: the command, or the code of the first failing
check. -/
def checkCommand (w : Word) (s : State) : Except ErrorCode Instr :=
  match s.seq with
  | .build => .error .notReady
  | .fatal => .error .notReady
  | .busy => .error .busy
  | .idle =>
    match decode w with
    | .error e => .error (decodeCode e)
    | .ok i => checkOperands i s

/-- A CMD write (10_state.md R38, 30_encoding.md R107): accepted or rejected. -/
def writeCmd (w : Word) (s : State) : State :=
  match checkCommand w s with
  | .ok _ => latch w s
  | .error code => reject code s

/-- A write of a register (10_state.md R33-R38); read-only registers ignore it (R34). -/
def writeReg (r : Reg) (w : Word) (s : State) : State :=
  match r with
  | .poly => s
  | .status => writeStatus w s
  | .ctrl => writeCtrl w s
  | .cmd => writeCmd w s
  | .crcA => { s with crcA := w }
  | .crcB => { s with crcB := w }
  | .lenLo => { s with lenLo := w }
  | .lenHi => { s with lenHi := w }
  | .addrLo => { s with addrLo := w }
  | .addrHi => { s with addrHi := w }
  | .result => s
  | .resultHi => s

/-- A read at an offset: a reserved offset reads 0 (10_state.md R34). -/
def readOffset (offset : Nat) (s : State) : Word :=
  match regAt offset with
  | some r => readReg r s
  | none => 0#32

/-- A write at an offset: a reserved offset ignores it (10_state.md R34). -/
def writeOffset (offset : Nat) (w : Word) (s : State) : State :=
  match regAt offset with
  | some r => writeReg r w s
  | none => s

/-- A 32-bit access at an aligned offset of the block: it is performed and answered (10_state.md R34). -/
def performAccess (offset : Nat) (write : Option Word) (s : State) : State :=
  match write with
  | some w => { writeOffset offset w s with resp := .written }
  | none => { s with resp := .data (readOffset offset s) }

/-- An access is for the block when its address is one of the 256 bytes at ENGINE_BASE (10_state.md R33). DESIGN CHOICE
(log 12): the address of the first byte alone decides, also for an access that starts below ENGINE_BASE and reaches into
the block, or starts in the block and ends beyond it, which the spec does not speak of. -/
def selects (p : Params) (a : HostAccess) : Bool :=
  decide (p.engineBase ≤ a.addr ∧ a.addr < p.engineBase + 256)

/-- A host access (10_state.md R34): any size but 32 bits, or an offset that is no multiple of 4, gets the bus error
response and changes nothing. -/
def hostAccess (a : HostAccess) (s : State) : State :=
  if !selects s.params a then { s with resp := .notSelected }
  else if a.bytes ≠ 4 ∨ (a.addr - s.params.engineBase) % 4 ≠ 0 then { s with resp := .busError }
  else performAccess (a.addr - s.params.engineBase) a.write s

end Sys2Proof.Machine
end

