-- ==== Sys2Proof/Machine/Engine.lean ====
section
/-!
DEFINITION. The engine's own turn and the inputs from the rest of the platform (10_state.md R30-R32,
20_memory.md R79-R83, 70_reset_and_hazards.md R320, R336).
-/

namespace Sys2Proof.Machine

/-- BUSY: the latched word is decoded and the command completes (30_encoding.md R107). A latched word that is no
command, which acceptance never latches, ends with the code it would have been rejected with (log 13). -/
def completeCommand (s : State) : Result :=
  match decode s.ctx.word with
  | .ok i => exec i s
  | .error e => .next (failCommand (decodeCode e) s)

/-- The engine's turn (10_state.md R32): BUILD ends, or the running command completes. In IDLE and FATAL the engine
does nothing of its own. -/
def engineTurn (s : State) : Result :=
  match s.seq with
  | .build => .next (finishBuild s)
  | .idle => .next s
  | .busy => completeCommand s
  | .fatal => .next s

/-- A byte of the running command's range is written (20_memory.md R79). -/
def touch (a : Nat) (s : State) : State :=
  { s with bufferTouched := s.bufferTouched || (s.seq == .busy && s.ctx.covers a) }

/-- Another agent issues a store (20_memory.md R79, R83(c)). The data space has no byte at or above 2^ADDR_WIDTH
(R70; log 17). -/
def issueStore (a : Nat) (b : Byte) (s : State) : Result :=
  if a < s.params.dataBytes then .next { touch a s with unseen := s.unseen ++ [(a, b)] }
  else .fault .outsideDataSpace

/-- The n-th pending store becomes visible to the engine, if there is one (20_memory.md R83(c); log 8). -/
def publishStore (n : Nat) (s : State) : State :=
  match s.unseen[n]? with
  | some (a, b) => { touch a s with mem := Memory.write s.mem a b, unseen := s.unseen.eraseIdx n }
  | none => s

/-- The running command has reads outstanding: it is an EXTEND of at least one byte (20_memory.md R73, R76). -/
def readsOutstanding (s : State) : Bool :=
  s.seq == .busy && decodeTableWord 32 s.ctx.word.toNat == some Instr.extend && !(s.ctx.len == 0#64)

/-- The data bus answers a read of the running EXTEND with a bus error (20_memory.md R80). -/
def signalReadError (s : State) : State := { s with readFailed := s.readFailed || readsOutstanding s }

/-- One input (log 6). -/
def takeInput (i : Input) (s : State) : Result :=
  match i with
  | .host a => .next (hostAccess a s)
  | .engine => engineTurn s
  | .reset => .next (resetBlock s)
  | .store a b => issueStore a b s
  | .publish n => .next (publishStore n s)
  | .readError => .next (signalReadError s)

/-- The first pending input is taken; where none is listed it is the engine's turn (log 6). -/
def advance (s : State) : Result :=
  match s.inputs with
  | [] => engineTurn s
  | i :: rest => takeInput i { s with inputs := rest }

/-- A machine that has accepted command word `w` and whose very next step completes it: the tables stand as BUILD
leaves them, the word is latched with the operand registers, and the engine's turn is next (log 1). -/
def loadCommand (w : Word) (s : State) : State :=
  { latch w s with
    tables := if s.readyBit then s.tables else builtTables s.params.multistream
    inputs := .engine :: s.inputs }

end Sys2Proof.Machine
end

