-- ==== Sys2Proof/Machine/Step.lean ====
section
/-!
DEFINITION. One step of the machine, and the state in which a given command word is the next to run.
-/

namespace Sys2Proof.Machine

/-- One step (70_reset_and_hazards.md R336; log 6). -/
def step (s : State) : Host.Outcome State Fault Refusal := advance s

/-- `s` with the command of an opcode-table row accepted, so that the next step completes it (log 1). -/
def State.withFetchWord (s : State) (nbits w : Nat) : State := loadCommand (tableWord nbits w) s

end Sys2Proof.Machine
end

