-- ==== Sys2Proof/Safety.lean ====
section
/-!
DEFINITION. What counts as a safe state, and the words the statements use: the bus accesses of a host, the engine's
turn, the invariant of the machine, and the polynomial view of a value (00_scope.md R9, R10).
-/

namespace Sys2Proof.Machine

/-! ## Inputs -/

/-- `WR` of 30_encoding.md R110: a host writes `w` to the register at `offset`. -/
def busWrite (p : Params) (offset : Nat) (w : Word) : Input :=
  .host { addr := p.engineBase + offset, bytes := 4, write := some w }

/-- `RD` of 30_encoding.md R110: a host reads the register at `offset`. -/
def busRead (p : Params) (offset : Nat) : Input :=
  .host { addr := p.engineBase + offset, bytes := 4, write := none }

/-- The next step is the engine's turn: no input is listed, or the engine's turn is the first (log 6). -/
def State.engineNext (s : State) : Prop := s.inputs.head? = none ∨ s.inputs.head? = some .engine

/-- The state without the input the next step consumes. -/
def State.dropInput (s : State) : State := { s with inputs := s.inputs.tail }

/-! ## The invariant -/

/-- The tables are what BUILD left, and the running command's backend is a legal one: what the datapaths need. -/
structure State.Equipped (s : State) : Prop where
  tables  : s.tables = builtTables s.params.multistream
  backend : selectionLegal s.params.multistream s.ctx.sel = true

/-- The latched command is one that acceptance accepts (30_encoding.md R107). -/
structure State.Accepted (s : State) : Prop where
  command : ∃ i, decode s.ctx.word = .ok i ∧ i.wellFormed s.params = true ∧
    (i = .extend → rangeOk s.params s.ctx.addr s.ctx.len = true)
  backend : selectionLegal s.params.multistream s.ctx.sel = true
  notDone : s.done = false
  hidden  : ∀ x ∈ s.unseen, s.ctx.covers x.1 = true → s.bufferTouched = true

/-- The invariant of the machine: every reset state has it and every step keeps it. -/
structure State.Inv (s : State) : Prop where
  /-- Data memory is in canonical form. -/
  memory    : Memory.wf s.mem = true
  /-- Data memory lists only bytes of the data space (20_memory.md R70). -/
  mapped    : ∀ x ∈ s.mem, x.1 < s.params.dataBytes
  /-- Only bytes of the data space are stored to. -/
  pending   : ∀ x ∈ s.unseen, x.1 < s.params.dataBytes
  /-- CTRL reads as a legal value (10_state.md R37). -/
  legalCtrl : selectionLegal s.params.multistream s.sel = true
  /-- No run reaches FATAL (40_table_builder.md R141). -/
  notFatal  : s.seq ≠ .fatal
  /-- READY = 1 says that the tables are built (10_state.md R35). -/
  built     : s.readyBit = true → s.tables = builtTables s.params.multistream
  /-- ECODE names an error exactly when ERR = 1 (60_exceptions.md R280, R281, R289). -/
  errorCode : s.err = true ↔ s.ecode ≠ .none
  /-- BUSY runs a command that was accepted. -/
  running   : s.seq = .busy → s.Accepted

/-! ## Polynomials over GF(2) -/

open Polynomial in
/-- `poly(v)` of 00_scope.md R9: bit i of the reflected value is the coefficient of x^(31 - i). -/
noncomputable def polyOf (v : Word) : (ZMod 2)[X] :=
  ∑ i ∈ Finset.range 32, if v.getLsbD i then X ^ (31 - i) else 0

open Polynomial in
/-- The polynomial of a value in normal form (00_scope.md R9): bit i is the coefficient of x^i. -/
noncomputable def normalOf {w : Nat} (v : BitVec w) : (ZMod 2)[X] :=
  ∑ i ∈ Finset.range w, if v.getLsbD i then X ^ i else 0

open Polynomial in
/-- P of 00_scope.md R2: x^32 and the polynomial of 0x1EDC6F41 in normal form. -/
noncomputable def generator : (ZMod 2)[X] := X ^ 32 + normalOf 0x1EDC6F41#32

open Polynomial in
/-- `M(B)` of 00_scope.md R12: the first byte holds the highest coefficients, and in a byte bit 0 is the highest. -/
noncomputable def messagePoly (bs : List Byte) : (ZMod 2)[X] :=
  ∑ k ∈ Finset.range bs.length, ∑ i ∈ Finset.range 8,
    if (bs.getD k 0#8).getLsbD i then X ^ (8 * (bs.length - 1 - k) + 7 - i) else 0

end Sys2Proof.Machine
end

