-- ==== Sys2Proof/Certificates/Slice0/Obligations.lean ====
section
/-!
DEFINITION. The statements for the provers. Each says which rule of spec/ it formalises; where a clause rests on a
choice of the model it names the log entry.
-/

open Sys2Proof Sys2Proof.Machine

/-! ## Encoding (30_encoding.md) -/

/-- 30_encoding.md R102, R103, R105: the encoder and the decoder are inverse to each other, so no bit of a command
word is dropped and no two words stand for one command. -/
def Obligations.DecodeEncodeAgree : Prop :=
  (∀ i : Instr, decode (encode i) = .ok i) ∧
  (∀ (w : Word) (i : Instr), decode w = .ok i → encode i = w)

/-- 30_encoding.md R105, R107, R109 and 95_test_vectors.md section 2.6: some words written out from the spec. -/
def Obligations.DecodeSpecWords : Prop :=
  decode 0x00000000#32 = .ok .nop ∧ decode 0x00000002#32 = .ok .extend ∧ decode 0x00000004#32 = .ok .unextz ∧
  decode 0x00000006#32 = .ok .combine ∧ decode 0x00000008#32 = .ok .unscramble ∧ decode 0x0000000A#32 = .ok .mulmod ∧
  decode 0x0000800C#32 = .ok (.lutrd 0#4 128#8) ∧ decode 0x0005EF0C#32 = .ok (.lutrd 5#4 239#8) ∧
  decode 0x0009070C#32 = .ok (.lutrd 9#4 7#8) ∧ decode 0x0000000D#32 = .error .illegalOpcode ∧
  decode 0x00000102#32 = .error .illegalField ∧ decode 0x0010000C#32 = .error .illegalField

/-- 30_encoding.md R104, R109: which words are illegal, and as what. -/
def Obligations.DecodeRejections : Prop :=
  (∀ w : Word,
    (decode w = .error .illegalOpcode ↔ 0x0C < w.toNat % 2 ^ 8) ∧
    (decode w = .error .illegalField ↔
      (w.toNat % 2 ^ 8 < 0x0C ∧ w.toNat / 2 ^ 8 ≠ 0) ∨ (w.toNat % 2 ^ 8 = 0x0C ∧ w.toNat / 2 ^ 20 ≠ 0)) ∧
    (∀ tsel idx, decode w = .ok (.lutrd tsel idx) →
      tsel.toNat = w.toNat / 2 ^ 16 % 2 ^ 4 ∧ idx.toNat = w.toNat / 2 ^ 8 % 2 ^ 8)) ∧
  (∀ (p : Params) (tsel : BitVec 4) (idx : BitVec 8), (Instr.lutrd tsel idx).wellFormed p = true ↔
    (tsel.toNat ≤ 4 ∨ tsel.toNat = 6) ∨ ((tsel.toNat = 5 ∨ tsel.toNat = 7) ∧ idx.toNat ≤ 239) ∨
    (tsel.toNat = 8 ∧ idx.toNat ≤ 61) ∨ (tsel.toNat = 9 ∧ idx.toNat ≤ 7 ∧ p.multistream = true))

/-! ## Reset, BUILD and the sequencer (10_state.md, 40_table_builder.md, 70_reset_and_hazards.md) -/

/-- 10_state.md R51 and R37: the reset value of every piece of state the spec gives one, for every choice of the
parameters; no command is accepted in the reset state, so the context and the tables are not read. That a choice of
DISPATCH_DEFAULT which is not legal counts as no choice is the model's (log 2), and so is what `State.initial` holds where
the spec gives no reset value (logs 3 to 8, 12). -/
def Obligations.ResetValues : Prop :=
  State.reset = State.initial Config.device ∧
  ∀ p : Params, let s := State.initial p
    s.seq = .build ∧ readReg .status s = 0x00000001#32 ∧ readReg .poly s = 0x82F63B78#32 ∧ s.irq = false ∧
    readReg .crcA s = 0#32 ∧ readReg .crcB s = 0#32 ∧ readReg .lenLo s = 0#32 ∧ readReg .lenHi s = 0#32 ∧
    readReg .addrLo s = 0#32 ∧ readReg .addrHi s = 0#32 ∧ readReg .result s = 0#32 ∧ readReg .resultHi s = 0#32 ∧
    selectionLegal p.multistream s.sel = true ∧ (readReg .ctrl s).getLsbD 0 = false ∧
    (∀ t, p.dispatchChoice = some t → selectionLegal p.multistream t = true → s.sel = t) ∧
    ((∀ t, p.dispatchChoice = some t → selectionLegal p.multistream t = false) →
      readReg .ctrl s = if p.multistream then 0x00000078#32 else 0x00000074#32) ∧
    (∀ w, writeCmd w s = { s with err := true, ecode := .notReady })

/-- 70_reset_and_hazards.md R320: the reset input, whatever the current state. What the latched context and the tables,
which R51 leaves unspecified, then hold is the model's (logs 4, 5), and so are the cleared marks and response (logs 7, 9,
12), and that the parameters, data memory, pending stores, inputs and `draws` stay (log 20). -/
def Obligations.ResetInput : Prop :=
  ∀ (s : State) (rest : List Input), s.inputs = .reset :: rest →
    step s = .next { State.initial s.params with mem := s.mem, unseen := s.unseen, inputs := rest, draws := s.draws }

/-- 10_state.md R32: the transitions of SEQ and what causes each. -/
def Obligations.SequencerTransitions : Prop :=
  (∀ s t : State, step s = .next t →
    t.seq = s.seq ∨
    (s.inputs.head? = some .reset ∧ t.seq = .build) ∨
    (s.engineNext ∧ s.seq = .build ∧
      t.seq = if capacityOk (fillZeroesTable Config.poly) && capacityOk (fillZeroesTable unextPoly) then .idle
        else .fatal) ∨
    (s.seq = .idle ∧ t.seq = .busy ∧
      ∃ w i, s.inputs.head? = some (busWrite s.params 0x0C w) ∧ checkCommand w s = .ok i) ∨
    (s.engineNext ∧ s.seq = .busy ∧ t.seq = .idle)) ∧
  (∀ s t : State, step s = .next t → s.inputs.head? = some .reset → t.seq = .build) ∧
  (∀ s t : State, step s = .next t → s.engineNext → s.seq = .build ∨ s.seq = .busy → t.seq ≠ s.seq)

/-- 40_table_builder.md R142: the end of BUILD. -/
def Obligations.BuildCompletes : Prop :=
  ∀ s : State, s.engineNext → s.seq = .build →
    ∃ t, step s = .next t ∧ t = { s.dropInput with seq := .idle, tables := builtTables s.params.multistream } ∧
      (readReg .status t).getLsbD 0 = false ∧ (readReg .status t).getLsbD 1 = true ∧ t.done = s.done ∧ t.err = s.err ∧
      t.irq = s.irq

/-! ## The tables (40_table_builder.md, 44_multistream.md) -/

/-- 40_table_builder.md R131: table0. -/
def Obligations.ByteTableContents : Prop :=
  ∀ m : Bool, (builtTables m).table0 = (fillWordTable Config.poly Config.poly 1).getD 0 [] ∧
    (builtTables m).table0.length = 256 ∧
    (∀ i : Byte, entry (builtTables m).table0 i.toNat = bitSteps 8 (i.setWidth 32) ∧
      entry (builtTables m).table0 i.toNat = mulMod (i.setWidth 32) (xPow 8)) ∧
    entry (builtTables m).table0 0 = 0x00000000#32 ∧ entry (builtTables m).table0 1 = 0xF26B8303#32 ∧
    entry (builtTables m).table0 128 = 0x82F63B78#32 ∧ entry (builtTables m).table0 255 = 0xAD7D5351#32

/-- 40_table_builder.md R133: the word-interleaved tables. -/
def Obligations.WordTableContents : Prop :=
  interleavedLast = ext Config.poly (List.replicate 12 0#8) ∧ interleavedLast = xPow (32 + 96) ∧
  interleavedLast = 0x18B8EA18#32 ∧
  ∀ m : Bool, (builtTables m).interleaved = fillWordTable Config.poly interleavedLast 4 ∧
    (builtTables m).interleaved.length = 4 ∧
    (∀ j, j < 4 → ((builtTables m).interleaved.getD j []).length = 256 ∧
      ∀ i : Byte, entry ((builtTables m).interleaved.getD j []) i.toNat
        = extZ (entry (builtTables m).table0 i.toNat) (12 + j)) ∧
    (∀ x ∈ [(0, 1, 0x30D23865#32), (0, 128, 0x18B8EA18#32), (1, 1, 0x54075546#32), (2, 1, 0x678EFD01#32),
        (3, 1, 0xF20C0DFE#32), (3, 255, 0x8FDA7DFA#32)],
      entry ((builtTables m).interleaved.getD x.1 []) x.2.1 = x.2.2)

/-- 40_table_builder.md R136: the zero-extension table. -/
def Obligations.ZeroTableContents : Prop :=
  ∀ m : Bool, (builtTables m).zeroes = fillZeroesTable Config.poly ∧ (builtTables m).zeroes.length = 240 ∧
    (∀ k c, k < 16 → 1 ≤ c → c ≤ 15 → entry (builtTables m).zeroes (15 * k + c - 1) = xPow (8 * c * 16 ^ k)) ∧
    entry (builtTables m).zeroes 0 = 0x00800000#32 ∧ entry (builtTables m).zeroes 1 = 0x00008000#32 ∧
    entry (builtTables m).zeroes 2 = 0x00000080#32 ∧ entry (builtTables m).zeroes 14 = 0xC94EC098#32 ∧
    entry (builtTables m).zeroes 15 = 0x18B8EA18#32 ∧ entry (builtTables m).zeroes 239 = 0x00000002#32

/-- 40_table_builder.md R137, R138: on bit-reversed values a step modulo U removes one zero bit, and the reverse
tables undo the byte and zero steps. -/
def Obligations.ReverseTableContents : Prop :=
  unextPoly = 0x8F6E37A0#32 ∧
  (∀ d, rev32 (bitStepQ unextPoly (rev32 (bitStep d))) = d) ∧
  (∀ c, bitStep (rev32 (bitStepQ unextPoly (rev32 c))) = c) ∧
  ∀ m : Bool, (builtTables m).reverseTable0.length = 256 ∧ (builtTables m).reverseZeroes.length = 240 ∧
    (∀ i : Byte, bitSteps 8 (rev32 (entry (builtTables m).reverseTable0 i.toNat)) = rev32 (i.setWidth 32)) ∧
    (∀ k c, k < 16 → 1 ≤ c → c ≤ 15 →
      bitSteps (8 * c * 16 ^ k) (rev32 (entry (builtTables m).reverseZeroes (15 * k + c - 1))) = rev32 one)

/-- 40_table_builder.md R139: the powers table. -/
def Obligations.PowersContents : Prop :=
  ∀ m : Bool, (builtTables m).powers.length = 62 ∧
    (∀ i, i < 62 → entry (builtTables m).powers i = xPow (32 * 2 ^ i)) ∧
    entry (builtTables m).powers 0 = 0x82F63B78#32 ∧
    (∀ i, i < 61 → entry (builtTables m).powers (i + 1)
      = mulMod (entry (builtTables m).powers i) (entry (builtTables m).powers i)) ∧
    (builtTables m).powers.take 8 = [0x82F63B78#32, 0x6EA2D55C#32, 0x18B8EA18#32, 0x510AC59A#32, 0xB82BE955#32,
      0xB8FDB1E7#32, 0x88E56F72#32, 0x74C360A4#32] ∧
    (∀ i, i < 31 → entry (builtTables m).powers (i + 31) = entry (builtTables m).powers i) ∧
    entry (builtTables m).powers 26 = 0x40000000#32

open Polynomial in
/-- 44_multistream.md R252: the reduction constants are what their names say, as polynomials. -/
def Obligations.ReductionConstantContents : Prop :=
  (builtTables false).kconst = [] ∧
  (builtTables true).kconst = [0x00000000A6955F31#64, 0x00000000AA97D41D#64, 0x000000006503EA99#64,
    0x0000000018571D18#64, 0x00000000D7A01665#64, 0x000000003AAB4576#64, 0x000000011F91CAF6#64,
    0x000000011EDC6F41#64] ∧
  (∀ x ∈ [(0, 576), (1, 512), (2, 192), (3, 128), (4, 96), (5, 64)],
    normalOf ((builtTables true).kconst.getD x.1 0#64) = X ^ x.2 %ₘ generator ∧
    rev32 (lowWord ((builtTables true).kconst.getD x.1 0#64)) = xPow x.2) ∧
  normalOf ((builtTables true).kconst.getD 6 0#64) = X ^ 64 /ₘ generator ∧
  normalOf ((builtTables true).kconst.getD 7 0#64) = generator

/-! ## The register block (10_state.md, 30_encoding.md, 60_exceptions.md)

The response `resp` in these statements is the model's (log 12). -/

/-- 30_encoding.md R107, R108, 60_exceptions.md R281, R282: a CMD write, check by check on the bits of the word. The
fields `readFailed` and `bufferTouched` of an accepted command are the model's (logs 7, 9). -/
def Obligations.CmdWriteOutcome : Prop :=
  ∀ (s : State) (w : Word) (rest : List Input), s.inputs = busWrite s.params 0x0C w :: rest →
    let base : State := { s with inputs := rest, resp := .written }
    let rejected (code : ErrorCode) : State := { base with err := true, ecode := code }
    let accepted : State :=
      { base with
        ctx := { word := w, crcA := s.crcA, crcB := s.crcB, len := join s.lenHi s.lenLo,
                 addr := join s.addrHi s.addrLo, sel := s.sel }
        bufferTouched := s.unseen.any fun x =>
          decide ((join s.addrHi s.addrLo).toNat ≤ x.1 ∧
            x.1 < (join s.addrHi s.addrLo).toNat + (join s.lenHi s.lenLo).toNat)
        readFailed := false
        done := false
        seq := .busy }
    let opc := w.toNat % 2 ^ 8
    let idx := w.toNat / 2 ^ 8 % 2 ^ 8
    let tsel := w.toNat / 2 ^ 16 % 2 ^ 4
    step s = .next
      (if s.seq = .build ∨ s.seq = .fatal then rejected .notReady
       else if s.seq = .busy then rejected .busy
       else if 0x0C < opc then rejected .illegalOpcode
       else if opc ≠ 0x0C ∧ w.toNat / 2 ^ 8 ≠ 0 then rejected .illegalField
       else if opc = 0x0C ∧ w.toNat / 2 ^ 20 ≠ 0 then rejected .illegalField
       else if opc = 0x0C ∧
           ¬ ((tsel ≤ 4 ∨ tsel = 6) ∨ ((tsel = 5 ∨ tsel = 7) ∧ idx ≤ 239) ∨ (tsel = 8 ∧ idx ≤ 61) ∨
             (tsel = 9 ∧ idx ≤ 7 ∧ s.params.multistream = true)) then rejected .indexRange
       else if opc = 0x02 ∧ (join s.lenHi s.lenLo).toNat ≠ 0 ∧
           2 ^ s.params.addrWidth < (join s.addrHi s.addrLo).toNat + (join s.lenHi s.lenLo).toNat then rejected .addrRange
       else accepted)

/-- 30_encoding.md R108 and 70_reset_and_hazards.md R325: no host access while a command runs changes what the command
computes, or RESULT and RESULT_HI before it completes. -/
def Obligations.HostAccessKeepsRunningCommand : Prop :=
  ∀ (s : State) (a : HostAccess) (rest : List Input), s.seq = .busy → s.inputs = .host a :: rest →
    ∃ t, step s = .next t ∧ t.seq = .busy ∧ t.ctx = s.ctx ∧ t.result = s.result ∧ t.resultHi = s.resultHi ∧
      t.tables = s.tables ∧ t.mem = s.mem ∧
      ∀ i : Instr, ∃ s' t', exec i s = .next s' ∧ exec i t = .next t' ∧ t'.result = s'.result ∧ t'.resultHi = s'.resultHi

/-- 10_state.md R35: what a read of STATUS returns. The response field is the model's (log 12). -/
def Obligations.StatusRead : Prop :=
  ∀ (s : State) (rest : List Input), s.inputs = busRead s.params 0x04 :: rest →
    ∃ v : Word, step s = .next { s with inputs := rest, resp := .data v } ∧
      v.getLsbD 0 = decide (s.seq = .build ∨ s.seq = .busy) ∧ v.getLsbD 1 = decide (s.seq = .idle ∨ s.seq = .busy) ∧
      v.getLsbD 2 = s.done ∧ v.getLsbD 3 = s.err ∧ v.getLsbD 4 = decide (s.seq = .fatal) ∧
      v.extractLsb' 5 3 = 0#3 ∧ v.extractLsb' 12 20 = 0#20 ∧
      (v.extractLsb' 8 4).toNat = (match s.ecode with
        | .none => 0 | .illegalOpcode => 1 | .illegalField => 2 | .notReady => 3
        | .busy => 4 | .indexRange => 5 | .addrRange => 6 | .busError => 7)

/-- 10_state.md R35 and 60_exceptions.md R289: a write of STATUS clears DONE by bit 2 and ERR with ECODE by bit 3, and
changes nothing else. -/
def Obligations.StatusWrite : Prop :=
  ∀ (s : State) (w : Word) (rest : List Input), s.inputs = busWrite s.params 0x04 w :: rest →
    step s = .next
      { s with
        inputs := rest
        resp := .written
        done := if w.getLsbD 2 then false else s.done
        err := if w.getLsbD 3 then false else s.err
        ecode := if w.getLsbD 3 then .none else s.ecode }

/-- 60_exceptions.md R289 and 10_state.md R35: what clears ERR, what clears DONE, and nothing else does. -/
def Obligations.StickyStatusBits : Prop :=
  ∀ s t : State, step s = .next t →
    (s.err = true → t.err = false → s.inputs.head? = some .reset ∨
      ∃ w, s.inputs.head? = some (busWrite s.params 0x04 w) ∧ w.getLsbD 3 = true ∧ t.ecode = .none) ∧
    (s.done = true → t.done = false → s.inputs.head? = some .reset ∨
      (∃ w, s.inputs.head? = some (busWrite s.params 0x04 w) ∧ w.getLsbD 2 = true) ∨
      (∃ w, s.inputs.head? = some (busWrite s.params 0x0C w) ∧ s.seq = .idle ∧ t.seq = .busy))

/-- 10_state.md R33, R36, R37: a write of CTRL, and what a read of CTRL at its offset returns: the word `readReg .ctrl`
in which the write's clause is said, with every field in its bits and the reserved bits 0. The response is the model's
(log 12). -/
def Obligations.CtrlWrite : Prop :=
  (∀ (s : State) (w : Word) (rest : List Input), s.inputs = busWrite s.params 0x08 w :: rest →
    ∃ t, step s = .next t ∧ t = { s with inputs := rest, resp := .written, irqEn := t.irqEn, sel := t.sel } ∧
      t.irqEn = w.getLsbD 0 ∧
      (if w.extractLsb' 2 2 ≠ 3#2 ∧ (w.extractLsb' 2 2 = 2#2 → s.params.multistream = true) ∧
          w.extractLsb' 4 2 ≠ 0#2 ∧ 2 ≤ (w.extractLsb' 4 2).toNat + (w.extractLsb' 6 2).toNat then
        readReg .ctrl t = w &&& 0x1FD#32
      else readReg .ctrl t = (readReg .ctrl s &&& 0x1FC#32) ||| (w &&& 1#32))) ∧
  (∀ (s : State) (rest : List Input), s.inputs = busRead s.params 0x08 :: rest →
    ∃ v : Word, step s = .next { s with inputs := rest, resp := .data v } ∧ v = readReg .ctrl s ∧
      v.getLsbD 0 = s.irqEn ∧ v.getLsbD 1 = false ∧
      v.extractLsb' 2 2 = (match s.sel.backend with | .generic => 0#2 | .accel => 1#2 | .multi => 2#2) ∧
      v.extractLsb' 4 2 = s.sel.ncrc ∧ v.extractLsb' 6 2 = s.sel.npclmul ∧
      v.getLsbD 8 = decide (s.sel.strategy = .unroll64) ∧ v.extractLsb' 9 23 = 0#23)

/-- 10_state.md R49: the IRQ level is a function of CTRL and STATUS in every state. -/
def Obligations.IrqLevel : Prop :=
  ∀ s : State, s.irq =
    ((readReg .ctrl s).getLsbD 0 && ((readReg .status s).getLsbD 2 || (readReg .status s).getLsbD 3))

/-- 10_state.md R33, R34, R39, R40, R41: a write of an operand register writes that register alone, and the next access
sees it; in every state a read of one returns what it holds. -/
def Obligations.OperandRegisterWrites : Prop :=
  ∀ (s : State) (w : Word) (rest : List Input),
    (s.inputs = busWrite s.params 0x10 w :: rest → step s = .next { s with inputs := rest, resp := .written, crcA := w }) ∧
    (s.inputs = busWrite s.params 0x14 w :: rest → step s = .next { s with inputs := rest, resp := .written, crcB := w }) ∧
    (s.inputs = busWrite s.params 0x18 w :: rest → step s = .next { s with inputs := rest, resp := .written, lenLo := w }) ∧
    (s.inputs = busWrite s.params 0x1C w :: rest → step s = .next { s with inputs := rest, resp := .written, lenHi := w }) ∧
    (s.inputs = busWrite s.params 0x20 w :: rest → step s = .next { s with inputs := rest, resp := .written, addrLo := w }) ∧
    (s.inputs = busWrite s.params 0x24 w :: rest → step s = .next { s with inputs := rest, resp := .written, addrHi := w }) ∧
    s.len.toNat = s.lenHi.toNat * 2 ^ 32 + s.lenLo.toNat ∧ s.addr.toNat = s.addrHi.toNat * 2 ^ 32 + s.addrLo.toNat ∧
    (∀ x ∈ [(0x10, s.crcA), (0x14, s.crcB), (0x18, s.lenLo), (0x1C, s.lenHi), (0x20, s.addrLo), (0x24, s.addrHi)],
      s.inputs = busRead s.params x.1 :: rest → step s = .next { s with inputs := rest, resp := .data x.2 }) ∧
    (∀ offset ∈ [0x10, 0x14, 0x18, 0x1C, 0x20, 0x24],
      s.inputs = busWrite s.params offset w :: busRead s.params offset :: rest →
      ∃ t u, step s = .next t ∧ step t = .next u ∧ u.resp = .data w ∧ u.inputs = rest)

/-- 10_state.md R33, R34, R42, R43, 70_reset_and_hazards.md R325: read-only registers and reserved offsets ignore writes,
CMD and reserved offsets read 0, POLY reads the polynomial in every state, and RESULT and RESULT_HI read what they hold,
each at its own offset, while a command runs too. The response is the model's (log 12). -/
def Obligations.ReadOnlyAndReserved : Prop :=
  ∀ (s : State) (w : Word) (offset : Nat) (rest : List Input), offset < 256 → offset % 4 = 0 →
    (s.inputs = busWrite s.params offset w :: rest → offset = 0x00 ∨ offset = 0x28 ∨ offset = 0x2C ∨ 0x30 ≤ offset →
      step s = .next { s with inputs := rest, resp := .written }) ∧
    (s.inputs = busRead s.params offset :: rest → offset = 0x0C ∨ 0x30 ≤ offset →
      step s = .next { s with inputs := rest, resp := .data 0#32 }) ∧
    (s.inputs = busRead s.params 0x00 :: rest →
      step s = .next { s with inputs := rest, resp := .data 0x82F63B78#32 }) ∧
    (s.inputs = busRead s.params 0x28 :: rest → step s = .next { s with inputs := rest, resp := .data s.result }) ∧
    (s.inputs = busRead s.params 0x2C :: rest → step s = .next { s with inputs := rest, resp := .data s.resultHi })

/-- 10_state.md R34: an access of another size or alignment gets the bus error response and changes no state of the
block. That an address outside the block is answered by another device is log 12. -/
def Obligations.RefusedAccess : Prop :=
  ∀ (s : State) (a : HostAccess) (rest : List Input), s.inputs = .host a :: rest →
    (s.params.engineBase ≤ a.addr → a.addr < s.params.engineBase + 256 → a.bytes ≠ 4 ∨ a.addr % 4 ≠ 0 →
      step s = .next { s with inputs := rest, resp := .busError }) ∧
    (a.addr < s.params.engineBase ∨ s.params.engineBase + 256 ≤ a.addr →
      step s = .next { s with inputs := rest, resp := .notSelected })

/-! ## The commands (41_crc_ops.md, 42_scramble.md, 43_gf2_multiply.md, 40_table_builder.md)

Each gives the whole next state; that it keeps the latched context (log 4) and the command's marks (logs 7, 9) is the
model's. -/

/-- 41_crc_ops.md R160: NOP sets DONE and returns to IDLE, and writes nothing else. -/
def Obligations.NopResult : Prop :=
  ∀ s : State, exec .nop s = .next { s with done := true, seq := .idle }

/-- 41_crc_ops.md R161: EMPTY. -/
def Obligations.EmptyResult : Prop :=
  ∀ s : State, exec .empty s =
    .next { s with result := 0x82F63B78#32, resultHi := 0#32, done := true, seq := .idle }

/-- 41_crc_ops.md R163, 20_memory.md R71: EXTEND on a buffer that was kept and read without error, under every legal
backend. -/
def Obligations.ExtendResult : Prop :=
  ∀ s : State, s.Equipped → s.ctx.addr.toNat + s.ctx.len.toNat ≤ 2 ^ s.params.addrWidth →
    s.readFailed = false → s.bufferTouched = false →
    exec .extend s = .next
      { s with
        result := ext s.ctx.crcA
          ((List.range s.ctx.len.toNat).map fun k => Memory.read s.mem (s.ctx.addr.toNat + k))
        resultHi := 0#32
        done := true
        seq := .idle }

/-- 41_crc_ops.md R163, 20_memory.md R73: EXTEND of no byte gives CRC_A, whatever ADDR holds. -/
def Obligations.ExtendEmptyMessage : Prop :=
  ∀ s : State, s.Equipped → s.ctx.len = 0#64 →
    exec .extend s = .next { s with result := s.ctx.crcA, resultHi := 0#32, done := true, seq := .idle }

/-- 20_memory.md R79: when a byte of the range was written while EXTEND ran, RESULT is the next free value and nothing
else is affected. The form of the free value is the model's (log 7). -/
def Obligations.ExtendTouchedBuffer : Prop :=
  ∀ s : State, s.ctx.len ≠ 0#64 → s.ctx.addr.toNat + s.ctx.len.toNat ≤ 2 ^ s.params.addrWidth →
    s.readFailed = false → s.bufferTouched = true →
    exec .extend s = .next
      { s with
        result := Config.freeWord s.draws
        resultHi := 0#32
        done := true
        seq := .idle
        draws := s.draws + 1 }

/-- 20_memory.md R80, 60_exceptions.md R285: a bus error on a read of the running EXTEND leaves it running and fails it
at its completion, whatever steps come between: each step that leaves it running keeps the mark, the latched command and
the results, and the engine's turn then records BUS_ERROR and writes nothing else. That the error arrives as an input and
is kept as the mark `readFailed` is the model's (log 9). -/
def Obligations.ExtendBusError : Prop :=
  (∀ (s : State) (rest : List Input), s.seq = .busy → decode s.ctx.word = .ok .extend → s.ctx.len ≠ 0#64 →
    s.inputs = .readError :: rest → step s = .next { s with readFailed := true, inputs := rest }) ∧
  (∀ s t : State, s.seq = .busy → step s = .next t → t.seq = .busy →
    t.ctx = s.ctx ∧ t.params = s.params ∧ t.result = s.result ∧ t.resultHi = s.resultHi ∧
    (s.readFailed = true → t.readFailed = true)) ∧
  (∀ s : State, s.ctx.len ≠ 0#64 → s.ctx.addr.toNat + s.ctx.len.toNat ≤ 2 ^ s.params.addrWidth → s.readFailed = true →
    exec .extend s = .next { s with err := true, ecode := .busError, seq := .idle } ∧
    (s.seq = .busy → decode s.ctx.word = .ok .extend → s.engineNext →
      step s = .next { s with inputs := s.inputs.tail, err := true, ecode := .busError, seq := .idle }))

/-- 41_crc_ops.md R165: EXTZ under every backend. -/
def Obligations.ExtzResult : Prop :=
  ∀ s : State, s.tables = builtTables s.params.multistream →
    exec .extz s = .next
      { s with result := extZ s.ctx.crcA s.ctx.len.toNat, resultHi := 0#32, done := true, seq := .idle }

/-- 41_crc_ops.md R166: UNEXTZ under every backend. -/
def Obligations.UnextzResult : Prop :=
  ∀ s : State, s.tables = builtTables s.params.multistream →
    exec .unextz s = .next
      { s with result := unextZ s.ctx.crcA s.ctx.len.toNat, resultHi := 0#32, done := true, seq := .idle }

/-- 41_crc_ops.md R171: CONCAT under every backend. -/
def Obligations.ConcatResult : Prop :=
  ∀ s : State, s.tables = builtTables s.params.multistream →
    exec .concat s = .next
      { s with
        result := extZ (s.ctx.crcA ^^^ 0x82F63B78#32) s.ctx.len.toNat ^^^ s.ctx.crcB
        resultHi := 0#32
        done := true
        seq := .idle }

/-- 41_crc_ops.md R172: COMBINE under every backend. -/
def Obligations.CombineResult : Prop :=
  ∀ s : State, s.tables = builtTables s.params.multistream →
    exec .combine s = .next
      { s with
        result := extZ s.ctx.crcA s.ctx.len.toNat ^^^ s.ctx.crcB
        resultHi := 0#32
        done := true
        seq := .idle }

/-- 42_scramble.md R200, R201: SCRAMBLE and UNSCRAMBLE, the rotation by 17 written with Lean's own rotations. -/
def Obligations.ScrambleResults : Prop :=
  ∀ s : State,
    exec .scramble s = .next
      { s with
        result := (s.ctx.crcA + s.params.scrambleK).rotateRight 17
        resultHi := 0#32
        done := true
        seq := .idle } ∧
    exec .unscramble s = .next
      { s with
        result := s.ctx.crcA.rotateLeft 17 - s.params.scrambleK
        resultHi := 0#32
        done := true
        seq := .idle }

/-- 43_gf2_multiply.md R210: CLMUL writes both halves of the carry-less product. -/
def Obligations.ClmulResult : Prop :=
  ∀ s : State, exec .clmul s = .next
    { s with
      result := (clMul s.ctx.crcA s.ctx.crcB).extractLsb' 0 32
      resultHi := (clMul s.ctx.crcA s.ctx.crcB).extractLsb' 32 32
      done := true
      seq := .idle }

/-- 43_gf2_multiply.md R211, R213: MULMOD, computed by one carry-less multiply and one CRC step, is the product
modulo P. -/
def Obligations.MulmodResult : Prop :=
  ∀ s : State, exec .mulmod s = .next
    { s with result := mulMod s.ctx.crcA s.ctx.crcB, resultHi := 0#32, done := true, seq := .idle }

/-- 43_gf2_multiply.md R215, R216, R217: ZCONST. -/
def Obligations.ZconstResult : Prop :=
  ∀ s : State, s.tables = builtTables s.params.multistream →
    exec .zconst s = .next
      { s with result := xPow (32 * (s.ctx.len.toNat / 4)), resultHi := 0#32, done := true, seq := .idle }

/-- 40_table_builder.md R143: LUTRD of every table, its value in the closed form of the table's rule. -/
def Obligations.LutrdResult : Prop :=
  ∀ (s : State) (tsel : BitVec 4) (idx : BitVec 8), s.tables = builtTables s.params.multistream →
    (Instr.lutrd tsel idx).wellFormed s.params = true →
    ∃ v : DWord,
      exec (.lutrd tsel idx) s = .next
        { s with result := v.extractLsb' 0 32, resultHi := v.extractLsb' 32 32, done := true, seq := .idle } ∧
      (tsel = 0#4 → v = (bitSteps 8 (idx.setWidth 32)).setWidth 64) ∧
      (∀ j, j < 4 → tsel.toNat = j + 1 → v = (extZ (bitSteps 8 (idx.setWidth 32)) (12 + j)).setWidth 64) ∧
      (tsel = 5#4 → v = (xPow (8 * (idx.toNat % 15 + 1) * 16 ^ (idx.toNat / 15))).setWidth 64) ∧
      (tsel = 6#4 → v = (bitStepsQ unextPoly 8 (idx.setWidth 32)).setWidth 64) ∧
      (tsel = 7#4 → v = (bitStepsQ unextPoly (8 * (idx.toNat % 15 + 1) * 16 ^ (idx.toNat / 15)) one).setWidth 64) ∧
      (tsel = 8#4 → v = (xPow (32 * 2 ^ idx.toNat)).setWidth 64) ∧
      (tsel = 9#4 → v = [0x00000000A6955F31#64, 0x00000000AA97D41D#64, 0x000000006503EA99#64, 0x0000000018571D18#64,
        0x00000000D7A01665#64, 0x000000003AAB4576#64, 0x000000011F91CAF6#64, 0x000000011EDC6F41#64].getD idx.toNat 0#64)

/-- 60_exceptions.md R284, R285, 10_state.md R39, R42, R44, 20_memory.md R77: the frame of every command. It changes no
register but RESULT and RESULT_HI, no byte of memory, and no flag but those of its completion; SEQ returns to IDLE. That
the latched context and the marks of the command are kept is the model's (logs 4, 7, 9), and so is the count of the free
values drawn, which EXTEND alone advances (log 7). -/
def Obligations.CommandFrame : Prop :=
  ∀ (i : Instr) (s t : State), exec i s = .next t →
    t.params = s.params ∧ t.irqEn = s.irqEn ∧ t.sel = s.sel ∧ t.crcA = s.crcA ∧ t.crcB = s.crcB ∧ t.lenLo = s.lenLo ∧
    t.lenHi = s.lenHi ∧ t.addrLo = s.addrLo ∧ t.addrHi = s.addrHi ∧ t.ctx = s.ctx ∧ t.tables = s.tables ∧
    t.bufferTouched = s.bufferTouched ∧ t.readFailed = s.readFailed ∧ t.unseen = s.unseen ∧ t.inputs = s.inputs ∧
    t.resp = s.resp ∧ (∀ a, Memory.read t.mem a = Memory.read s.mem a) ∧ t.seq = .idle ∧
    ((t.done = true ∧ t.err = s.err ∧ t.ecode = s.ecode) ∨
      (t.done = s.done ∧ t.err = true ∧ t.ecode ≠ .none ∧ t.result = s.result ∧ t.resultHi = s.resultHi)) ∧
    (i = .nop → t.result = s.result ∧ t.resultHi = s.resultHi) ∧
    ((i ≠ .extend → t.draws = s.draws) ∧ s.draws ≤ t.draws)

/-! ## Whole-machine rules -/

/-- 20_memory.md R77, 10_state.md R39: the engine's own turn writes no byte of memory. What it may change is SEQ, the
STATUS flags, RESULT, RESULT_HI and, in BUILD, the tables; every other field stays, but for the consumed input and the
count of free values (logs 6, 7). That the latched context and the marks of the command are kept is the model's (logs 4,
7, 9), and so is that the turn changes nothing else in IDLE and FATAL (log 19). -/
def Obligations.EngineWritesNoMemory : Prop :=
  ∀ s t : State, s.engineNext → step s = .next t →
    (∀ a, Memory.read t.mem a = Memory.read s.mem a) ∧
    t = { s with
      seq := t.seq, done := t.done, err := t.err, ecode := t.ecode, result := t.result, resultHi := t.resultHi
      tables := t.tables, inputs := s.inputs.tail, draws := t.draws } ∧
    (s.seq ≠ .build → t.tables = s.tables) ∧
    (s.seq = .idle ∨ s.seq = .fatal → t = s.dropInput)

/-- 10_state.md R46: after BUILD no step but reset changes a table, and any two blocks that are READY hold the same
tables: the reduction constants where both have the multi-stream unit or neither has, every other file always. -/
def Obligations.TablesImmutable : Prop :=
  (∀ s t : State, step s = .next t → s.seq ≠ .build → s.inputs.head? ≠ some .reset → t.tables = s.tables) ∧
  (∀ s t : State, s.Inv → t.Inv → s.readyBit = true → t.readyBit = true →
    s.tables.table0 = t.tables.table0 ∧ s.tables.interleaved = t.tables.interleaved ∧
    s.tables.zeroes = t.tables.zeroes ∧ s.tables.reverseTable0 = t.tables.reverseTable0 ∧
    s.tables.reverseZeroes = t.tables.reverseZeroes ∧ s.tables.powers = t.tables.powers ∧
    (s.params.multistream = t.params.multistream → s.tables.kconst = t.tables.kconst))

/-- 44_multistream.md R240: every command gives the same next state under any two legal backends, but for the latched
backend fields themselves. -/
def Obligations.BackendInvariance : Prop :=
  ∀ (i : Instr) (s : State) (b c : Selection), s.tables = builtTables s.params.multistream →
    selectionLegal s.params.multistream b = true → selectionLegal s.params.multistream c = true →
    ∃ t u, exec i { s with ctx := { s.ctx with sel := b } } = .next t ∧
      exec i { s with ctx := { s.ctx with sel := c } } = .next u ∧
      t.result = u.result ∧ t.resultHi = u.resultHi ∧ t = { u with ctx := t.ctx }

open Polynomial in
/-- 00_scope.md R12: the closed form of extension, and its consequences. -/
def Obligations.ExtensionClosedForm : Prop :=
  (∀ (c : Word) (bs : List Byte),
    polyOf (ext c bs) = (polyOf c * X ^ (8 * bs.length) + messagePoly bs * X ^ 32) %ₘ generator) ∧
  (∀ (c d : Word) (bs : List Byte), ext (c ^^^ d) bs = ext c bs ^^^ extZ d bs.length) ∧
  (∀ (c : Word) (n : Nat), ext c (List.replicate n 0#8) = extZ c n) ∧
  (∀ (c : Word) (a b : List Byte), ext c (a ++ b) = ext (ext c a) b)

open Polynomial in
/-- 00_scope.md R10, R11: MulMod, XPow and XPowInv are what they are called, as polynomials over GF(2). -/
def Obligations.MulModIsPolynomialProduct : Prop :=
  (∀ a b : Word, polyOf (mulMod a b) = (polyOf a * polyOf b) %ₘ generator) ∧
  (∀ k : Nat, polyOf (xPow k) = X ^ k %ₘ generator) ∧
  (∀ k : Nat, (polyOf (xPowInv k) * X ^ k) %ₘ generator = 1) ∧
  Function.Injective polyOf

open Polynomial in
/-- 00_scope.md R11, 43_gf2_multiply.md R210: ClMul is the product of the normal-form polynomials, unreduced. -/
def Obligations.ClMulIsPolynomialProduct : Prop :=
  ∀ a b : Word, normalOf (clMul a b) = normalOf a * normalOf b ∧ (clMul a b).getLsbD 63 = false

/-- 41_crc_ops.md R167: the laws of EXTZ and UNEXTZ, for zero counts of any size. -/
def Obligations.ZeroExtensionLaws : Prop :=
  ∀ (c d : Word) (m n : Nat), unextZ (extZ c n) n = c ∧ extZ (unextZ c n) n = c ∧
    extZ (extZ c m) n = extZ c (m + n) ∧ extZ (c ^^^ d) n = extZ c n ^^^ extZ d n ∧
    extZ c n = ext c (List.replicate n 0#8)

/-- 43_gf2_multiply.md R214, the laws of MulMod but for the factors of P. -/
def Obligations.MulModLaws : Prop :=
  (∀ a b : Word, mulMod a b = mulMod b a) ∧
  (∀ a b c : Word, mulMod (mulMod a b) c = mulMod a (mulMod b c)) ∧
  (∀ a b c : Word, mulMod a (b ^^^ c) = mulMod a b ^^^ mulMod a c) ∧
  (∀ a : Word, mulMod a 0x80000000#32 = a) ∧
  (∀ i j : Nat, mulMod (xPow i) (xPow j) = xPow (i + j)) ∧
  (∀ k : Nat, mulMod (xPow k) (xPowInv k) = 0x80000000#32)

/-- 43_gf2_multiply.md R214: the multiplicative order of x modulo P is the prime 2^31 - 1. -/
def Obligations.OrderOfX : Prop :=
  Nat.Prime (2 ^ 31 - 1) ∧ ∀ k : Nat, xPow k = one ↔ (2 ^ 31 - 1) ∣ k

/-- 41_crc_ops.md R173: split invariance, on the commands. -/
def Obligations.SplitInvariance : Prop :=
  ∀ (s : State) (c : Word) (a b : List Byte), s.tables = builtTables s.params.multistream →
    s.ctx.len.toNat = b.length →
    (s.ctx.crcA = ext Config.emptyValue a → s.ctx.crcB = ext Config.emptyValue b →
      ∃ t, exec .concat s = .next t ∧ t.result = ext Config.emptyValue (a ++ b) ∧ t.resultHi = 0#32) ∧
    (s.ctx.crcA = ext c a → s.ctx.crcB = ext 0#32 b →
      ∃ t, exec .combine s = .next t ∧ t.result = ext c (a ++ b) ∧ t.resultHi = 0#32)

/-- 42_scramble.md R202: scrambling is a bijection for every constant. -/
def Obligations.ScrambleBijection : Prop :=
  ∀ k : Word, (∀ x, unscramble k (scramble k x) = x) ∧ (∀ x, scramble k (unscramble k x) = x) ∧
    Function.Bijective (scramble k)

/-- Every step keeps the invariant: canonical data memory inside the data space, a legal CTRL, no FATAL, built tables
when READY, ECODE and ERR in agreement, and a running command that was accepted. -/
def Obligations.StepKeepsInv : Prop :=
  ∀ s t : State, s.Inv → step s = .next t → t.Inv

/-- The reset state, under every choice of the parameters, meets the invariant. -/
def Obligations.ResetMeetsInv : Prop :=
  (∀ p : Params, (State.initial p).Inv) ∧ State.reset.Inv

/-- In a state that meets the invariant a running command has what the datapaths need: it is the premise of the
result statements. -/
def Obligations.RunningIsEquipped : Prop :=
  ∀ s : State, s.Inv → s.seq = .busy → s.Equipped ∧ s.dropInput.Equipped

/-- 30_encoding.md R107, 10_state.md R32: on the engine's turn a running command is the meaning of its word, at the
state without the consumed input (log 6). -/
def Obligations.StepRunsDecodedCommand : Prop :=
  ∀ (s : State) (i : Instr), s.seq = .busy → s.engineNext → decode s.ctx.word = .ok i → step s = exec i s.dropInput

/-- How a table word comes to run (log 1): the step after `withFetchWord` is the meaning of the word, on the operand
registers of the state it was placed in, and no input of that state is consumed. -/
def Obligations.FetchWordRuns : Prop :=
  ∀ (s : State) (nbits w : Nat) (i : Instr), decodeTableWord nbits w = some i →
    step (s.withFetchWord nbits w) = exec i (s.withFetchWord nbits w).dropInput ∧
    (s.withFetchWord nbits w).dropInput.inputs = s.inputs ∧
    (s.withFetchWord nbits w).ctx.crcA = s.crcA ∧ (s.withFetchWord nbits w).ctx.crcB = s.crcB ∧
    (s.withFetchWord nbits w).ctx.len = s.len ∧ (s.withFetchWord nbits w).ctx.addr = s.addr

/-- 60_exceptions.md R287, R288: no state stops the machine but another agent's store outside the data space, which is
the model's one fault (log 17); nothing is refused. -/
def Obligations.StepOutcomes : Prop :=
  ∀ s : State,
    (∃ t, step s = .next t) ∨
    (∃ a b, s.inputs.head? = some (.store a b) ∧ 2 ^ s.params.addrWidth ≤ a ∧ step s = .fault .outsideDataSpace)

/-- 70_reset_and_hazards.md R329, R336, 60_exceptions.md R284, R285: the engine's turn ends a running command, with
exactly one of DONE set and a bus error recorded. -/
def Obligations.RunningCommandCompletes : Prop :=
  ∀ s : State, s.Inv → s.seq = .busy → s.engineNext →
    ∃ t, step s = .next t ∧ t.seq = .idle ∧
      ((t.done = true ∧ t.err = s.err ∧ t.ecode = s.ecode) ∨
        (t.done = false ∧ t.err = true ∧ t.ecode = .busError ∧ decode s.ctx.word = .ok .extend ∧
          t.result = s.result ∧ t.resultHi = s.resultHi))

/-- The mark `bufferTouched` is the model's (log 7, DEDUCED from 20_memory.md R79 and R83(c)): while a command runs, a
store to its range marks the buffer, a store made visible in its range marks it whatever byte it writes, and a mark
stays; a buffer that is not marked holds the bytes it held, which is what R79 asks for an exact RESULT. -/
def Obligations.UnmarkedBufferIsKept : Prop :=
  ∀ s t : State, s.seq = .busy → step s = .next t → t.seq = .busy →
    (t.bufferTouched = false → ∀ a, s.ctx.addr.toNat ≤ a → a < s.ctx.addr.toNat + s.ctx.len.toNat →
      Memory.read t.mem a = Memory.read s.mem a) ∧
    (∀ a b, s.inputs.head? = some (.store a b) → s.ctx.addr.toNat ≤ a → a < s.ctx.addr.toNat + s.ctx.len.toNat →
      t.bufferTouched = true) ∧
    (∀ n a b, s.inputs.head? = some (.publish n) → s.unseen[n]? = some (a, b) → s.ctx.addr.toNat ≤ a →
      a < s.ctx.addr.toNat + s.ctx.len.toNat → t.bufferTouched = true) ∧
    (s.bufferTouched = true → t.bufferTouched = true)

/-- 20_memory.md R70, R83(c): a store by another agent is seen by the engine when it is made visible, and then exactly
at its address; neither changes a register. The order of visibility is free (log 8). -/
def Obligations.DataMemoryInputs : Prop :=
  ∀ (s : State) (a : Nat) (b : Byte) (rest : List Input), Memory.wf s.mem = true →
    (s.inputs = .store a b :: rest → a < 2 ^ s.params.addrWidth →
      ∃ t, step s = .next t ∧ t = { s with inputs := rest, unseen := s.unseen ++ [(a, b)], bufferTouched := t.bufferTouched }) ∧
    (∀ n, s.inputs = .publish n :: rest → s.unseen[n]? = some (a, b) →
      ∃ t, step s = .next t ∧ Memory.read t.mem a = b ∧ (∀ c, c ≠ a → Memory.read t.mem c = Memory.read s.mem c) ∧
        t = { s with inputs := rest, unseen := s.unseen.eraseIdx n, mem := t.mem, bufferTouched := t.bufferTouched })
end

