-- ==== Sys2Proof/Laws/Memory.lean ====
section
/-!
SUPPORT. Data memory: a read after a write, and the canonical form kept by every operation (20_memory.md R70, R79).
-/

namespace Sys2Proof.Laws
open Sys2Proof.Machine

/-! ## The canonical form -/

/-- `lo` is below `k`, where there is a `lo`. -/
def Below (lo : Option Nat) (k : Nat) : Prop := ∀ l, lo = some l → l < k

theorem wfAbove_cons (lo : Option Nat) (k : Nat) (v : Byte) (rest : Memory) :
    Memory.wfAbove lo ((k, v) :: rest) = true ↔ Below lo k ∧ v ≠ unlistedByte ∧ Memory.wfAbove (some k) rest = true := by
  cases lo <;> simp [Memory.wfAbove, Below, and_assoc]

theorem wfAbove_weaken {lo : Option Nat} {k : Nat} {m : Memory} (h : Memory.wfAbove (some k) m = true)
    (hlo : Below lo k) : Memory.wfAbove lo m = true := by
  match m with
  | [] => rfl
  | (a, v) :: rest =>
    rw [wfAbove_cons] at h ⊢
    refine ⟨fun l hl => ?_, h.2⟩
    exact lt_trans (hlo l hl) (h.1 k rfl)

/-- Below every address of a canonical memory reads as unlisted. -/
theorem read_below {m : Memory} {lo : Option Nat} {a : Nat} (h : Memory.wfAbove lo m = true)
    (ha : ∀ l, lo = some l → a ≤ l) (hlo : lo.isSome = true) : Memory.read m a = unlistedByte := by
  induction m generalizing lo with
  | nil => rfl
  | cons x rest ih =>
    obtain ⟨k, v⟩ := x
    rw [wfAbove_cons] at h
    obtain ⟨l, rfl⟩ := Option.isSome_iff_exists.1 hlo
    have hk : a < k := lt_of_le_of_lt (ha l rfl) (h.1 l rfl)
    rw [Memory.read, if_neg (by omega)]
    exact ih h.2.2 (by rintro l' ⟨⟩; omega) rfl

theorem erase_wfAbove (m : Memory) (a : Nat) (lo : Option Nat) (h : Memory.wfAbove lo m = true) :
    Memory.wfAbove lo (Memory.erase m a) = true := by
  induction m generalizing lo with
  | nil => rfl
  | cons x rest ih =>
    obtain ⟨k, v⟩ := x
    rw [wfAbove_cons] at h
    rw [Memory.erase]
    split
    · exact wfAbove_weaken h.2.2 h.1
    · rw [wfAbove_cons]; exact ⟨h.1, h.2.1, ih _ h.2.2⟩

theorem insert_wfAbove (m : Memory) (a : Nat) (b : Byte) (hb : b ≠ unlistedByte) (lo : Option Nat) (hlo : Below lo a)
    (h : Memory.wfAbove lo m = true) : Memory.wfAbove lo (Memory.insert m a b) = true := by
  induction m generalizing lo with
  | nil => rw [Memory.insert, wfAbove_cons]; exact ⟨hlo, hb, rfl⟩
  | cons x rest ih =>
    obtain ⟨k, v⟩ := x
    rw [wfAbove_cons] at h
    rw [Memory.insert]
    split
    · rename_i hak
      rw [wfAbove_cons, wfAbove_cons]
      exact ⟨hlo, hb, by rintro l ⟨⟩; exact hak, h.2⟩
    · split
      · rename_i hak; subst hak
        rw [wfAbove_cons]; exact ⟨hlo, hb, h.2.2⟩
      · rw [wfAbove_cons]
        exact ⟨h.1, h.2.1, ih _ (by rintro l ⟨⟩; omega) h.2.2⟩

/-- A write keeps the canonical form. -/
theorem write_wf (m : Memory) (a : Nat) (b : Byte) (h : Memory.wf m = true) : Memory.wf (Memory.write m a b) = true := by
  rw [Memory.write]
  split
  · exact erase_wfAbove m a none h
  · rename_i hb
    exact insert_wfAbove m a b hb none (by rintro l ⟨⟩) h

/-! ## Reads after writes -/

theorem read_erase_other (m : Memory) (a c : Nat) (hc : c ≠ a) : Memory.read (Memory.erase m a) c = Memory.read m c := by
  induction m with
  | nil => rfl
  | cons x rest ih =>
    obtain ⟨k, v⟩ := x
    rw [Memory.erase]
    split
    · rename_i hk; rw [Memory.read, if_neg (by omega)]
    · rw [Memory.read, Memory.read, ih]

theorem read_insert_other (m : Memory) (a c : Nat) (b : Byte) (hc : c ≠ a) :
    Memory.read (Memory.insert m a b) c = Memory.read m c := by
  induction m with
  | nil => simp [Memory.insert, Memory.read, Ne.symm hc]
  | cons x rest ih =>
    obtain ⟨k, v⟩ := x
    rw [Memory.insert]
    split
    · rw [Memory.read, if_neg (Ne.symm hc)]
    · split
      · rename_i hk; subst hk
        rw [Memory.read, Memory.read, if_neg (Ne.symm hc), if_neg (Ne.symm hc)]
      · rw [Memory.read, Memory.read, ih]

theorem read_insert_same (m : Memory) (a : Nat) (b : Byte) : Memory.read (Memory.insert m a b) a = b := by
  induction m with
  | nil => simp [Memory.insert, Memory.read]
  | cons x rest ih =>
    obtain ⟨k, v⟩ := x
    rw [Memory.insert]
    split
    · simp [Memory.read]
    · split
      · simp [Memory.read]
      · rw [Memory.read, if_neg (by omega), ih]

theorem read_erase_same (m : Memory) (a : Nat) (lo : Option Nat) (h : Memory.wfAbove lo m = true) :
    Memory.read (Memory.erase m a) a = unlistedByte := by
  induction m generalizing lo with
  | nil => rfl
  | cons x rest ih =>
    obtain ⟨k, v⟩ := x
    rw [wfAbove_cons] at h
    rw [Memory.erase]
    split
    · rename_i hk
      exact read_below (lo := some k) h.2.2 (by rintro l ⟨⟩; omega) rfl
    · rename_i hk
      rw [Memory.read, if_neg hk]
      exact ih _ h.2.2

/-- A read of the address written gives the byte written. -/
theorem read_write_same (m : Memory) (a : Nat) (b : Byte) (h : Memory.wf m = true) :
    Memory.read (Memory.write m a b) a = b := by
  rw [Memory.write]
  split
  · rename_i hb; rw [read_erase_same m a none h, hb]
  · exact read_insert_same m a b

/-- A write leaves every other address alone. -/
theorem read_write_other (m : Memory) (a c : Nat) (b : Byte) (hc : c ≠ a) :
    Memory.read (Memory.write m a b) c = Memory.read m c := by
  rw [Memory.write]
  split
  · exact read_erase_other m a c hc
  · exact read_insert_other m a c b hc

/-! ## The listed addresses -/

theorem mem_erase {m : Memory} {a : Nat} {x : Host.Cell} (h : x ∈ Memory.erase m a) : x ∈ m := by
  induction m with
  | nil => exact h
  | cons y rest ih =>
    obtain ⟨k, v⟩ := y
    rw [Memory.erase] at h
    split at h
    · exact List.mem_cons_of_mem _ h
    · rcases List.mem_cons.1 h with rfl | h
      · exact List.mem_cons_self
      · exact List.mem_cons_of_mem _ (ih h)

theorem mem_insert {m : Memory} {a : Nat} {b : Byte} {x : Host.Cell} (h : x ∈ Memory.insert m a b) :
    x = (a, b) ∨ x ∈ m := by
  induction m with
  | nil => exact .inl (List.mem_singleton.1 h)
  | cons y rest ih =>
    obtain ⟨k, v⟩ := y
    rw [Memory.insert] at h
    split at h
    · exact List.mem_cons.1 h
    · split at h
      · rcases List.mem_cons.1 h with h | h
        · exact .inl h
        · exact .inr (List.mem_cons_of_mem _ h)
      · rcases List.mem_cons.1 h with rfl | h
        · exact .inr List.mem_cons_self
        · exact (ih h).imp id (List.mem_cons_of_mem _)

/-- What a write lists is what was listed and the address written. -/
theorem mem_write {m : Memory} {a : Nat} {b : Byte} {x : Host.Cell} (h : x ∈ Memory.write m a b) :
    x.1 = a ∨ x ∈ m := by
  rw [Memory.write] at h
  split at h
  · exact .inr (mem_erase h)
  · exact (mem_insert h).imp (fun e => by rw [e]) id

/-! ## Byte strings -/

@[simp] theorem readBytes_length (m : Memory) (a n : Nat) : (Memory.readBytes m a n).length = n := by
  induction n generalizing a with
  | zero => rfl
  | succ n ih => rw [Memory.readBytes, List.length_cons, ih]

/-- The message EXTEND consumes, byte by byte (20_memory.md R71). -/
theorem readBytes_eq_map (m : Memory) (a n : Nat) :
    Memory.readBytes m a n = (List.range n).map (fun k => Memory.read m (a + k)) := by
  induction n generalizing a with
  | zero => rfl
  | succ n ih =>
    rw [Memory.readBytes, ih, List.range_succ_eq_map, List.map_cons, List.map_map]
    congr 1
    refine List.map_congr_left fun k _ => ?_
    simp only [Function.comp_apply, Nat.succ_eq_add_one]
    congr 1
    omega

/-- Memories that agree on a range give the same byte string. -/
theorem readBytes_congr (m m' : Memory) (a n : Nat) (h : ∀ k, k < n → Memory.read m (a + k) = Memory.read m' (a + k)) :
    Memory.readBytes m a n = Memory.readBytes m' a n := by
  rw [readBytes_eq_map, readBytes_eq_map]
  exact List.map_congr_left fun k hk => h k (List.mem_range.1 hk)

end Sys2Proof.Laws
end

