-- ==== Sys2Proof/Laws/Linear.lean ====
section
/-!
SUPPORT. Bit vectors as GF(2) vectors: a property or a map that respects XOR is settled on single bits.
-/

namespace Sys2Proof.Laws

/-- The low `n + 1` bits of `v` are its low `n` bits XOR bit `n`. -/
theorem lowBits_succ {w : Nat} (v : BitVec w) (n : Nat) :
    (v.setWidth (n + 1)).setWidth w = (v.setWidth n).setWidth w ^^^ (if v.getLsbD n then 1#w <<< n else 0#w) := by
  ext i hi
  simp only [BitVec.getElem_setWidth, BitVec.getLsbD_setWidth, BitVec.getElem_xor]
  by_cases h : v.getLsbD n
  · simp only [h, ↓reduceIte, BitVec.getElem_shiftLeft, BitVec.getElem_one]
    rcases Nat.lt_trichotomy i n with h1 | h1 | h1
    · simp [h1, Nat.lt_succ_of_lt h1]
    · subst h1; simp [h]
    · have h2 : ¬ i < n := by omega
      have h3 : ¬ i < n + 1 := by omega
      have h4 : i - n ≠ 0 := by omega
      simp [h2, h3, h4]
  · simp only [h, Bool.false_eq_true, ↓reduceIte, BitVec.getElem_zero, Bool.xor_false]
    rcases Nat.lt_trichotomy i n with h1 | h1 | h1
    · simp [h1, Nat.lt_succ_of_lt h1]
    · subst h1; simp [h]
    · have h2 : ¬ i < n := by omega
      have h3 : ¬ i < n + 1 := by omega
      simp [h2, h3]

/-- A property that holds of 0 and of every single bit and passes to XORs holds of every bit vector. -/
theorem bitvec_xor_induction {w : Nat} {p : BitVec w → Prop} (zero : p 0#w)
    (xor : ∀ a b, p a → p b → p (a ^^^ b)) (bit : ∀ i, i < w → p (1#w <<< i)) (v : BitVec w) : p v := by
  have h : ∀ n, n ≤ w → p ((v.setWidth n).setWidth w) := by
    intro n
    induction n with
    | zero =>
      intro _
      have : (v.setWidth 0).setWidth w = 0#w := by ext i hi; simp
      rw [this]; exact zero
    | succ n ih =>
      intro hn
      rw [lowBits_succ]
      refine xor _ _ (ih (by omega)) ?_
      split
      · exact bit n (by omega)
      · exact zero
  simpa using h w le_rfl

/-- A map between bit vectors that respects XOR. -/
abbrev XorLinear {w u : Nat} (f : BitVec w → BitVec u) : Prop := ∀ a b, f (a ^^^ b) = f a ^^^ f b

theorem XorLinear.map_zero {w u : Nat} {f : BitVec w → BitVec u} (hf : XorLinear f) : f 0#w = 0#u := by
  simpa using hf 0#w 0#w

/-- Two linear maps that agree on single bits are equal. -/
theorem XorLinear.ext_bits {w u : Nat} {f g : BitVec w → BitVec u} (hf : XorLinear f) (hg : XorLinear g)
    (bit : ∀ i, i < w → f (1#w <<< i) = g (1#w <<< i)) (v : BitVec w) : f v = g v := by
  refine bitvec_xor_induction (p := fun v => f v = g v) ?_ ?_ bit v
  · rw [hf.map_zero, hg.map_zero]
  · intro a b ha hb; rw [hf, hg, ha, hb]

/-- Two bilinear maps that agree on pairs of single bits are equal. -/
theorem bilinear_ext_bits {w u x : Nat} {f g : BitVec w → BitVec u → BitVec x}
    (hfl : ∀ c, XorLinear (fun a => f a c)) (hfr : ∀ a, XorLinear (f a))
    (hgl : ∀ c, XorLinear (fun a => g a c)) (hgr : ∀ a, XorLinear (g a))
    (bit : ∀ i, i < w → ∀ j, j < u → f (1#w <<< i) (1#u <<< j) = g (1#w <<< i) (1#u <<< j)) (a : BitVec w)
    (b : BitVec u) : f a b = g a b :=
  XorLinear.ext_bits (hfl b) (hgl b) (fun i hi => XorLinear.ext_bits (hfr _) (hgr _) (bit i hi) b) a

theorem XorLinear.comp {w u x : Nat} {f : BitVec u → BitVec x} {g : BitVec w → BitVec u} (hf : XorLinear f)
    (hg : XorLinear g) : XorLinear (fun v => f (g v)) := fun a b => by
  show f (g (a ^^^ b)) = f (g a) ^^^ f (g b)
  rw [hg, hf]

theorem xor_swap {w : Nat} (a b c d : BitVec w) : (a ^^^ b) ^^^ (c ^^^ d) = (a ^^^ c) ^^^ (b ^^^ d) := by ac_rfl

theorem XorLinear.xor {w u : Nat} {f g : BitVec w → BitVec u} (hf : XorLinear f) (hg : XorLinear g) :
    XorLinear (fun v => f v ^^^ g v) := fun a b => by
  show f (a ^^^ b) ^^^ g (a ^^^ b) = (f a ^^^ g a) ^^^ (f b ^^^ g b)
  rw [hf, hg, xor_swap]

theorem xorLinear_id {w : Nat} : XorLinear (fun v : BitVec w => v) := fun _ _ => rfl

theorem xorLinear_setWidth {w u : Nat} : XorLinear (fun v : BitVec w => v.setWidth u) :=
  fun _ _ => BitVec.setWidth_xor

theorem xorLinear_ushiftRight {w : Nat} (n : Nat) : XorLinear (fun v : BitVec w => v >>> n) :=
  fun a b => BitVec.ushiftRight_xor_distrib a b n

theorem xorLinear_shiftLeft {w : Nat} (n : Nat) : XorLinear (fun v : BitVec w => v <<< n) :=
  fun a b => BitVec.shiftLeft_xor_distrib a b n

theorem xorLinear_extract {w : Nat} (s l : Nat) : XorLinear (fun v : BitVec w => v.extractLsb' s l) := fun a b => by
  ext i hi; simp

theorem xorLinear_reverse {w : Nat} : XorLinear (fun v : BitVec w => v.reverse) := fun a b => by
  apply BitVec.eq_of_getLsbD_eq
  intro i hi
  simp [BitVec.getLsbD_reverse, BitVec.getMsbD_xor]

theorem ite_xor {w : Nat} (a b : Bool) (q : BitVec w) :
    (if (a ^^ b) then q else 0#w) = (if a then q else 0#w) ^^^ (if b then q else 0#w) := by
  cases a <;> cases b <;> simp

/-- Bit `n` of a value selects `q` or 0. -/
theorem xorLinear_select {w u : Nat} (n : Nat) (q : BitVec u) :
    XorLinear (fun v : BitVec w => if v.getLsbD n then q else 0#u) := fun a b => by
  show (if (a ^^^ b).getLsbD n then q else 0#u) = _
  rw [BitVec.getLsbD_xor, ite_xor]

end Sys2Proof.Laws
end

