-- ==== Sys2Proof/Laws/Gf2.lean ====
section
/-!
SUPPORT. The arithmetic modulo P: every multiplication of the block is one and the same, and zero extension is a power
of the bit step (00_scope.md R9-R12, 43_gf2_multiply.md R213, R214, 41_crc_ops.md R167).
-/

namespace Sys2Proof.Laws
open Sys2Proof.Machine

/-! ## The bit step -/

theorem xorLinear_bitStepQ (q : Word) : XorLinear (bitStepQ q) :=
  (xorLinear_ushiftRight 1).xor (xorLinear_select 0 q)

theorem xorLinear_bitStepsQ (q : Word) (n : Nat) : XorLinear (bitStepsQ q n) := by
  induction n with
  | zero => exact xorLinear_id
  | succ n ih => exact (xorLinear_bitStepQ q).comp ih

theorem bitSteps_eq (n : Nat) (c : Word) : bitSteps n c = bitStepsQ Config.poly n c := by
  induction n with
  | zero => rfl
  | succ n ih => simp only [bitSteps, bitStepsQ, ih, bitStep]

theorem xorLinear_bitSteps (n : Nat) : XorLinear (bitSteps n) := fun a b => by
  simp only [bitSteps_eq]; exact xorLinear_bitStepsQ _ n a b

theorem bitStepsQ_add (q : Word) (m n : Nat) (c : Word) :
    bitStepsQ q (m + n) c = bitStepsQ q m (bitStepsQ q n c) := by
  induction m with
  | zero => simp [bitStepsQ]
  | succ m ih => rw [Nat.succ_add]; simp only [bitStepsQ, ih]

theorem bitSteps_add (m n : Nat) (c : Word) : bitSteps (m + n) c = bitSteps m (bitSteps n c) := by
  simp only [bitSteps_eq, bitStepsQ_add]

theorem bitSteps_mul_succ (n : Nat) (c : Word) : bitSteps (8 * n) (bitSteps 8 c) = bitSteps (8 * (n + 1)) c := by
  rw [← bitSteps_add, Nat.mul_succ]

theorem bitStepsQ_succ' (q : Word) (n : Nat) (c : Word) : bitStepsQ q (n + 1) c = bitStepsQ q n (bitStepQ q c) :=
  bitStepsQ_add q n 1 c

/-- A bit of a word is a power of x: bit i is rep(x^(31-i)) whatever the modulus, as no reduction occurs. -/
theorem bit_eq_bitStepsQ_one (q : Word) : ∀ i, i < 32 → (1#32 <<< i) = bitStepsQ q (31 - i) one := by
  have h : ∀ n, n ≤ 31 → bitStepsQ q n one = 1#32 <<< (31 - n) := by
    intro n
    induction n with
    | zero => intro _; rfl
    | succ n ih =>
      intro hn
      rw [bitStepsQ, ih (by omega)]
      have e : 31 - n = (31 - (n + 1)) + 1 := by omega
      have hb : (1#32 <<< (31 - n)).getLsbD 0 = false := by
        simp; omega
      unfold bitStepQ
      rw [hb, e]
      simp only [Bool.false_eq_true, ↓reduceIte, BitVec.xor_zero]
      have : ∀ k, k < 31 → (1#32 <<< (k + 1)) >>> 1 = 1#32 <<< k := by decide
      exact this _ (by omega)
  intro i hi
  rw [h (31 - i) (by omega)]
  congr 1
  omega

/-! ## PolyMultiply -/

theorem polyMulRounds_xor_right (q a b c : Word) (n : Nat) :
    polyMulRounds q a (b ^^^ c) n = polyMulRounds q a b n ^^^ polyMulRounds q a c n := by
  induction n with
  | zero => simp [polyMulRounds]
  | succ n ih =>
    simp only [polyMulRounds, ih, xorLinear_bitStepQ q _ _]
    split
    · exact xor_swap _ _ _ _
    · simp

theorem polyMulRounds_xor_left (q a b c : Word) (n : Nat) :
    polyMulRounds q (a ^^^ b) c n = polyMulRounds q a c n ^^^ polyMulRounds q b c n := by
  induction n with
  | zero => simp [polyMulRounds]
  | succ n ih =>
    simp only [polyMulRounds, ih, xorLinear_bitStepQ q _ _, BitVec.getLsbD_xor, ite_xor]
    exact xor_swap _ _ _ _

theorem polyMulRounds_bit (q b : Word) (i : Nat) (hi : i < 32) :
    ∀ n, polyMulRounds q (1#32 <<< i) b n = if i < n then bitStepsQ q (n - 1 - i) b else 0#32 := by
  intro n
  induction n with
  | zero => rfl
  | succ n ih =>
    rw [polyMulRounds, ih]
    have hb : (1#32 <<< i).getLsbD n = decide (n = i) := by
      simp only [BitVec.getLsbD_shiftLeft, BitVec.getLsbD_one]
      by_cases h : n = i
      · subst h; simp [hi]
      · simp [h]; omega
    rw [hb]
    rcases Nat.lt_trichotomy i n with h | h | h
    · have h1 : ¬ n = i := by omega
      have h2 : i < n + 1 := by omega
      have h3 : n - i = (n - 1 - i) + 1 := by omega
      simp [h, h1, h2, h3, bitStepsQ]
    · subst h
      simp [bitStepQ, bitStepsQ]
    · have h1 : ¬ n = i := by omega
      have h2 : ¬ i < n := by omega
      have h3 : ¬ i < n + 1 := by omega
      simp [h1, h2, h3, bitStepQ]

/-- Multiplication by x^(31-i) is 31 - i bit steps (40_table_builder.md R134). -/
theorem polyMultiply_bit (q b : Word) (i : Nat) (hi : i < 32) :
    polyMultiply (1#32 <<< i) b q = bitStepsQ q (31 - i) b := by
  unfold polyMultiply
  rw [polyMulRounds_bit q b i hi, if_pos hi]

theorem xorLinear_polyMultiply_left (q c : Word) : XorLinear (fun a => polyMultiply a c q) :=
  fun a b => polyMulRounds_xor_left q a b c 32

theorem xorLinear_polyMultiply_right (q a : Word) : XorLinear (fun b => polyMultiply a b q) :=
  fun b c => polyMulRounds_xor_right q a b c 32

theorem polyMultiply_comm (q a b : Word) : polyMultiply a b q = polyMultiply b a q := by
  refine bilinear_ext_bits (f := fun a b => polyMultiply a b q) (g := fun a b => polyMultiply b a q)
    (xorLinear_polyMultiply_left q) (xorLinear_polyMultiply_right q) (xorLinear_polyMultiply_right q)
    (xorLinear_polyMultiply_left q) ?_ a b
  intro i hi j hj
  show polyMultiply (1#32 <<< i) (1#32 <<< j) q = polyMultiply (1#32 <<< j) (1#32 <<< i) q
  rw [polyMultiply_bit q _ i hi, polyMultiply_bit q _ j hj, bit_eq_bitStepsQ_one q i hi, bit_eq_bitStepsQ_one q j hj,
    ← bitStepsQ_add, ← bitStepsQ_add, Nat.add_comm]

theorem polyMultiply_one_left (q b : Word) : polyMultiply one b q = b := by
  have := polyMultiply_bit q b 31 (by decide)
  simpa [one, bitStepsQ] using this

theorem polyMultiply_bitStepQ_right (q a b : Word) :
    polyMultiply a (bitStepQ q b) q = bitStepQ q (polyMultiply a b q) := by
  refine XorLinear.ext_bits (f := fun a => polyMultiply a (bitStepQ q b) q)
    (g := fun a => bitStepQ q (polyMultiply a b q)) (xorLinear_polyMultiply_left q _)
    ((xorLinear_bitStepQ q).comp (xorLinear_polyMultiply_left q b)) ?_ a
  intro i hi
  show polyMultiply (1#32 <<< i) (bitStepQ q b) q = bitStepQ q (polyMultiply (1#32 <<< i) b q)
  rw [polyMultiply_bit q _ i hi, polyMultiply_bit q _ i hi, ← bitStepsQ_succ', bitStepsQ]

theorem polyMultiply_bitStepsQ_right (q a b : Word) (n : Nat) :
    polyMultiply a (bitStepsQ q n b) q = bitStepsQ q n (polyMultiply a b q) := by
  induction n with
  | zero => rfl
  | succ n ih => rw [bitStepsQ, polyMultiply_bitStepQ_right, ih, bitStepsQ]

theorem polyMultiply_bitStepsQ_left (q a b : Word) (n : Nat) :
    polyMultiply (bitStepsQ q n a) b q = bitStepsQ q n (polyMultiply a b q) := by
  rw [polyMultiply_comm, polyMultiply_bitStepsQ_right, polyMultiply_comm]

/-- Multiplication by a power of x is that many bit steps. -/
theorem polyMultiply_power_left (q b : Word) (n : Nat) : polyMultiply (bitStepsQ q n one) b q = bitStepsQ q n b := by
  rw [polyMultiply_bitStepsQ_left, polyMultiply_one_left]

theorem polyMultiply_power_right (q a : Word) (n : Nat) : polyMultiply a (bitStepsQ q n one) q = bitStepsQ q n a := by
  rw [polyMultiply_comm, polyMultiply_power_left]

theorem polyMultiply_assoc (q a b c : Word) :
    polyMultiply (polyMultiply a b q) c q = polyMultiply a (polyMultiply b c q) q := by
  refine XorLinear.ext_bits (f := fun a => polyMultiply (polyMultiply a b q) c q)
    (g := fun a => polyMultiply a (polyMultiply b c q) q)
    (XorLinear.comp (xorLinear_polyMultiply_left q c) (xorLinear_polyMultiply_left q b))
    (xorLinear_polyMultiply_left q _) ?_ a
  intro i hi
  show polyMultiply (polyMultiply (1#32 <<< i) b q) c q = polyMultiply (1#32 <<< i) (polyMultiply b c q) q
  rw [polyMultiply_bit q _ i hi, polyMultiply_bit q _ i hi, polyMultiply_bitStepsQ_left]

/-! ## ClMul, MulMod and the multiply-reduce unit -/

theorem clMulBits_xor_left {w : Nat} (a b c : BitVec w) (n : Nat) :
    clMulBits (a ^^^ b) c n = clMulBits a c n ^^^ clMulBits b c n := by
  induction n with
  | zero => simp [clMulBits]
  | succ n ih =>
    simp only [clMulBits, ih, BitVec.shiftLeft_xor_distrib]
    split
    · exact xor_swap _ _ _ _
    · simp

theorem clMulBits_xor_right {w : Nat} (a b c : BitVec w) (n : Nat) :
    clMulBits a (b ^^^ c) n = clMulBits a b n ^^^ clMulBits a c n := by
  induction n with
  | zero => simp [clMulBits]
  | succ n ih =>
    simp only [clMulBits, ih, BitVec.getLsbD_xor, ite_xor]
    exact xor_swap _ _ _ _

theorem clMulBits_bit {w : Nat} (a : BitVec w) (j : Nat) (hj : j < w) :
    ∀ n, clMulBits a (1#w <<< j) n = if j < n then a <<< j else 0#w := by
  intro n
  induction n with
  | zero => rfl
  | succ n ih =>
    rw [clMulBits, ih]
    have hb : (1#w <<< j).getLsbD n = decide (n = j) := by
      simp only [BitVec.getLsbD_shiftLeft, BitVec.getLsbD_one]
      by_cases h : n = j
      · subst h; simp [hj]; omega
      · simp [h]; omega
    rw [hb]
    rcases Nat.lt_trichotomy j n with h | h | h
    · have h1 : ¬ n = j := by omega
      have h2 : j < n + 1 := by omega
      simp [h, h1, h2]
    · subst h; simp
    · have h1 : ¬ n = j := by omega
      have h2 : ¬ j < n := by omega
      have h3 : ¬ j < n + 1 := by omega
      simp [h1, h2, h3]

theorem bit_setWidth {w u : Nat} (i : Nat) (hi : i < w) (hu : w ≤ u) : (1#w <<< i).setWidth u = 1#u <<< i := by
  apply BitVec.eq_of_toNat_eq
  have h1 : 2 ^ i < 2 ^ w := Nat.pow_lt_pow_right (by omega) hi
  have h2 : 2 ^ w ≤ 2 ^ u := Nat.pow_le_pow_right (by omega) hu
  have h3 : 1 < 2 ^ w := Nat.one_lt_two_pow (by omega)
  have h4 : 1 < 2 ^ u := Nat.one_lt_two_pow (by omega)
  simp [Nat.shiftLeft_eq, Nat.mod_eq_of_lt h3, Nat.mod_eq_of_lt h4, Nat.mod_eq_of_lt h1]

theorem bit_shiftLeft {w : Nat} (i j : Nat) : (1#w <<< i) <<< j = 1#w <<< (i + j) := by
  rw [BitVec.shiftLeft_add]

theorem clMul_bits (i j : Nat) (hi : i < 32) (hj : j < 32) : clMul (1#32 <<< i) (1#32 <<< j) = 1#64 <<< (i + j) := by
  unfold clMul
  rw [bit_setWidth i hi (by decide), bit_setWidth j hj (by decide), clMulBits_bit _ j (by omega), if_pos hj,
    bit_shiftLeft]

theorem clMul_xor_left (a b c : Word) : clMul (a ^^^ b) c = clMul a c ^^^ clMul b c := by
  simp only [clMul]; rw [BitVec.setWidth_xor, clMulBits_xor_left]

theorem clMul_xor_right (a b c : Word) : clMul a (b ^^^ c) = clMul a b ^^^ clMul a c := by
  simp only [clMul]; rw [BitVec.setWidth_xor, clMulBits_xor_right]

theorem xorLinear_reduceP (n : Nat) : XorLinear (reduceP n) := by
  induction n with
  | zero => exact xorLinear_id
  | succ n ih =>
    intro a b
    simp only [reduceP]
    rw [← ih]
    congr 1
    rw [BitVec.getLsbD_xor]
    cases a.getLsbD (32 + n) <;> cases b.getLsbD (32 + n) <;> simp <;> first | ac_rfl | skip
    rw [show ∀ x y z : DWord, x ^^^ z ^^^ (y ^^^ z) = x ^^^ y ^^^ (z ^^^ z) from fun x y z => by ac_rfl]
    simp

theorem xorLinear_modP : XorLinear modP := xorLinear_setWidth.comp (xorLinear_reduceP 32)

theorem xorLinear_rev32 : XorLinear rev32 := xorLinear_reverse

theorem xorLinear_mulMod_left (b : Word) : XorLinear (fun a => mulMod a b) := fun a a' => by
  simp only [mulMod]
  rw [xorLinear_rev32, clMul_xor_left, xorLinear_modP, xorLinear_rev32]

theorem xorLinear_mulMod_right (a : Word) : XorLinear (mulMod a) := fun b b' => by
  simp only [mulMod]
  rw [xorLinear_rev32, clMul_xor_right, xorLinear_modP, xorLinear_rev32]

set_option maxRecDepth 10000 in
theorem rev32_bit : ∀ i, i < 32 → rev32 (1#32 <<< i) = 1#32 <<< (31 - i) := by decide

set_option maxRecDepth 10000 in
/-- rep(x^k mod P) by long division and by bit steps agree for every degree a product can have. -/
theorem modP_bit : ∀ k, k < 64 → rev32 (modP (1#64 <<< k)) = bitStepsQ Config.poly k one := by decide

/-- `MulMod` (00_scope.md R11) is the builders' multiply for POLY (40_table_builder.md R134). -/
theorem mulMod_eq_polyMultiply (a b : Word) : mulMod a b = polyMultiply a b Config.poly := by
  refine bilinear_ext_bits (f := mulMod) (g := fun a b => polyMultiply a b Config.poly)
    xorLinear_mulMod_left xorLinear_mulMod_right (xorLinear_polyMultiply_left _) (xorLinear_polyMultiply_right _) ?_ a b
  intro i hi j hj
  show mulMod (1#32 <<< i) (1#32 <<< j) = polyMultiply (1#32 <<< i) (1#32 <<< j) Config.poly
  rw [mulMod, rev32_bit i hi, rev32_bit j hj, clMul_bits _ _ (by omega) (by omega), modP_bit _ (by omega),
    polyMultiply_bit _ _ i hi, bit_eq_bitStepsQ_one Config.poly j hj, ← bitStepsQ_add]

/-! ## Byte steps and extension -/

theorem xor_right_comm (a b c : Word) : a ^^^ b ^^^ c = a ^^^ c ^^^ b := by ac_rfl

set_option maxRecDepth 10000 in
theorem byteEntry_shift_bit : ∀ i, i < 32 →
    byteEntry ((1#32 <<< i : Word).setWidth 8) ^^^ ((1#32 <<< i : Word) >>> 8) = bitSteps 8 (1#32 <<< i) := by decide

theorem byteEntry_shift (v : Word) : byteEntry (v.setWidth 8) ^^^ (v >>> 8) = bitSteps 8 v := by
  refine XorLinear.ext_bits (f := fun v : Word => byteEntry (v.setWidth 8) ^^^ (v >>> 8)) (g := bitSteps 8)
    (XorLinear.xor ?_ (xorLinear_ushiftRight 8)) (xorLinear_bitSteps 8) byteEntry_shift_bit v
  intro a b
  simp only [byteEntry, BitVec.setWidth_xor]
  exact xorLinear_bitSteps 8 _ _

/-- A byte step is eight bit steps of the accumulator XOR the byte. -/
theorem byteStep_eq (c : Word) (b : Byte) : byteStep c b = bitSteps 8 (c ^^^ b.setWidth 32) := by
  rw [← byteEntry_shift, byteStep]
  congr 1
  rw [BitVec.ushiftRight_xor_distrib]
  have : b.setWidth 32 >>> 8 = 0#32 := by
    ext i hi; simp
  rw [this, BitVec.xor_zero]

@[simp] theorem ext_nil (c : Word) : ext c [] = c := rfl

theorem ext_cons (c : Word) (b : Byte) (bs : List Byte) : ext c (b :: bs) = ext (byteStep c b) bs := rfl

/-- Extension composes (00_scope.md R12). -/
theorem ext_append (c : Word) (a b : List Byte) : ext c (a ++ b) = ext (ext c a) b := List.foldl_append

/-- Extension is affine in the accumulator (00_scope.md R12). -/
theorem ext_xor (c d : Word) (bs : List Byte) : ext (c ^^^ d) bs = ext c bs ^^^ bitSteps (8 * bs.length) d := by
  induction bs generalizing c d with
  | nil => simp [bitSteps]
  | cons b bs ih =>
    rw [ext_cons, ext_cons, byteStep_eq, byteStep_eq, xor_right_comm, xorLinear_bitSteps 8, ih, ← bitSteps_add,
      List.length_cons, Nat.mul_succ]

theorem ext_zero_left (c : Word) (bs : List Byte) : ext c bs = ext 0#32 bs ^^^ bitSteps (8 * bs.length) c := by
  have := ext_xor 0#32 c bs
  simpa using this

/-- Extension by zero bytes is that many byte steps (00_scope.md R12). -/
theorem ext_replicate_zero (c : Word) (n : Nat) : ext c (List.replicate n 0#8) = bitSteps (8 * n) c := by
  induction n generalizing c with
  | zero => rfl
  | succ n ih =>
    rw [List.replicate_succ, ext_cons, ih, byteStep_eq, ← bitSteps_mul_succ]
    simp

/-- `ExtZ` (00_scope.md R11) is a power of the bit step. -/
theorem extZ_eq (c : Word) (n : Nat) : extZ c n = bitSteps (8 * n) c := by
  rw [extZ, mulMod_eq_polyMultiply, xPow, bitSteps_eq, polyMultiply_power_right, bitSteps_eq]

theorem extZ_xor (c d : Word) (n : Nat) : extZ (c ^^^ d) n = extZ c n ^^^ extZ d n := by
  simp only [extZ_eq]; exact xorLinear_bitSteps _ _ _

theorem extZ_extZ (c : Word) (m n : Nat) : extZ (extZ c m) n = extZ c (m + n) := by
  rw [extZ_eq, extZ_eq, extZ_eq, ← bitSteps_add, Nat.mul_add, Nat.add_comm]

theorem ext_replicate_eq_extZ (c : Word) (n : Nat) : ext c (List.replicate n 0#8) = extZ c n := by
  rw [ext_replicate_zero, extZ_eq]

/-- The CRC of two parts from the CRCs of the parts, the second started at 0 (41_crc_ops.md R173). -/
theorem ext_append_eq_extZ (c : Word) (a b : List Byte) : ext c (a ++ b) = extZ (ext c a) b.length ^^^ ext 0#32 b := by
  rw [ext_append, ext_zero_left, extZ_eq, BitVec.xor_comm]

/-! ## The inverse of the bit step -/

theorem bitUnstep_eq (c : Word) :
    bitUnstep c = ((c ^^^ (if c.getLsbD 31 then Config.poly else 0#32)) <<< 1)
      ^^^ (if c.getLsbD 31 then 1#32 else 0#32) := by
  unfold bitUnstep
  cases c.getLsbD 31
  · simp
  · simp only [↓reduceIte]
    apply BitVec.eq_of_getLsbD_eq
    intro i hi
    rcases i with _ | i <;> simp [BitVec.getLsbD_one]

theorem xorLinear_bitUnstep : XorLinear bitUnstep := by
  intro a b
  simp only [bitUnstep_eq]
  exact XorLinear.xor (XorLinear.comp (xorLinear_shiftLeft 1)
    (XorLinear.xor xorLinear_id (xorLinear_select 31 Config.poly))) (xorLinear_select 31 1#32) a b

set_option maxRecDepth 10000 in
theorem bitUnstep_bitStep_bit : ∀ i, i < 32 → bitUnstep (bitStep (1#32 <<< i)) = 1#32 <<< i := by decide

set_option maxRecDepth 10000 in
theorem bitStep_bitUnstep_bit : ∀ i, i < 32 → bitStep (bitUnstep (1#32 <<< i)) = 1#32 <<< i := by decide

theorem bitUnstep_bitStep (c : Word) : bitUnstep (bitStep c) = c :=
  XorLinear.ext_bits (XorLinear.comp xorLinear_bitUnstep (xorLinear_bitStepQ Config.poly)) xorLinear_id
    bitUnstep_bitStep_bit c

theorem bitStep_bitUnstep (c : Word) : bitStep (bitUnstep c) = c :=
  XorLinear.ext_bits (XorLinear.comp (xorLinear_bitStepQ Config.poly) xorLinear_bitUnstep) xorLinear_id
    bitStep_bitUnstep_bit c

theorem bitUnsteps_succ' (n : Nat) (c : Word) : bitUnsteps (n + 1) c = bitUnsteps n (bitUnstep c) := by
  induction n with
  | zero => rfl
  | succ n ih => rw [bitUnsteps, ih, bitUnsteps]

theorem bitUnsteps_bitSteps (n : Nat) (c : Word) : bitUnsteps n (bitSteps n c) = c := by
  induction n with
  | zero => rfl
  | succ n ih => rw [bitUnsteps_succ', bitSteps, bitUnstep_bitStep, ih]

theorem bitSteps_succ' (n : Nat) (c : Word) : bitSteps (n + 1) c = bitSteps n (bitStep c) := bitSteps_add n 1 c

theorem bitSteps_bitUnsteps (n : Nat) (c : Word) : bitSteps n (bitUnsteps n c) = c := by
  induction n with
  | zero => rfl
  | succ n ih => rw [bitSteps_succ', bitUnsteps, bitStep_bitUnstep, ih]

theorem mulMod_xPowInv (c : Word) (k : Nat) : mulMod c (xPowInv k) = bitUnsteps k c := by
  have h : bitSteps k (mulMod c (xPowInv k)) = c := by
    rw [mulMod_eq_polyMultiply, bitSteps_eq, ← polyMultiply_bitStepsQ_right, ← bitSteps_eq, xPowInv,
      bitSteps_bitUnsteps, polyMultiply_comm, polyMultiply_one_left]
  rw [← h, bitUnsteps_bitSteps, h]

/-- `UnextZ` (00_scope.md R11) is a power of the inverse bit step. -/
theorem unextZ_eq (c : Word) (n : Nat) : unextZ c n = bitUnsteps (8 * n) c := mulMod_xPowInv c _

/-! ## The CRC step unit and the multiply-reduce unit -/

theorem ext_leBytes_xor (k : Nat) (c d : Word) (v w : DWord) :
    ext (c ^^^ d) (leBytes (v ^^^ w) k) = ext c (leBytes v k) ^^^ ext d (leBytes w k) := by
  induction k generalizing c d v w with
  | zero => rfl
  | succ k ih =>
    simp only [leBytes, ext_cons, byteStep_eq]
    rw [BitVec.setWidth_xor, BitVec.setWidth_xor, xor_swap, xorLinear_bitSteps 8, BitVec.ushiftRight_xor_distrib, ih]

theorem xorLinear_crcStep_zero (k : Nat) : XorLinear (fun w => crcStep 0#32 w k) := fun v w => by
  have := ext_leBytes_xor k 0#32 0#32 v w
  simpa [crcStep] using this

theorem xorLinear_reduceProduct : XorLinear reduceProduct := fun a b => by
  simp only [reduceProduct]
  exact XorLinear.xor (f := highWord) (g := fun t => crcStep 0#32 ((lowWord t).setWidth 64) 4)
    (xorLinear_extract 32 32)
    (XorLinear.comp (xorLinear_crcStep_zero 4) (XorLinear.comp xorLinear_setWidth (xorLinear_extract 0 32))) a b

set_option maxRecDepth 10000 in
theorem reduceProduct_bit : ∀ k, k < 64 → reduceProduct (1#64 <<< k) = bitStepsQ Config.poly (63 - k) one := by decide

/-- The reduction of an aligned carry-less product is the product modulo P (43_gf2_multiply.md R213). -/
theorem reduceProduct_clMul (a b : Word) : reduceProduct (clMul a b <<< 1) = mulMod a b := by
  rw [mulMod_eq_polyMultiply]
  refine bilinear_ext_bits (f := fun a b => reduceProduct (clMul a b <<< 1))
    (g := fun a b => polyMultiply a b Config.poly) ?_ ?_ (xorLinear_polyMultiply_left _)
    (xorLinear_polyMultiply_right _) ?_ a b
  · intro c a b
    simp only [clMul_xor_left, BitVec.shiftLeft_xor_distrib]
    exact xorLinear_reduceProduct _ _
  · intro a b c
    simp only [clMul_xor_right, BitVec.shiftLeft_xor_distrib]
    exact xorLinear_reduceProduct _ _
  · intro i hi j hj
    show reduceProduct (clMul (1#32 <<< i) (1#32 <<< j) <<< 1) = polyMultiply (1#32 <<< i) (1#32 <<< j) Config.poly
    rw [clMul_bits i j hi hj, bit_shiftLeft, reduceProduct_bit _ (by omega), polyMultiply_bit _ _ i hi,
      bit_eq_bitStepsQ_one Config.poly j hj, ← bitStepsQ_add]
    congr 1
    omega

theorem mulModHw_eq (a b : Word) : mulModHw a b = mulMod a b := reduceProduct_clMul a b

end Sys2Proof.Laws
end

