-- ==== Sys2Proof/Laws/TableLaws.lean ====
section
/-!
SUPPORT. What the built tables hold, in closed form (40_table_builder.md R131, R133, R136, R138, R139).
-/

namespace Sys2Proof.Laws
open Sys2Proof.Machine

/-! ## Rows -/

theorem rowPowers_step (q top : Word) : rowPowers q (bitStepQ q top) = (rowPowers q top).map (bitStepQ q) := by
  simp only [rowPowers, List.map_cons, List.map_nil, ← bitStepsQ_succ']
  rfl

theorem foldl_row_map (T : Word → Word) (hT : XorLinear T) (ps t : List Word) :
    (ps.map T).foldl (fun t p => t ++ t.map (p ^^^ ·)) (t.map T)
      = (ps.foldl (fun t p => t ++ t.map (p ^^^ ·)) t).map T := by
  induction ps generalizing t with
  | nil => rfl
  | cons p ps ih =>
    simp only [List.map_cons, List.foldl_cons]
    rw [← ih]
    congr 1
    rw [List.map_append, List.map_map, List.map_map]
    congr 1
    apply List.map_congr_left
    intro a _
    exact (hT p a).symm

/-- A row advances with its seed: one bit step of the seed is one bit step of every entry. -/
theorem tableRow_step (q top : Word) : tableRow q (bitStepQ q top) = (tableRow q top).map (bitStepQ q) := by
  have h0 : [0#32] = [0#32].map (bitStepQ q) := by
    simp [(xorLinear_bitStepQ q).map_zero]
  unfold tableRow
  rw [rowPowers_step]
  conv_lhs => rw [h0]
  exact foldl_row_map _ (xorLinear_bitStepQ q) _ _

theorem tableRow_steps (q top : Word) (n : Nat) :
    tableRow q (bitStepsQ q n top) = (tableRow q top).map (bitStepsQ q n) := by
  induction n with
  | zero => simp [bitStepsQ]
  | succ n ih =>
    rw [bitStepsQ, tableRow_step, ih, List.map_map]
    rfl

theorem entry_map (f : Word → Word) (h : f 0#32 = 0#32) (t : List Word) (i : Nat) :
    entry (t.map f) i = f (entry t i) := by
  simp only [entry, List.getD_eq_getElem?_getD, List.getElem?_map]
  cases t[i]? <;> simp [h]

set_option maxRecDepth 20000 in
theorem tableRow_poly : tableRow Config.poly Config.poly
    = (List.range 256).map (fun i => bitStepsQ Config.poly 8 (BitVec.ofNat 32 i)) := by decide

set_option maxRecDepth 20000 in
theorem tableRow_unext : tableRow unextPoly unextPoly
    = (List.range 256).map (fun i => bitStepsQ unextPoly 8 (BitVec.ofNat 32 i)) := by decide

theorem entry_range (f : Nat → Word) (b : Byte) : entry ((List.range 256).map f) b.toNat = f b.toNat := by
  have : b.toNat < 256 := b.isLt
  simp [entry, List.getD_eq_getElem?_getD, this]

theorem ofNat_toNat_byte (b : Byte) : BitVec.ofNat 32 b.toNat = b.setWidth 32 := by
  rw [BitVec.ofNat_toNat]

/-- table0's entries (40_table_builder.md R131). -/
theorem entry_row_poly (b : Byte) : entry (tableRow Config.poly Config.poly) b.toNat = byteEntry b := by
  rw [tableRow_poly, entry_range, ofNat_toNat_byte, byteEntry, bitSteps_eq]

/-- reverse_table0's entries (40_table_builder.md R137). -/
theorem entry_row_unext (b : Byte) :
    entry (tableRow unextPoly unextPoly) b.toNat = bitStepsQ unextPoly 8 (b.setWidth 32) := by
  rw [tableRow_unext, entry_range, ofNat_toNat_byte]

theorem built_table0 (m : Bool) : (builtTables m).table0 = tableRow Config.poly Config.poly := rfl

theorem built_reverseTable0 (m : Bool) : (builtTables m).reverseTable0 = tableRow unextPoly unextPoly := rfl

theorem interleavedLast_eq : interleavedLast = bitSteps 96 Config.poly := ext_replicate_zero _ 12

theorem built_interleaved (m : Bool) (j : Nat) (hj : j < 4) :
    (builtTables m).interleaved.getD j []
      = (tableRow Config.poly Config.poly).map (bitSteps (8 * (12 + j))) := by
  have h : ∀ k, tableRow Config.poly (bitStepsQ Config.poly k (bitSteps 96 Config.poly))
      = (tableRow Config.poly Config.poly).map (bitSteps (k + 96)) := by
    intro k
    rw [bitSteps_eq, ← bitStepsQ_add, tableRow_steps]
    congr 1
    funext c
    rw [bitSteps_eq]
  have hb : (builtTables m).interleaved = tableRows Config.poly 4 (bitSteps 96 Config.poly) := by
    rw [← interleavedLast_eq]; rfl
  rw [hb]
  simp only [tableRows, ← bitStepsQ_add]
  rcases j with _ | _ | _ | _ | j
  · exact h 0
  · exact h 8
  · exact h 16
  · exact h 24
  · omega

/-- The word-interleaved tables (40_table_builder.md R133). -/
theorem entry_interleaved (m : Bool) (j : Nat) (hj : j < 4) (b : Byte) :
    entry ((builtTables m).interleaved.getD j []) b.toNat = bitSteps (8 * (12 + j)) (byteEntry b) := by
  rw [built_interleaved m j hj, entry_map _ (xorLinear_bitSteps _).map_zero, entry_row_poly]

/-! ## Zero tables and powers -/

theorem zeroesRun_length (q inc : Word) (n : Nat) (v : Word) : (zeroesRun q inc n v).length = n := by
  induction n generalizing v with
  | zero => rfl
  | succ n ih => simp [zeroesRun, ih]

theorem mulTimes_power (q : Word) (b n a : Nat) :
    mulTimes q (bitStepsQ q b one) n (bitStepsQ q a one) = bitStepsQ q (a + n * b) one := by
  induction n generalizing a with
  | zero => simp [mulTimes]
  | succ n ih =>
    rw [mulTimes, polyMultiply_power_right, ← bitStepsQ_add, ih]
    congr 1
    ring

theorem entry_zeroesRun (q : Word) (b n a i : Nat) (hi : i < n) :
    entry (zeroesRun q (bitStepsQ q b one) n (bitStepsQ q a one)) i = bitStepsQ q (a + i * b) one := by
  induction n generalizing a i with
  | zero => omega
  | succ n ih =>
    rw [zeroesRun]
    rcases i with _ | i
    · simp [entry]
    · rw [polyMultiply_power_right, ← bitStepsQ_add]
      have := ih (b + a) i (by omega)
      simp only [entry, List.getD_cons_succ] at this ⊢
      rw [this]
      congr 1
      ring

theorem entry_append_left (s t : List Word) (i : Nat) (h : i < s.length) : entry (s ++ t) i = entry s i := by
  simp [entry, List.getD_eq_getElem?_getD, List.getElem?_append_left h]

theorem entry_append_right (s t : List Word) (i : Nat) (h : s.length ≤ i) :
    entry (s ++ t) i = entry t (i - s.length) := by
  simp [entry, List.getD_eq_getElem?_getD, List.getElem?_append_right h]

theorem entry_zeroesBlocks (q : Word) (n b k c : Nat) (hk : k < n) (hc : 1 ≤ c) (hc' : c ≤ 15) :
    entry (zeroesBlocks q n (bitStepsQ q b one)) (15 * k + c - 1) = bitStepsQ q (b * c * 16 ^ k) one := by
  induction n generalizing b k with
  | zero => omega
  | succ n ih =>
    rw [zeroesBlocks]
    have hl : (zeroesRun q (bitStepsQ q b one) Config.zeroesBlock (bitStepsQ q b one)).length = 15 :=
      zeroesRun_length _ _ _ _
    rcases k with _ | k
    · rw [entry_append_left _ _ _ (by omega), entry_zeroesRun _ _ _ _ _ (by simp [Config.zeroesBlock]; omega)]
      congr 1
      obtain ⟨d, rfl⟩ : ∃ d, c = d + 1 := ⟨c - 1, by omega⟩
      simp
      ring
    · rw [entry_append_right _ _ _ (by omega), hl, mulTimes_power]
      have e : 15 * (k + 1) + c - 1 - 15 = 15 * k + c - 1 := by omega
      rw [e, ih _ _ (by omega)]
      congr 1
      simp only [Config.zeroesBlock]
      ring

theorem zeroesSeed_eq (q : Word) : zeroesSeed q = bitStepsQ q 8 one := by
  have h : one >>> 1 = bitStepsQ q 1 one := by
    have h0 : one.getLsbD 0 = false := by decide
    rw [bitStepsQ, bitStepsQ, bitStepQ, h0]
    exact (BitVec.xor_zero).symm
  simp only [zeroesSeed, h, polyMultiply_power_left, ← bitStepsQ_add, Nat.reduceAdd]

/-- LEN has 16 base-16 digits. -/
theorem magnitudes : (Config.lenWidth + 3) / Config.zeroesBaseLg = 16 := rfl

/-- What `FillZeroesTable(q)` writes (40_table_builder.md R135, R136). -/
theorem entry_fillZeroesTable (q : Word) (k c : Nat) (hk : k < 16) (hc : 1 ≤ c) (hc' : c ≤ 15) :
    entry (fillZeroesTable q) (15 * k + c - 1) = bitStepsQ q (8 * c * 16 ^ k) one := by
  rw [fillZeroesTable, zeroesSeed_eq, magnitudes, entry_zeroesBlocks q 16 8 k c hk hc hc']

theorem zeroesBlocks_length (q : Word) (n : Nat) (inc : Word) : (zeroesBlocks q n inc).length = 15 * n := by
  induction n generalizing inc with
  | zero => rfl
  | succ n ih => rw [zeroesBlocks, List.length_append, zeroesRun_length, ih]; simp [Config.zeroesBlock]; omega

/-- `FillZeroesTable` writes 240 entries (40_table_builder.md R135). -/
theorem fillZeroesTable_length (q : Word) : (fillZeroesTable q).length = 240 := by
  rw [fillZeroesTable, magnitudes, zeroesBlocks_length]

/-- The capacity check passes (40_table_builder.md R141). -/
theorem capacityOk_fillZeroesTable (q : Word) : capacityOk (fillZeroesTable q) = true := by
  simp [capacityOk, fillZeroesTable_length, Config.zeroesCapacity]

set_option maxRecDepth 10000 in
theorem poly_eq_power : Config.poly = bitStepsQ Config.poly 32 one := by decide

theorem entry_powersFrom (n a i : Nat) (hi : i < n) :
    entry (powersFrom n (bitStepsQ Config.poly a one)) i = bitStepsQ Config.poly (a * 2 ^ i) one := by
  induction n generalizing a i with
  | zero => omega
  | succ n ih =>
    rw [powersFrom]
    rcases i with _ | i
    · simp [entry]
    · rw [polyMultiply_power_left, ← bitStepsQ_add]
      have := ih (a + a) i (by omega)
      simp only [entry, List.getD_cons_succ] at this ⊢
      rw [this]
      congr 1
      ring

/-- `powers` (40_table_builder.md R139). -/
theorem entry_powersTable (i : Nat) (hi : i < 62) : entry powersTable i = xPow (32 * 2 ^ i) := by
  rw [powersTable, show Config.powersCount = 62 from rfl]
  conv_lhs => rw [poly_eq_power]
  rw [entry_powersFrom _ _ _ hi, xPow, bitSteps_eq]

end Sys2Proof.Laws
end

