-- ==== Sys2Proof/Laws/GenericLaws.lean ====
section
/-!
SUPPORT. The GENERIC and ACCEL datapaths on the built tables compute what the result rules say
(41_crc_ops.md R168, R170, 43_gf2_multiply.md R217, R218).
-/

namespace Sys2Proof.Laws
open Sys2Proof.Machine

theorem bitSteps_xor (n : Nat) (a b : Word) : bitSteps n (a ^^^ b) = bitSteps n a ^^^ bitSteps n b :=
  xorLinear_bitSteps n a b

/-! ## The 4-lane EXTEND -/

theorem tableByteStep_eq (m : Bool) (c : Word) (b : Byte) : tableByteStep (builtTables m).table0 c b = byteStep c b := by
  rw [tableByteStep, built_table0, entry_row_poly, byteStep]

theorem foldl_tableByteStep (m : Bool) (c : Word) (bs : List Byte) :
    bs.foldl (tableByteStep (builtTables m).table0) c = ext c bs := by
  unfold ext
  congr 1
  funext c b
  exact tableByteStep_eq m c b

theorem bitSteps_shifted_byte_bit : ∀ k, k < 4 → ∀ i, i < 8 →
    bitSteps (8 * k) (((1#8 <<< i : Byte).setWidth 32 : Word) <<< (8 * k)) = (1#8 <<< i : Byte).setWidth 32 := by decide

/-- Shifting a byte up and stepping it back gives the byte. -/
theorem bitSteps_shifted_byte (k : Nat) (hk : k < 4) (b : Byte) :
    bitSteps (8 * k) (b.setWidth 32 <<< (8 * k)) = b.setWidth 32 :=
  XorLinear.ext_bits (f := fun b : Byte => bitSteps (8 * k) (b.setWidth 32 <<< (8 * k)))
    (g := fun b : Byte => b.setWidth 32)
    (XorLinear.comp (xorLinear_bitSteps _) (XorLinear.comp (xorLinear_shiftLeft _) xorLinear_setWidth))
    xorLinear_setWidth (bitSteps_shifted_byte_bit k hk) b

theorem append_bytes (b0 b1 b2 b3 : Byte) : (b3 ++ b2 ++ b1 ++ b0 : Word)
    = b0.setWidth 32 ^^^ (b1.setWidth 32 <<< 8) ^^^ (b2.setWidth 32 <<< 16) ^^^ (b3.setWidth 32 <<< 24) := by
  apply BitVec.eq_of_getLsbD_eq
  intro i hi
  simp only [BitVec.getLsbD_append, BitVec.getLsbD_xor, BitVec.getLsbD_shiftLeft, BitVec.getLsbD_setWidth]
  interval_cases i <;> simp

/-- Four byte steps are 32 bit steps of the accumulator XOR the little-endian word (41_crc_ops.md R168). -/
theorem ext_word4 (c : Word) (bs : List Byte) (h : 4 ≤ bs.length) :
    ext c bs = ext (bitSteps 32 (c ^^^ word4 bs)) (bs.drop 4) := by
  match bs, h with
  | b0 :: b1 :: b2 :: b3 :: rest, _ =>
    have e1 := bitSteps_shifted_byte 1 (by decide) b1
    have e2 := bitSteps_shifted_byte 2 (by decide) b2
    have e3 := bitSteps_shifted_byte 3 (by decide) b3
    have hw : word4 (b0 :: b1 :: b2 :: b3 :: rest) = b3 ++ b2 ++ b1 ++ b0 := rfl
    have a1 : bitSteps 32 (b1.setWidth 32 <<< 8) = bitSteps 24 (b1.setWidth 32) :=
      (bitSteps_add 24 (8 * 1) _).trans (congrArg (bitSteps 24) e1)
    have a2 : bitSteps 32 (b2.setWidth 32 <<< 16) = bitSteps 16 (b2.setWidth 32) :=
      (bitSteps_add 16 (8 * 2) _).trans (congrArg (bitSteps 16) e2)
    have a3 : bitSteps 32 (b3.setWidth 32 <<< 24) = bitSteps 8 (b3.setWidth 32) :=
      (bitSteps_add 8 (8 * 3) _).trans (congrArg (bitSteps 8) e3)
    rw [hw, append_bytes]
    simp only [ext_cons, byteStep_eq, List.drop_succ_cons, List.drop_zero]
    congr 1
    simp only [bitSteps_xor, a1, a2, a3, ← bitSteps_add, Nat.reduceAdd]
    ac_rfl

set_option maxRecDepth 20000 in
theorem laneBytes_bit : ∀ i, i < 32 →
    bitSteps 120 (byteEntry ((1#32 <<< i : Word).extractLsb' 0 8))
      ^^^ bitSteps 112 (byteEntry ((1#32 <<< i : Word).extractLsb' 8 8))
      ^^^ bitSteps 104 (byteEntry ((1#32 <<< i : Word).extractLsb' 16 8))
      ^^^ bitSteps 96 (byteEntry ((1#32 <<< i : Word).extractLsb' 24 8)) = bitSteps 128 (1#32 <<< i) := by decide

/-- The lane step `S` advances the lane by 16 bytes (41_crc_ops.md R168). -/
theorem laneStep_eq (m : Bool) (v w : Word) : laneStep (builtTables m).interleaved v w = w ^^^ bitSteps 128 v := by
  have hb : XorLinear byteEntry := fun a b => by
    simp only [byteEntry, BitVec.setWidth_xor]; exact bitSteps_xor 8 _ _
  have key : bitSteps 120 (byteEntry (v.extractLsb' 0 8)) ^^^ bitSteps 112 (byteEntry (v.extractLsb' 8 8))
      ^^^ bitSteps 104 (byteEntry (v.extractLsb' 16 8)) ^^^ bitSteps 96 (byteEntry (v.extractLsb' 24 8))
      = bitSteps 128 v := by
    refine XorLinear.ext_bits (f := fun v : Word => bitSteps 120 (byteEntry (v.extractLsb' 0 8))
      ^^^ bitSteps 112 (byteEntry (v.extractLsb' 8 8)) ^^^ bitSteps 104 (byteEntry (v.extractLsb' 16 8))
      ^^^ bitSteps 96 (byteEntry (v.extractLsb' 24 8))) (g := bitSteps 128) ?_ (xorLinear_bitSteps _) laneBytes_bit v
    have one_byte : ∀ n s, XorLinear (fun v : Word => bitSteps n (byteEntry (v.extractLsb' s 8))) := fun n s =>
      XorLinear.comp (xorLinear_bitSteps n) (XorLinear.comp hb (xorLinear_extract s 8))
    exact (((one_byte 120 0).xor (one_byte 112 8)).xor (one_byte 104 16)).xor (one_byte 96 24)
  rw [← key]
  simp only [laneStep, entry_interleaved m 3 (by decide), entry_interleaved m 2 (by decide),
    entry_interleaved m 1 (by decide), entry_interleaved m 0 (by decide), Nat.reduceMul, Nat.reduceAdd]
  ac_rfl

theorem absorbLane_eq (m : Bool) (carry lane : Word) :
    absorbLane (builtTables m).table0 carry lane = bitSteps 32 (lane ^^^ carry) := by
  unfold absorbLane
  rw [foldl_tableByteStep, ext_replicate_zero]

/-- What the lanes stand for: the value step (4) gives. -/
theorem recombineLanes_eq (m : Bool) (l : Lanes) : recombineLanes (builtTables m).table0 l
    = bitSteps 128 l.l0 ^^^ bitSteps 96 l.l1 ^^^ bitSteps 64 l.l2 ^^^ bitSteps 32 l.l3 := by
  simp only [recombineLanes, List.foldl_cons, List.foldl_nil, absorbLane_eq, bitSteps_xor, ← bitSteps_add,
    Nat.reduceAdd, BitVec.xor_zero]
  ac_rfl

theorem ext_four_words (c : Word) (bs : List Byte) (h : 16 ≤ bs.length) :
    ext c bs = ext (bitSteps 128 (c ^^^ word4 bs) ^^^ bitSteps 96 (word4 (bs.drop 4))
      ^^^ bitSteps 64 (word4 (bs.drop 8)) ^^^ bitSteps 32 (word4 (bs.drop 12))) (bs.drop 16) := by
  rw [ext_word4 c bs (by omega), ext_word4 _ (bs.drop 4) (by simp; omega), List.drop_drop,
    ext_word4 _ (bs.drop 8) (by simp; omega), List.drop_drop, ext_word4 _ (bs.drop 12) (by simp; omega),
    List.drop_drop]
  simp only [bitSteps_xor, ← bitSteps_add, Nat.reduceAdd]

theorem strides_eq (m : Bool) (n : Nat) (l : Lanes) (bs : List Byte) (h : 16 * n ≤ bs.length) :
    ext (recombineLanes (builtTables m).table0 l) bs
      = ext (recombineLanes (builtTables m).table0 (strides (builtTables m).interleaved n l bs)) (bs.drop (16 * n)) := by
  induction n generalizing l bs with
  | zero => rfl
  | succ n ih =>
    have e : bs.drop (16 * (n + 1)) = (bs.drop 16).drop (16 * n) := by
      rw [List.drop_drop]; congr 1; ring
    rw [ext_four_words _ bs (by omega), strides, e, ← ih _ _ (by simp; omega)]
    congr 1
    simp only [recombineLanes_eq, laneStep_eq, bitSteps_xor, ← bitSteps_add, Nat.reduceAdd]
    ac_rfl

theorem rotations_eq (m : Bool) (n : Nat) (l : Lanes) (bs : List Byte) (h : 4 * n ≤ bs.length) :
    ext (recombineLanes (builtTables m).table0 l) bs
      = ext (recombineLanes (builtTables m).table0 (rotations (builtTables m).interleaved n l bs)) (bs.drop (4 * n)) := by
  induction n generalizing l bs with
  | zero => rfl
  | succ n ih =>
    have e : bs.drop (4 * (n + 1)) = (bs.drop 4).drop (4 * n) := by
      rw [List.drop_drop]; congr 1; ring
    rw [ext_word4 _ bs (by omega), rotations, e, ← ih _ _ (by simp; omega)]
    congr 1
    simp only [recombineLanes_eq, laneStep_eq, bitSteps_xor, ← bitSteps_add, Nat.reduceAdd]
    ac_rfl

theorem genericBody_eq (m : Bool) (c : Word) (bs : List Byte) : genericBody (builtTables m) c bs = ext c bs := by
  unfold genericBody
  split
  · rename_i h
    have hf : recombineLanes (builtTables m).table0 (firstLanes c bs) = bitSteps 128 (c ^^^ word4 bs)
        ^^^ bitSteps 96 (word4 (bs.drop 4)) ^^^ bitSteps 64 (word4 (bs.drop 8)) ^^^ bitSteps 32 (word4 (bs.drop 12)) := by
      simp only [recombineLanes_eq, firstLanes, BitVec.xor_comm c]
    simp only [foldl_tableByteStep]
    rw [← rotations_eq m _ _ _ (Nat.mul_div_le _ _), ← strides_eq m _ _ _ (Nat.mul_div_le _ _), hf,
      ← ext_four_words c bs h]
  · exact foldl_tableByteStep m c bs

/-- The GENERIC EXTEND datapath computes Ext (41_crc_ops.md R168). -/
theorem genericExtend_eq (m a : Bool) (addr : Nat) (c : Word) (bs : List Byte) :
    genericExtend a (builtTables m) addr c bs = ext c bs := by
  simp only [genericExtend, genericBody_eq, foldl_tableByteStep]
  rw [← ext_append, List.take_append_drop]

/-! ## The base-16 zero extension -/

/-- One reduction of the digit loop: the low 8 bits go through the byte table of `q`. -/
def reduceByte (q : Word) (r : DWord) : DWord :=
  (r >>> 8) ^^^ (bitStepsQ q 8 ((r.setWidth 8).setWidth 32)).setWidth 64

/-- `t0` is the byte-extension table of `q`. -/
def ByteTable (q : Word) (t0 : List Word) : Prop := ∀ b : Byte, entry t0 b.toNat = bitStepsQ q 8 (b.setWidth 32)

theorem byteTable_poly (m : Bool) : ByteTable Config.poly (builtTables m).table0 := fun b => by
  rw [built_table0, entry_row_poly, byteEntry, bitSteps_eq]

theorem byteTable_unext (m : Bool) : ByteTable unextPoly (builtTables m).reverseTable0 := fun b => by
  rw [built_reverseTable0, entry_row_unext]

theorem xorLinear_reduceByte (q : Word) : XorLinear (reduceByte q) :=
  XorLinear.xor (xorLinear_ushiftRight 8) (XorLinear.comp xorLinear_setWidth
    (XorLinear.comp (xorLinear_bitStepsQ q 8) (XorLinear.comp (xorLinear_setWidth (w := 8)) xorLinear_setWidth)))

/-- The 40 bits a fold can set stand for the powers x^39 to x^0. -/
def ReducesPowers (q : Word) : Prop :=
  ∀ k, k < 40 → reduceByte q (1#64 <<< k) = (bitStepsQ q (39 - k) one).setWidth 64

set_option maxRecDepth 10000 in
theorem reducesPowers_poly : ReducesPowers Config.poly := by unfold ReducesPowers; decide

set_option maxRecDepth 10000 in
theorem reducesPowers_unext : ReducesPowers unextPoly := by unfold ReducesPowers; decide

theorem xorLinear_twoBitMultiple (m : DWord) : XorLinear (twoBitMultiple m) := by
  have h : ∀ d, twoBitMultiple m d = (if d.getLsbD 0 then m else 0#64) ^^^ (if d.getLsbD 1 then m <<< 1 else 0#64) := by
    intro d
    have : d = 0#2 ∨ d = 1#2 ∨ d = 2#2 ∨ d = 3#2 := by revert d; decide
    rcases this with rfl | rfl | rfl | rfl <;> simp [twoBitMultiple, BitVec.xor_comm]
  intro a b
  rw [h, h, h]
  exact ((xorLinear_select 0 m).xor (xorLinear_select 1 (m <<< 1))) a b

/-- The four two-bit multiples of a byte of `l`. -/
def byteMultiple (m : DWord) (l : Word) : DWord :=
  twoBitMultiple m (l.extractLsb' 0 2) ^^^ (twoBitMultiple m (l.extractLsb' 2 2) <<< 2)
    ^^^ (twoBitMultiple m (l.extractLsb' 4 2) <<< 4) ^^^ (twoBitMultiple m (l.extractLsb' 6 2) <<< 6)

theorem xorLinear_byteMultiple (m : DWord) : XorLinear (byteMultiple m) := by
  have h : ∀ s k, XorLinear (fun l : Word => twoBitMultiple m (l.extractLsb' s 2) <<< k) := fun s k =>
    XorLinear.comp (xorLinear_shiftLeft k) (XorLinear.comp (xorLinear_twoBitMultiple m) (xorLinear_extract s 2))
  exact (((XorLinear.comp (xorLinear_twoBitMultiple m) (xorLinear_extract 0 2)).xor (h 2 2)).xor (h 4 4)).xor (h 6 6)

theorem twoBits_of_bit (i s : Nat) (hi : i < 32) : (1#32 <<< i : Word).extractLsb' s 2
    = if i = s then 1#2 else if i = s + 1 then 2#2 else 0#2 := by
  apply BitVec.eq_of_getLsbD_eq
  intro k hk
  simp only [BitVec.getLsbD_extractLsb', BitVec.getLsbD_shiftLeft, BitVec.getLsbD_one]
  interval_cases k
  · by_cases h1 : i = s
    · subst h1; simp [hi]
    · by_cases h2 : i = s + 1
      · subst h2; simp
      · simp [h1, h2]; omega
  · by_cases h1 : i = s
    · subst h1; simp
    · by_cases h2 : i = s + 1
      · subst h2; simp [hi]
      · simp [h1, h2]; omega

theorem byteMultiple_bit (m : DWord) (i : Nat) (hi : i < 32) :
    byteMultiple m (1#32 <<< i) = if i < 8 then m <<< i else 0#64 := by
  unfold byteMultiple
  simp only [twoBits_of_bit i _ hi]
  by_cases h : i < 8
  · interval_cases i <;> simp [twoBitMultiple, ← BitVec.shiftLeft_add]
  · have : i ≠ 0 ∧ i ≠ 1 ∧ i ≠ 2 ∧ i ≠ 3 ∧ i ≠ 4 ∧ i ≠ 5 ∧ i ≠ 6 ∧ i ≠ 7 := by omega
    simp [this, h, twoBitMultiple]

theorem foldByte_eq (q : Word) (t0 : List Word) (ht : ByteTable q t0) (m : DWord) (l : Word) (r : DWord) :
    foldByte t0 m l r = reduceByte q (r ^^^ byteMultiple m l) := by
  have e : ∀ x : DWord, entry t0 (x.setWidth 8).toNat = bitStepsQ q 8 ((x.setWidth 8).setWidth 32) := fun x => ht _
  have a : r ^^^ byteMultiple m l = r ^^^ twoBitMultiple m (l.extractLsb' 0 2)
      ^^^ (twoBitMultiple m (l.extractLsb' 2 2) <<< 2) ^^^ (twoBitMultiple m (l.extractLsb' 4 2) <<< 4)
      ^^^ (twoBitMultiple m (l.extractLsb' 6 2) <<< 6) := by
    unfold byteMultiple; ac_rfl
  rw [a]
  simp only [foldByte, e, reduceByte]

theorem reduceByte_word (q : Word) (hq : ReducesPowers q) (r : Word) :
    reduceByte q (r.setWidth 64) = (bitStepsQ q 8 r).setWidth 64 := by
  refine XorLinear.ext_bits (f := fun r : Word => reduceByte q (r.setWidth 64))
    (g := fun r : Word => (bitStepsQ q 8 r).setWidth 64)
    (XorLinear.comp (xorLinear_reduceByte q) xorLinear_setWidth)
    (XorLinear.comp xorLinear_setWidth (xorLinear_bitStepsQ q 8)) ?_ r
  intro i hi
  show reduceByte q ((1#32 <<< i).setWidth 64) = (bitStepsQ q 8 (1#32 <<< i)).setWidth 64
  rw [bit_setWidth i hi (by decide), hq i (by omega), bit_eq_bitStepsQ_one q i hi, ← bitStepsQ_add]
  congr 2
  omega

theorem reduceByte_product (q : Word) (hq : ReducesPowers q) (z l : Word) :
    reduceByte q (byteMultiple (z.setWidth 64 <<< 1) l) = (polyMulRounds q l z 8).setWidth 64 := by
  refine XorLinear.ext_bits (f := fun l => reduceByte q (byteMultiple (z.setWidth 64 <<< 1) l))
    (g := fun l => (polyMulRounds q l z 8).setWidth 64)
    (XorLinear.comp (xorLinear_reduceByte q) (xorLinear_byteMultiple _))
    (fun a b => by simp only [polyMulRounds_xor_left, BitVec.setWidth_xor]) ?_ l
  intro j hj
  show reduceByte q (byteMultiple (z.setWidth 64 <<< 1) (1#32 <<< j)) = (polyMulRounds q (1#32 <<< j) z 8).setWidth 64
  rw [byteMultiple_bit _ j hj, polyMulRounds_bit q z j hj]
  split
  · rename_i h8
    refine XorLinear.ext_bits (f := fun z : Word => reduceByte q ((z.setWidth 64 <<< 1) <<< j))
      (g := fun z : Word => (bitStepsQ q (8 - 1 - j) z).setWidth 64)
      (XorLinear.comp (xorLinear_reduceByte q) (XorLinear.comp (xorLinear_shiftLeft j)
        (XorLinear.comp (xorLinear_shiftLeft 1) xorLinear_setWidth)))
      (XorLinear.comp xorLinear_setWidth (xorLinear_bitStepsQ q _)) ?_ z
    intro i hi
    show reduceByte q (((1#32 <<< i).setWidth 64 <<< 1) <<< j) = (bitStepsQ q (8 - 1 - j) (1#32 <<< i)).setWidth 64
    rw [bit_setWidth i hi (by decide), bit_shiftLeft, bit_shiftLeft, hq _ (by omega), bit_eq_bitStepsQ_one q i hi,
      ← bitStepsQ_add]
    congr 2
    omega
  · rw [(xorLinear_reduceByte q).map_zero]; rfl

theorem polyMulRounds_add (q l z : Word) (n k : Nat) :
    polyMulRounds q l z (n + k) = bitStepsQ q k (polyMulRounds q l z n) ^^^ polyMulRounds q (l >>> n) z k := by
  induction k with
  | zero => simp [bitStepsQ, polyMulRounds]
  | succ k ih =>
    rw [← Nat.add_assoc, polyMulRounds, ih, polyMulRounds, bitStepsQ, xorLinear_bitStepQ]
    have : (l >>> n).getLsbD k = l.getLsbD (n + k) := by simp
    rw [this]
    ac_rfl

theorem foldBytes_eq (q : Word) (hq : ReducesPowers q) (t0 : List Word) (ht : ByteTable q t0) (z l : Word) (k n : Nat) :
    foldBytes t0 (z.setWidth 64 <<< 1) n (l >>> (8 * k)) ((polyMulRounds q l z (8 * k)).setWidth 64)
      = (polyMulRounds q l z (8 * (k + n))).setWidth 64 := by
  induction n generalizing k with
  | zero => rfl
  | succ n ih =>
    have h1 : l >>> (8 * k) >>> 8 = l >>> (8 * (k + 1)) := by
      rw [← BitVec.shiftRight_add]; rfl
    have h2 : foldByte t0 (z.setWidth 64 <<< 1) (l >>> (8 * k)) ((polyMulRounds q l z (8 * k)).setWidth 64)
        = (polyMulRounds q l z (8 * (k + 1))).setWidth 64 := by
      rw [foldByte_eq q t0 ht, xorLinear_reduceByte, reduceByte_word q hq, reduceByte_product q hq, ← BitVec.setWidth_xor,
        ← polyMulRounds_add]
      rfl
    rw [foldBytes, h1, h2, ih]
    congr 3
    omega

/-- The body of the digit loop is a multiplication modulo `q` (41_crc_ops.md R170). -/
theorem mulByEntry_eq (q : Word) (hq : ReducesPowers q) (t0 : List Word) (ht : ByteTable q t0) (z l : Word) :
    mulByEntry t0 z l = polyMultiply l z q := by
  have := foldBytes_eq q hq t0 ht z l 0 4
  simp only [Nat.mul_zero, BitVec.ushiftRight_zero, polyMulRounds, BitVec.setWidth_zero] at this
  unfold mulByEntry
  rw [this]
  unfold polyMultiply
  apply BitVec.eq_of_toNat_eq
  simp [polyMulRounds]

/-- `z` is the zero table of `q`. -/
def ZeroTable (q : Word) (z : List Word) : Prop :=
  ∀ k c, k < 16 → 1 ≤ c → c ≤ 15 → entry z (15 * k + c - 1) = bitStepsQ q (8 * c * 16 ^ k) one

theorem extZDigits_eq (q : Word) (hq : ReducesPowers q) (z t0 : List Word) (hz : ZeroTable q z) (ht : ByteTable q t0)
    (fuel k n : Nat) (l : Word) (hk : k + fuel ≤ 16) (hn : n < 16 ^ fuel) :
    extZDigits z t0 fuel (15 * k) n l = bitStepsQ q (8 * n * 16 ^ k) l := by
  induction fuel generalizing k n l with
  | zero =>
    have : n = 0 := by simpa using hn
    subst this; simp [extZDigits, bitStepsQ]
  | succ fuel ih =>
    rw [extZDigits]
    split
    · rename_i h; subst h; simp [bitStepsQ]
    · have hbody : (if n % 16 = 0 then l else mulByEntry t0 (entry z (15 * k + n % 16 - 1)) l)
          = bitStepsQ q (8 * (n % 16) * 16 ^ k) l := by
        split
        · rename_i h; simp [h, bitStepsQ]
        · rw [mulByEntry_eq q hq t0 ht, hz k (n % 16) (by omega) (by omega) (by omega), polyMultiply_power_right]
      simp only
      rw [hbody, show 15 * k + 15 = 15 * (k + 1) by ring, ih (k + 1) (n / 16) _ (by omega)
        (by rw [Nat.div_lt_iff_lt_mul (by decide)]; rw [pow_succ] at hn; exact hn), ← bitStepsQ_add]
      congr 1
      have := Nat.div_add_mod n 16
      calc 8 * (n / 16) * 16 ^ (k + 1) + 8 * (n % 16) * 16 ^ k = 8 * (16 * (n / 16) + n % 16) * 16 ^ k := by ring
        _ = _ := by rw [this]

theorem extZImpl_eq (q : Word) (hq : ReducesPowers q) (z t0 : List Word) (hz : ZeroTable q z) (ht : ByteTable q t0)
    (c : Word) (n : DWord) : extZImpl z t0 c n = bitStepsQ q (8 * n.toNat) c := by
  have := extZDigits_eq q hq z t0 hz ht 16 0 n.toNat c (by decide) (by have := n.isLt; simpa using this)
  simpa [extZImpl] using this

theorem zeroTable_poly (m : Bool) : ZeroTable Config.poly (builtTables m).zeroes :=
  fun k c hk hc hc' => entry_fillZeroesTable _ k c hk hc hc'

theorem zeroTable_unext (m : Bool) : ZeroTable unextPoly (builtTables m).reverseZeroes :=
  fun k c hk hc hc' => entry_fillZeroesTable _ k c hk hc hc'

/-- The GENERIC zero extension computes ExtZ (41_crc_ops.md R170). -/
theorem genericExtZ_eq (m : Bool) (c : Word) (n : DWord) : genericExtZ (builtTables m) c n = extZ c n.toNat := by
  rw [genericExtZ, extZImpl_eq _ reducesPowers_poly _ _ (zeroTable_poly m) (byteTable_poly m), extZ_eq, bitSteps_eq]

set_option maxRecDepth 10000 in
theorem bitStepQ_unext_bit : ∀ i, i < 32 → bitStepQ unextPoly (rev32 (1#32 <<< i)) = rev32 (bitUnstep (1#32 <<< i)) := by
  decide

/-- On bit-reversed values one step modulo U is the inverse step modulo POLY (40_table_builder.md R138). -/
theorem bitStepQ_unext (c : Word) : bitStepQ unextPoly (rev32 c) = rev32 (bitUnstep c) :=
  XorLinear.ext_bits (XorLinear.comp (xorLinear_bitStepQ unextPoly) xorLinear_rev32)
    (XorLinear.comp xorLinear_rev32 xorLinear_bitUnstep) bitStepQ_unext_bit c

theorem bitStepsQ_unext (n : Nat) (c : Word) : bitStepsQ unextPoly n (rev32 c) = rev32 (bitUnsteps n c) := by
  induction n with
  | zero => rfl
  | succ n ih => rw [bitStepsQ, ih, bitStepQ_unext, bitUnsteps]

theorem rev32_rev32 (c : Word) : rev32 (rev32 c) = c := BitVec.reverse_reverse_eq

/-- The unextension on the reverse tables computes UnextZ (41_crc_ops.md R170). -/
theorem reverseUnextZ_eq (m : Bool) (c : Word) (n : DWord) : reverseUnextZ (builtTables m) c n = unextZ c n.toNat := by
  rw [reverseUnextZ, extZImpl_eq _ reducesPowers_unext _ _ (zeroTable_unext m) (byteTable_unext m), bitStepsQ_unext,
    rev32_rev32, unextZ_eq]

/-! ## The zero constant and the accelerated zero extension -/

theorem mulModHw_xPow (c : Word) (k : Nat) : mulModHw c (xPow k) = bitSteps k c := by
  rw [mulModHw_eq, mulMod_eq_polyMultiply, xPow, bitSteps_eq, polyMultiply_power_right, bitSteps_eq]

theorem zConstRounds_eq (fuel i q : Nat) (acc : Word) (hi : i + fuel ≤ 62) (hq : q < 2 ^ fuel) :
    zConstRounds powersTable fuel i q acc = bitSteps (32 * 2 ^ i * q) acc := by
  induction fuel generalizing i q acc with
  | zero =>
    have : q = 0 := by simpa using hq
    subst this; simp [zConstRounds, bitSteps]
  | succ fuel ih =>
    rw [zConstRounds]
    split
    · rename_i h; subst h; simp [bitSteps]
    · have hbody : (if q % 2 = 1 then mulModHw acc (entry powersTable i) else acc)
          = bitSteps (32 * 2 ^ i * (q % 2)) acc := by
        split
        · rename_i h; rw [entry_powersTable i (by omega), mulModHw_xPow, h, Nat.mul_one]
        · rename_i h
          have : q % 2 = 0 := by omega
          simp [this, bitSteps]
      rw [hbody, ih (i + 1) (q / 2) _ (by omega) (by rw [pow_succ] at hq; omega), ← bitSteps_add]
      congr 1
      have := Nat.div_add_mod q 2
      calc 32 * 2 ^ (i + 1) * (q / 2) + 32 * 2 ^ i * (q % 2) = 32 * 2 ^ i * (2 * (q / 2) + q % 2) := by ring
        _ = _ := by rw [this]

/-- `ZConstHw` computes the zero constant (43_gf2_multiply.md R215, R217). -/
theorem zConstHw_eq (n : Nat) (hn : n < 2 ^ 64) : zConstHw powersTable n = zeroConstant n := by
  have : n / 4 < 2 ^ 62 := by omega
  rw [zConstHw, show Config.powersCount = 62 from rfl, zConstRounds_eq 62 0 (n / 4) one (by decide) this, zeroConstant,
    xPow, pow_zero, Nat.mul_one]

theorem leBytes_zero (k : Nat) : leBytes 0#64 k = List.replicate k 0#8 := by
  induction k with
  | zero => rfl
  | succ k ih =>
    rw [leBytes, List.replicate_succ]
    simp [ih]

theorem crcStep_zero_word (c : Word) (k : Nat) : crcStep c 0#64 k = bitSteps (8 * k) c := by
  rw [crcStep, leBytes_zero, ext_replicate_zero]

theorem stepZeroTail_eq (c : Word) (r : Nat) (hr : r < 4) : stepZeroTail c r = bitSteps (8 * r) c := by
  interval_cases r <;> simp [stepZeroTail, crcStep_zero_word, bitSteps]

/-- The accelerated zero extension computes ExtZ (43_gf2_multiply.md R218). -/
theorem accelExtZ_eq (m : Bool) (c : Word) (n : DWord) : accelExtZ (builtTables m) c n = extZ c n.toNat := by
  have hp : (builtTables m).powers = powersTable := rfl
  have hd := Nat.div_add_mod n.toNat 4
  simp only [accelExtZ, hp, stepZeroTail_eq c _ (Nat.mod_lt _ (by decide : 4 > 0)), zConstHw_eq _ n.isLt, extZ_eq]
  split
  · rw [zeroConstant, mulModHw_xPow, ← bitSteps_add]
    congr 1
    omega
  · congr 1
    omega

end Sys2Proof.Laws
end

