-- ==== Sys2Proof/Laws/MultiLaws.lean ====
section
/-!
SUPPORT. The multi-stream EXTEND datapath computes Ext (44_multistream.md R241-R252, R257).
-/

namespace Sys2Proof.Laws
open Sys2Proof.Machine

/-! ## Normal-form values and their residues -/

/-- The residue of the low `n` bits of a normal-form value, reflected: the XOR of x^i over its set bits i. -/
def residueBits (v : Acc) : Nat → Word
  | 0 => 0#32
  | n + 1 => residueBits v n ^^^ (if v.getLsbD n then xPow n else 0#32)

/-- rep of a normal-form polynomial of degree below 128 modulo P. -/
def residue (v : Acc) : Word := residueBits v 128

theorem xorLinear_residue : XorLinear residue := by
  have h : ∀ n, XorLinear (fun v => residueBits v n) := by
    intro n
    induction n with
    | zero => intro a b; simp [residueBits]
    | succ n ih => exact ih.xor (xorLinear_select n (xPow n))
  exact h 128

theorem residue_bit (i : Nat) (hi : i < 128) : residue (1#128 <<< i) = xPow i := by
  have h : ∀ n, residueBits (1#128 <<< i) n = if i < n then xPow i else 0#32 := by
    intro n
    induction n with
    | zero => rfl
    | succ n ih =>
      rw [residueBits, ih]
      have hb : (1#128 <<< i).getLsbD n = decide (n = i) := by
        simp only [BitVec.getLsbD_shiftLeft, BitVec.getLsbD_one]
        by_cases h : n = i
        · subst h; simp [hi]
        · simp [h]; omega
      rw [hb]
      rcases Nat.lt_trichotomy i n with h | h | h
      · have h1 : ¬ n = i := by omega
        have h2 : i < n + 1 := by omega
        simp [h, h1, h2]
      · subst h; simp
      · have h1 : ¬ n = i := by omega
        have h2 : ¬ i < n := by omega
        have h3 : ¬ i < n + 1 := by omega
        simp [h1, h2, h3]
  rw [residue, h, if_pos hi]

theorem xPow_add (m n : Nat) : xPow (m + n) = bitSteps m (xPow n) := bitSteps_add m n one

theorem residue_setWidth_shift {w : Nat} (s : Nat) (h : w + s ≤ 128) (u : BitVec w) :
    residue (u.setWidth 128 <<< s) = bitSteps s (residue (u.setWidth 128)) := by
  refine XorLinear.ext_bits (f := fun u : BitVec w => residue (u.setWidth 128 <<< s))
    (g := fun u : BitVec w => bitSteps s (residue (u.setWidth 128)))
    (XorLinear.comp xorLinear_residue (XorLinear.comp (xorLinear_shiftLeft s) xorLinear_setWidth))
    (XorLinear.comp (xorLinear_bitSteps s) (XorLinear.comp xorLinear_residue xorLinear_setWidth)) ?_ u
  intro i hi
  show residue ((1#w <<< i).setWidth 128 <<< s) = bitSteps s (residue ((1#w <<< i).setWidth 128))
  rw [bit_setWidth i hi (by omega), bit_shiftLeft, residue_bit _ (by omega), residue_bit _ (by omega), ← xPow_add,
    Nat.add_comm]

/-- A 32-bit normal-form value's residue is its reflection. -/
theorem residue_word (v : Word) : residue (v.setWidth 128) = rev32 v := by
  refine XorLinear.ext_bits (f := fun v : Word => residue (v.setWidth 128)) (g := rev32)
    (XorLinear.comp xorLinear_residue xorLinear_setWidth) xorLinear_rev32 ?_ v
  intro i hi
  show residue ((1#32 <<< i).setWidth 128) = rev32 (1#32 <<< i)
  rw [bit_setWidth i hi (by decide), residue_bit i (by omega), rev32_bit i hi,
    bit_eq_bitStepsQ_one Config.poly (31 - i) (by omega), xPow, bitSteps_eq]
  congr 1
  omega

theorem xorLinear_clMul64_left (b : Acc) : XorLinear (fun a => clMul64 a b) := fun a a' => clMulBits_xor_left a a' b 64

theorem xorLinear_clMul64_right (a : Acc) : XorLinear (clMul64 a) := fun b b' => clMulBits_xor_right a b b' 64

theorem clMul64_bits (i j : Nat) (hj : j < 64) : clMul64 (1#128 <<< i) (1#128 <<< j) = 1#128 <<< (i + j) := by
  rw [clMul64, clMulBits_bit _ j (by omega), if_pos hj, bit_shiftLeft]

theorem residue_clMul64 (h : DWord) (k : Word) :
    residue (clMul64 (h.setWidth 128) (k.setWidth 128)) = mulMod (residue (h.setWidth 128)) (rev32 k) := by
  rw [mulMod_eq_polyMultiply]
  refine bilinear_ext_bits (f := fun (h : DWord) (k : Word) => residue (clMul64 (h.setWidth 128) (k.setWidth 128)))
    (g := fun (h : DWord) (k : Word) => polyMultiply (residue (h.setWidth 128)) (rev32 k) Config.poly) ?_ ?_ ?_ ?_ ?_ h k
  · exact fun c => XorLinear.comp xorLinear_residue (XorLinear.comp (xorLinear_clMul64_left _) xorLinear_setWidth)
  · exact fun a => XorLinear.comp xorLinear_residue (XorLinear.comp (xorLinear_clMul64_right _) xorLinear_setWidth)
  · exact fun c => XorLinear.comp (xorLinear_polyMultiply_left _ _) (XorLinear.comp xorLinear_residue xorLinear_setWidth)
  · exact fun a => XorLinear.comp (xorLinear_polyMultiply_right _ _) xorLinear_rev32
  · intro i hi j hj
    show residue (clMul64 ((1#64 <<< i).setWidth 128) ((1#32 <<< j).setWidth 128))
      = polyMultiply (residue ((1#64 <<< i).setWidth 128)) (rev32 (1#32 <<< j)) Config.poly
    rw [bit_setWidth i hi (by decide), bit_setWidth j hj (by decide), clMul64_bits i j (by omega),
      residue_bit _ (by omega), residue_bit _ (by omega), rev32_bit j hj,
      bit_eq_bitStepsQ_one Config.poly (31 - j) (by omega), polyMultiply_power_right, xPow, xPow, bitSteps_eq, bitSteps_eq,
      ← bitStepsQ_add]
    congr 1
    omega

/-- Multiplying by a constant whose reflection is x^m moves a value m places up. -/
theorem residue_clMul64_xPow (h : DWord) (k : Word) (m : Nat) (hk : rev32 k = xPow m) :
    residue (clMul64 (h.setWidth 128) (k.setWidth 128)) = bitSteps m (residue (h.setWidth 128)) := by
  rw [residue_clMul64, hk, ← mulModHw_eq, mulModHw_xPow]

theorem setWidth_setWidth_of_small {w u : Nat} (v : BitVec w) (h : v.toNat < 2 ^ u) : (v.setWidth u).setWidth w = v := by
  apply BitVec.eq_of_toNat_eq
  simp [Nat.mod_eq_of_lt h, Nat.mod_eq_of_lt v.isLt]

theorem accHigh_eq (v : Acc) : accHigh v = ((v >>> 64).setWidth 64).setWidth 128 := by
  rw [accHigh, setWidth_setWidth_of_small]
  have := v.isLt
  rw [BitVec.toNat_ushiftRight, Nat.shiftRight_eq_div_pow]
  omega

/-- A 128-bit value is its high half 64 places up XOR its low half. -/
theorem residue_halves (v : Acc) : residue v = bitSteps 64 (residue (accHigh v)) ^^^ residue (accLow v) := by
  have hs : v = (accHigh v <<< 64) ^^^ accLow v := by
    apply BitVec.eq_of_getLsbD_eq
    intro i hi
    simp only [accHigh, accLow, BitVec.getLsbD_xor, BitVec.getLsbD_shiftLeft, BitVec.getLsbD_ushiftRight,
      BitVec.getLsbD_setWidth]
    by_cases h : i < 64
    · simp [h, hi]
    · simp [h, hi]; congr 1; omega
  conv_lhs => rw [hs]
  rw [xorLinear_residue, accHigh_eq, residue_setWidth_shift 64 (by decide)]

theorem residue_foldAcc (v : Acc) (kh kl : Word) (m : Nat) (hh : rev32 kh = xPow (m + 64)) (hl : rev32 kl = xPow m) :
    residue (foldAcc v (kh.setWidth 128) (kl.setWidth 128)) = bitSteps m (residue v) := by
  rw [foldAcc, xorLinear_residue, accHigh_eq, accLow, residue_clMul64_xPow _ _ _ hh, residue_clMul64_xPow _ _ _ hl,
    residue_halves v, bitSteps_xor, ← bitSteps_add, accHigh_eq, accLow]

/-! ## The reduction constants (44_multistream.md R252) -/

set_option maxRecDepth 20000 in
theorem k576_eq : rev32 0xA6955F31#32 = xPow (512 + 64) := by decide
set_option maxRecDepth 20000 in
theorem k512_eq : rev32 0xAA97D41D#32 = xPow 512 := by decide
set_option maxRecDepth 20000 in
theorem k192_eq : rev32 0x6503EA99#32 = xPow (128 + 64) := by decide
set_option maxRecDepth 20000 in
theorem k128_eq : rev32 0x18571D18#32 = xPow 128 := by decide
set_option maxRecDepth 20000 in
theorem k96_eq : rev32 0xD7A01665#32 = xPow 96 := by decide
set_option maxRecDepth 20000 in
theorem k64_eq : rev32 0x3AAB4576#32 = xPow 64 := by decide

theorem kEntry_0 : kEntry reductionConstants 0 = (0xA6955F31#32).setWidth 128 := rfl
theorem kEntry_1 : kEntry reductionConstants 1 = (0xAA97D41D#32).setWidth 128 := rfl
theorem kEntry_2 : kEntry reductionConstants 2 = (0x6503EA99#32).setWidth 128 := rfl
theorem kEntry_3 : kEntry reductionConstants 3 = (0x18571D18#32).setWidth 128 := rfl
theorem kEntry_4 : kEntry reductionConstants 4 = (0xD7A01665#32).setWidth 128 := rfl
theorem kEntry_5 : kEntry reductionConstants 5 = (0x3AAB4576#32).setWidth 128 := rfl

/-! ## Carry-less-multiply lanes -/

theorem residue_reversed_byte (b : Byte) :
    bitSteps 32 (residue (b.reverse.setWidth 128)) = bitSteps 8 (b.setWidth 32) := by
  refine XorLinear.ext_bits (f := fun b : Byte => bitSteps 32 (residue (b.reverse.setWidth 128)))
    (g := fun b : Byte => bitSteps 8 (b.setWidth 32))
    (XorLinear.comp (xorLinear_bitSteps 32) (XorLinear.comp xorLinear_residue
      (XorLinear.comp (xorLinear_setWidth (w := 8)) xorLinear_reverse)))
    (XorLinear.comp (xorLinear_bitSteps 8) xorLinear_setWidth) ?_ b
  intro i hi
  show bitSteps 32 (residue ((1#8 <<< i).reverse.setWidth 128)) = bitSteps 8 ((1#8 <<< i).setWidth 32)
  have hr : ∀ i, i < 8 → (1#8 <<< i).reverse = 1#8 <<< (7 - i) := by decide
  rw [hr i hi, bit_setWidth (7 - i) (by omega) (by decide), residue_bit _ (by omega), ← xPow_add,
    bit_setWidth i hi (by decide), bit_eq_bitStepsQ_one Config.poly i (by omega), ← bitSteps_eq, xPow, ← bitSteps_add]
  congr 1
  omega

theorem chunk_step (v : Acc) (b : Byte) : (v <<< 8) ||| b.reverse.setWidth 128 = (v <<< 8) ^^^ b.reverse.setWidth 128 := by
  apply BitVec.eq_of_getLsbD_eq
  intro i hi
  simp only [BitVec.getLsbD_or, BitVec.getLsbD_xor, BitVec.getLsbD_shiftLeft, BitVec.getLsbD_setWidth]
  by_cases h : i < 8
  · simp [h]
  · simp [h, BitVec.getLsbD_of_ge _ i (by omega : 8 ≤ i)]

theorem residue_chunk (bs : List Byte) (v : Acc) (a : Nat) (hv : v.toNat < 2 ^ (8 * a)) (ha : a + bs.length ≤ 16) :
    bitSteps 32 (residue (bs.foldl (fun v b => (v <<< 8) ||| b.reverse.setWidth 128) v))
      = ext (bitSteps 32 (residue v)) bs := by
  induction bs generalizing v a with
  | nil => rfl
  | cons b bs ih =>
    rw [List.length_cons] at ha
    have h120 : v.toNat < 2 ^ 120 := lt_of_lt_of_le hv (Nat.pow_le_pow_right (by decide) (by omega))
    have hb : b.reverse.toNat < 2 ^ 8 := b.reverse.isLt
    have hbound : ((v <<< 8) ||| b.reverse.setWidth 128).toNat < 2 ^ (8 * (a + 1)) := by
      have h1 : (v <<< 8).toNat < 2 ^ (8 * (a + 1)) := by
        rw [BitVec.toNat_shiftLeft, Nat.shiftLeft_eq]
        refine lt_of_le_of_lt (Nat.mod_le _ _) ?_
        have e : 2 ^ (8 * (a + 1)) = 2 ^ (8 * a) * 2 ^ 8 := by rw [← pow_add]; congr 1
        rw [e]
        exact Nat.mul_lt_mul_of_pos_right hv (by decide)
      have h2 : (b.reverse.setWidth 128).toNat < 2 ^ (8 * (a + 1)) := by
        rw [BitVec.toNat_setWidth]
        refine lt_of_le_of_lt (Nat.mod_le _ _) (lt_of_lt_of_le hb ?_)
        exact Nat.pow_le_pow_right (by decide) (by omega)
      rw [BitVec.toNat_or]
      exact Nat.or_lt_two_pow h1 h2
    rw [List.foldl_cons, ih _ (a + 1) hbound (by omega), ext_cons]
    congr 1
    rw [chunk_step, xorLinear_residue, ← setWidth_setWidth_of_small (u := 120) v h120,
      residue_setWidth_shift 8 (by decide), byteStep_eq, bitSteps_xor, bitSteps_xor, residue_reversed_byte,
      ← bitSteps_add, ← bitSteps_add]

theorem residue_chunkPoly (bs : List Byte) : bitSteps 32 (residue (chunkPoly bs)) = ext 0#32 (bs.take 16) := by
  unfold chunkPoly
  rw [residue_chunk (bs.take 16) 0#128 0 (by decide) (by simp)]
  have : residue 0#128 = 0#32 := xorLinear_residue.map_zero
  rw [this, (xorLinear_bitSteps 32).map_zero]

/-- What the four accumulators stand for (44_multistream.md R248's invariant). -/
def foldsResidue (v : Folds) : Word :=
  bitSteps 384 (residue v.v0) ^^^ bitSteps 256 (residue v.v1) ^^^ bitSteps 128 (residue v.v2) ^^^ residue v.v3

theorem ext_split (c : Word) (bs : List Byte) (n m : Nat) :
    ext c (bs.take (n + m)) = ext 0#32 ((bs.drop n).take m) ^^^ bitSteps (8 * min m (bs.length - n)) (ext c (bs.take n)) := by
  rw [List.take_add, ext_append, ext_zero_left _ ((bs.drop n).take m)]
  simp

theorem foldsResidue_loadBlock (bs : List Byte) (h : 64 ≤ bs.length) :
    bitSteps 32 (foldsResidue (loadBlock bs)) = ext 0#32 (bs.take 64) := by
  have e1 := ext_split 0#32 bs 48 16
  have e2 := ext_split 0#32 bs 32 16
  have e3 := ext_split 0#32 bs 16 16
  have m1 : min 16 (bs.length - 48) = 16 := by omega
  have m2 : min 16 (bs.length - 32) = 16 := by omega
  have m3 : min 16 (bs.length - 16) = 16 := by omega
  rw [m1] at e1; rw [m2] at e2; rw [m3] at e3
  simp only [Nat.reduceAdd, Nat.reduceMul] at e1 e2 e3
  rw [e1, e2, e3]
  simp only [← residue_chunkPoly, foldsResidue, loadBlock, bitSteps_xor, ← bitSteps_add, Nat.reduceAdd]
  ac_rfl

theorem foldsResidue_foldBlocks (n : Nat) (v : Folds) (bs : List Byte) (h : 64 * n ≤ bs.length) :
    bitSteps 32 (foldsResidue (foldBlocks reductionConstants n v bs))
      = ext (bitSteps 32 (foldsResidue v)) (bs.take (64 * n)) := by
  induction n generalizing v bs with
  | zero => rfl
  | succ n ih =>
    have e : bs.take (64 * (n + 1)) = bs.take 64 ++ (bs.drop 64).take (64 * n) := by
      rw [← List.take_add]; congr 1; ring
    rw [foldBlocks, ih _ _ (by simp; omega), e, ext_append, ext_zero_left _ (bs.take 64),
      ← foldsResidue_loadBlock bs (by omega)]
    congr 1
    have hl : (bs.take 64).length = 64 := by simp; omega
    rw [hl]
    simp only [foldsResidue, kEntry_0, kEntry_1, xorLinear_residue _ _,
      residue_foldAcc _ _ _ 512 k576_eq k512_eq, bitSteps_xor, ← bitSteps_add, Nat.reduceAdd]
    ac_rfl

theorem residue_mergeFolds (v : Folds) : residue (mergeFolds reductionConstants v) = foldsResidue v := by
  simp only [mergeFolds, kEntry_2, kEntry_3, xorLinear_residue _ _, residue_foldAcc _ _ _ 128 k192_eq k128_eq,
    bitSteps_xor, ← bitSteps_add, Nat.reduceAdd, foldsResidue]

theorem clMul64_small (w : Nat) (hw : w ≤ 64) (h : BitVec w) (k : Word) :
    clMul64 (h.setWidth 128) (k.setWidth 128) >>> (w + 32) = 0#128 := by
  refine bilinear_ext_bits (f := fun (h : BitVec w) (k : Word) => clMul64 (h.setWidth 128) (k.setWidth 128) >>> (w + 32))
    (g := fun _ _ => 0#128) ?_ ?_ (fun _ _ _ => by simp) (fun _ _ _ => by simp) ?_ h k
  · exact fun c => XorLinear.comp (xorLinear_ushiftRight _) (XorLinear.comp (xorLinear_clMul64_left _) xorLinear_setWidth)
  · exact fun a => XorLinear.comp (xorLinear_ushiftRight _) (XorLinear.comp (xorLinear_clMul64_right _) xorLinear_setWidth)
  · intro i hi j hj
    show clMul64 ((1#w <<< i).setWidth 128) ((1#32 <<< j).setWidth 128) >>> (w + 32) = 0#128
    rw [bit_setWidth i hi (by omega), bit_setWidth j hj (by decide), clMul64_bits i j (by omega)]
    apply BitVec.eq_of_getLsbD_eq
    intro k hk
    simp only [BitVec.getLsbD_ushiftRight, BitVec.getLsbD_shiftLeft, BitVec.getLsbD_one, BitVec.getLsbD_zero]
    have : ¬ (w + 32 + k - (i + j) = 0) := by omega
    simp [this]

theorem toNat_lt_of_shift_zero (v : Acc) (n : Nat) (h : v >>> n = 0#128) : v.toNat < 2 ^ n := by
  have h0 := congrArg BitVec.toNat h
  rw [BitVec.toNat_ushiftRight, Nat.shiftRight_eq_div_pow] at h0
  have h1 : v.toNat / 2 ^ n = 0 := h0
  exact (Nat.div_eq_zero_iff.1 h1).resolve_left (by positivity)

/-- The reduction to 64 bits multiplies by x^32 (44_multistream.md R249). -/
theorem residue_foldTo64 (w : Acc) : residue (foldTo64 reductionConstants w) = bitSteps 32 (residue w) := by
  have ht : ∀ t : Acc, t >>> 96 = 0#128 → (t.extractLsb' 64 32).setWidth 128 = accHigh t := by
    intro t h
    have hlt := toNat_lt_of_shift_zero t 96 h
    apply BitVec.eq_of_toNat_eq
    simp only [accHigh, BitVec.toNat_setWidth, BitVec.extractLsb'_toNat, BitVec.toNat_ushiftRight,
      Nat.shiftRight_eq_div_pow]
    have : t.toNat / 2 ^ 64 < 2 ^ 32 := by omega
    rw [Nat.mod_eq_of_lt this]
    omega
  have hsmall : (clMul64 (accHigh w) (kEntry reductionConstants 4) ^^^ (accLow w <<< 32)) >>> 96 = 0#128 := by
    rw [BitVec.ushiftRight_xor_distrib, accHigh_eq, kEntry_4]
    have h1 := clMul64_small 64 le_rfl ((w >>> 64).setWidth 64) 0xD7A01665#32
    have h2 : (accLow w <<< 32) >>> 96 = 0#128 := by
      apply BitVec.eq_of_getLsbD_eq
      intro i hi
      simp only [accLow, BitVec.getLsbD_ushiftRight, BitVec.getLsbD_shiftLeft, BitVec.getLsbD_setWidth,
        BitVec.getLsbD_zero]
      have : ¬ (96 + i - 32 < 64) := by omega
      simp [this]
    rw [h1, h2]; rfl
  simp only [foldTo64]
  rw [ht _ hsmall]
  set t := clMul64 (accHigh w) (kEntry reductionConstants 4) ^^^ (accLow w <<< 32) with hdef
  have r1 : residue (clMul64 (accHigh t) (kEntry reductionConstants 5) ^^^ accLow t) = residue t := by
    rw [xorLinear_residue, accHigh_eq, kEntry_5, residue_clMul64_xPow _ _ _ k64_eq, ← accHigh_eq, ← residue_halves]
  rw [r1, hdef, xorLinear_residue, accHigh_eq, kEntry_4, residue_clMul64_xPow _ _ _ k96_eq, accLow,
    residue_setWidth_shift 32 (by decide), residue_halves w, bitSteps_xor, ← bitSteps_add, accHigh_eq, accLow]

theorem foldTo64_small (w : Acc) :
    ((foldTo64 reductionConstants w).setWidth 64).setWidth 128 = foldTo64 reductionConstants w := by
  apply setWidth_setWidth_of_small
  apply toNat_lt_of_shift_zero
  simp only [foldTo64]
  rw [BitVec.ushiftRight_xor_distrib, kEntry_5]
  have h1 := clMul64_small 32 (by decide) ((clMul64 (accHigh w) (kEntry reductionConstants 4)
    ^^^ (accLow w <<< 32)).extractLsb' 64 32) 0x3AAB4576#32
  have h2 : ∀ t : Acc, accLow t >>> 64 = 0#128 := by
    intro t
    apply BitVec.eq_of_getLsbD_eq
    intro i hi
    simp [accLow]
  rw [h1, h2]; rfl

theorem xorLinear_barrett (k : List DWord) : XorLinear (barrett k) := by
  intro a b
  simp only [barrett, BitVec.extractLsb'_xor, BitVec.setWidth_xor]
  have hl : ∀ x y z : Acc, clMul64 (x ^^^ y) z = clMul64 x z ^^^ clMul64 y z := fun x y z => xorLinear_clMul64_left z x y
  simp only [hl, BitVec.ushiftRight_xor_distrib, BitVec.setWidth_xor]
  ac_rfl

set_option maxRecDepth 20000 in
theorem barrett_bit : ∀ i, i < 64 → rev32 (barrett reductionConstants (1#128 <<< i)) = bitStepsQ Config.poly i one := by
  decide

/-- The Barrett step is exact (44_multistream.md R249). -/
theorem barrett_eq (d : DWord) : rev32 (barrett reductionConstants (d.setWidth 128)) = residue (d.setWidth 128) := by
  refine XorLinear.ext_bits (f := fun d : DWord => rev32 (barrett reductionConstants (d.setWidth 128)))
    (g := fun d : DWord => residue (d.setWidth 128))
    (XorLinear.comp xorLinear_rev32 (XorLinear.comp (xorLinear_barrett _) xorLinear_setWidth))
    (XorLinear.comp xorLinear_residue xorLinear_setWidth) ?_ d
  intro i hi
  show rev32 (barrett reductionConstants ((1#64 <<< i).setWidth 128)) = residue ((1#64 <<< i).setWidth 128)
  rw [bit_setWidth i hi (by decide), barrett_bit i hi, residue_bit i (by omega), xPow, bitSteps_eq]

theorem finalizeLane_eq (v : Folds) : finalizeLane reductionConstants v = bitSteps 32 (foldsResidue v) := by
  rw [finalizeLane, ← foldTo64_small, barrett_eq, foldTo64_small, residue_foldTo64, residue_mergeFolds]

/-- A carry-less-multiply lane computes Ext from 0 over whole 64-byte blocks (44_multistream.md R249). -/
theorem pclmulLane_eq (region : List Byte) (n : Nat) (h : region.length = 64 * (n + 1)) :
    pclmulLane reductionConstants region = ext 0#32 region := by
  have hn : region.length / 64 - 1 = n := by omega
  rw [pclmulLane, hn, finalizeLane_eq, foldsResidue_foldBlocks _ _ _ (by simp; omega),
    foldsResidue_loadBlock _ (by omega), ← ext_append]
  congr 1
  rw [List.take_of_length_le (l := region.drop 64) (by simp; omega), List.take_append_drop]

/-! ## The sequential unit, Fold3 and recombination -/

theorem leBytes_word8 (b0 b1 b2 b3 b4 b5 b6 b7 : Byte) (rest : List Byte) :
    leBytes (word8 (b0 :: b1 :: b2 :: b3 :: b4 :: b5 :: b6 :: b7 :: rest)) 8 = [b0, b1, b2, b3, b4, b5, b6, b7] := by
  have hw : word8 (b0 :: b1 :: b2 :: b3 :: b4 :: b5 :: b6 :: b7 :: rest)
      = (b7 ++ b6 ++ b5 ++ b4) ++ (b3 ++ b2 ++ b1 ++ b0) := rfl
  rw [hw]
  simp only [leBytes, List.cons.injEq, and_true]
  refine ⟨?_, ?_, ?_, ?_, ?_, ?_, ?_, ?_⟩ <;>
  · apply BitVec.eq_of_getLsbD_eq
    intro i hi
    simp only [BitVec.getLsbD_setWidth, BitVec.getLsbD_ushiftRight, BitVec.getLsbD_append]
    interval_cases i <;> simp

theorem crcStep_word8 (c : Word) (bs : List Byte) (h : 8 ≤ bs.length) : crcStep c (word8 bs) 8 = ext c (bs.take 8) := by
  match bs, h with
  | b0 :: b1 :: b2 :: b3 :: b4 :: b5 :: b6 :: b7 :: rest, _ => rw [crcStep, leBytes_word8]; rfl

theorem wordSteps_eq (n : Nat) (c : Word) (bs : List Byte) (h : 8 * n ≤ bs.length) :
    wordSteps n c bs = ext c (bs.take (8 * n)) := by
  induction n generalizing c bs with
  | zero => rfl
  | succ n ih =>
    have e : bs.take (8 * (n + 1)) = bs.take 8 ++ (bs.drop 8).take (8 * n) := by
      rw [← List.take_add]; congr 1; ring
    rw [wordSteps, crcStep_word8 c bs (by omega), ih _ _ (by simp; omega), e, ext_append]

theorem crcStep_byte (c : Word) (b : Byte) : crcStep c (b.setWidth 64) 1 = byteStep c b := by
  have : (b.setWidth 64).setWidth 8 = b := by simp
  rw [crcStep, leBytes, leBytes, ext_cons, ext_nil, this]

/-- `Seq` is Ext (44_multistream.md R242). -/
theorem seqUnit_eq (c : Word) (bs : List Byte) : seqUnit c bs = ext c bs := by
  have hb : (fun v (b : Byte) => crcStep v (b.setWidth 64) 1) = byteStep := by
    funext v b; exact crcStep_byte v b
  simp only [seqUnit, hb]
  rw [wordSteps_eq _ _ _ (Nat.mul_div_le _ _)]
  exact (ext_append c _ _).symm.trans (by rw [List.take_append_drop])

theorem zConstHw_multiple (n : Nat) (hn : n < 2 ^ 64) (h4 : n % 4 = 0) : zConstHw powersTable n = xPow (8 * n) := by
  rw [zConstHw_eq n hn, zeroConstant]
  congr 1
  omega

theorem mulModHw_zConstHw (c : Word) (n : Nat) (hn : n < 2 ^ 64) (h4 : n % 4 = 0) :
    mulModHw c (zConstHw powersTable n) = extZ c n := by
  rw [zConstHw_multiple n hn h4, mulModHw_xPow, extZ_eq]

/-- The Fold3 combine (44_multistream.md R245). -/
theorem fold3Combine_eq (c0 c1 c2 : Word) (n : Nat) (hn : 2 * n < 2 ^ 64) (h4 : n % 4 = 0) :
    fold3Combine powersTable c0 c1 c2 n = extZ (extZ c0 n ^^^ c1) n ^^^ c2 := by
  have h0 := mulModHw_zConstHw c0 (2 * n) hn (by omega)
  have h1 := mulModHw_zConstHw c1 n (by omega) h4
  rw [mulModHw_eq, ← reduceProduct_clMul] at h0 h1
  rw [fold3Combine, xorLinear_reduceProduct, h0, h1, extZ_xor, extZ_extZ, Nat.two_mul]
  ac_rfl

theorem slice_length (bs : List Byte) (s n : Nat) (h : s + n ≤ bs.length) : (slice bs s n).length = n := by
  simp [slice]; omega

theorem take_add_slice (bs : List Byte) (s n : Nat) : bs.take (s + n) = bs.take s ++ slice bs s n := List.take_add

theorem fold3Extend_eq (m : Bool) (c : Word) (bs : List Byte) (h : bs.length < 2 ^ 64) :
    fold3Extend (builtTables m) c bs = ext c bs := by
  have hp : (builtTables m).powers = powersTable := rfl
  simp only [fold3Extend, seqUnit_eq, hp]
  set n := bs.length / 24 * 8 with hn
  have h3 : 3 * n ≤ bs.length := by omega
  have h4 : n % 4 = 0 := by omega
  rw [fold3Combine_eq _ _ _ n (by omega) h4]
  have e1 : extZ (ext c (slice bs 0 n)) n ^^^ ext 0#32 (slice bs n n) = ext c (bs.take (n + n)) := by
    rw [take_add_slice, ext_append_eq_extZ, slice_length bs n n (by omega)]; rfl
  have e2 : extZ (ext c (bs.take (n + n))) n ^^^ ext 0#32 (slice bs (2 * n) n) = ext c (bs.take (2 * n + n)) := by
    rw [take_add_slice bs (2 * n) n, ext_append_eq_extZ, slice_length bs (2 * n) n (by omega), ← Nat.two_mul]
  rw [e1, e2, show 2 * n + n = 3 * n by ring, ← ext_append, List.take_append_drop]

/-- The recombination of lane values that are the CRCs of consecutive regions (44_multistream.md R250). -/
theorem recombine_lanes (c : Word) (bs : List Byte) (span n : Nat) (lane : Nat → Word) (h4 : span % 4 = 0)
    (h64 : span < 2 ^ 64) (hlen : (n + 1) * span ≤ bs.length) (h0 : lane 0 = ext c (slice bs 0 span))
    (hl : ∀ i, 1 ≤ i → i ≤ n → lane i = ext 0#32 (slice bs (i * span) span)) :
    recombine (zConstHw powersTable span) ((List.range (n + 1)).map lane) = ext c (bs.take ((n + 1) * span)) := by
  have hr : recombine (zConstHw powersTable span) ((List.range (n + 1)).map lane)
      = ((List.range n).map (fun i => lane (i + 1))).foldl
          (fun acc v => mulModHw acc (zConstHw powersTable span) ^^^ v) (lane 0) := by
    rw [List.range_succ_eq_map, List.map_cons, recombine, List.map_map]; rfl
  rw [hr]
  clear hr
  induction n with
  | zero => simp [h0, slice]
  | succ n ih =>
    rw [List.range_succ, List.map_append, List.foldl_append, List.map_singleton, List.foldl_cons, List.foldl_nil,
      ih (by nlinarith) (fun i h1 h2 => hl i h1 (by omega)), mulModHw_zConstHw _ _ h64 h4, hl (n + 1) (by omega) le_rfl]
    have e : (n + 1 + 1) * span = (n + 1) * span + span := by ring
    rw [e, take_add_slice, ext_append_eq_extZ, slice_length bs _ _ (by linarith)]

theorem largeExtend_eq (c : Word) (bs : List Byte) (ncrc n : Nat) (h : bs.length < 2 ^ 64) (hc : 1 ≤ ncrc)
    (hn : 1 ≤ n) (hbig : n * 64 ≤ bs.length) : largeExtend (builtTables true) ncrc n c bs = ext c bs := by
  have hp : (builtTables true).powers = powersTable := rfl
  have hk : (builtTables true).kconst = reductionConstants := rfl
  simp only [largeExtend, seqUnit_eq, hp]
  set blocks := bs.length / (n * 64) with hb
  have hpos : 0 < n * 64 := by omega
  have h1 : 1 ≤ blocks := by rw [hb]; exact (Nat.one_le_div_iff hpos).2 hbig
  have hle : n * (blocks * 64) ≤ bs.length := by
    have := Nat.mul_div_le bs.length (n * 64)
    rw [← hb] at this
    calc n * (blocks * 64) = n * 64 * blocks := by ring
      _ ≤ _ := this
  obtain ⟨k, rfl⟩ : ∃ k, n = k + 1 := ⟨n - 1, by omega⟩
  have hspan : blocks * 64 ≤ bs.length := le_trans (Nat.le_mul_of_pos_left _ (by omega)) hle
  have hregion : ∀ i, i ≤ k → (slice bs (i * (blocks * 64)) (blocks * 64)).length = blocks * 64 := by
    intro i hi
    apply slice_length
    have : i * (blocks * 64) ≤ k * (blocks * 64) := Nat.mul_le_mul_right _ hi
    have e : (k + 1) * (blocks * 64) = k * (blocks * 64) + blocks * 64 := by ring
    omega
  have hlanes : ∀ i, i ≤ k → laneValue (builtTables true) ncrc c bs (blocks * 64) i
      = ext (if i = 0 then c else 0#32) (slice bs (i * (blocks * 64)) (blocks * 64)) := by
    intro i hi
    rw [laneValue]
    split
    · rw [seqUnit_eq]
    · rename_i hlt
      have : i ≠ 0 := by omega
      rw [if_neg this, hk, pclmulLane_eq _ (blocks - 1) (by rw [hregion i hi]; omega)]
  rw [recombine_lanes c bs (blocks * 64) k _ (by omega) (by omega) hle (by simpa using hlanes 0 (by omega))
    (fun i hi1 hi2 => by rw [hlanes i hi2, if_neg (by omega)]), ← ext_append, List.take_append_drop]

/-- The MULTI EXTEND datapath computes Ext for every legal lane configuration (44_multistream.md R257). -/
theorem multiExtend_eq (t : Selection) (c : Word) (bs : List Byte) (h : bs.length < 2 ^ 64)
    (hl : selectionLegal true t = true) : multiExtend (builtTables true) t c bs = ext c bs := by
  have hlegal : t.ncrc ≠ 0#2 ∧ 2 ≤ t.ncrc.toNat + t.npclmul.toNat := by
    simp only [selectionLegal, Bool.and_eq_true, bne_iff_ne, ne_eq, decide_eq_true_eq] at hl
    exact ⟨hl.1.2, hl.2⟩
  have hc : 1 ≤ t.ncrc.toNat := by
    rcases Nat.eq_zero_or_pos t.ncrc.toNat with h0 | h0
    · exact absurd (BitVec.eq_of_toNat_eq (by simpa using h0)) hlegal.1
    · exact h0
  have h3 : t.ncrc.toNat ≤ 3 := by have := t.ncrc.isLt; omega
  have h3' : t.npclmul.toNat ≤ 3 := by have := t.npclmul.isLt; omega
  rw [multiExtend]
  split
  · exact seqUnit_eq c bs
  · split
    · cases t.strategy
      · exact fold3Extend_eq true c bs h
      · exact seqUnit_eq c bs
    · rename_i hbig
      simp only [Config.mediumCutoff, not_lt] at hbig
      exact largeExtend_eq c bs _ _ h hc (by omega) (by omega)

end Sys2Proof.Laws
end

