-- ==== Sys2Proof/Laws/State.lean ====
section
/-!
SUPPORT. What each shared operation leaves in each field of the state, one lemma for each field and operation.
-/

namespace Sys2Proof.Machine

/-! ### recordError -/

@[simp] theorem recordError_params (c : ErrorCode) (s : State) : (recordError c s).params = s.params := rfl
@[simp] theorem recordError_seq (c : ErrorCode) (s : State) : (recordError c s).seq = s.seq := rfl
@[simp] theorem recordError_done (c : ErrorCode) (s : State) : (recordError c s).done = s.done := rfl
@[simp] theorem recordError_err (c : ErrorCode) (s : State) : (recordError c s).err = true := rfl
@[simp] theorem recordError_ecode (c : ErrorCode) (s : State) : (recordError c s).ecode = c := rfl
@[simp] theorem recordError_irqEn (c : ErrorCode) (s : State) : (recordError c s).irqEn = s.irqEn := rfl
@[simp] theorem recordError_sel (c : ErrorCode) (s : State) : (recordError c s).sel = s.sel := rfl
@[simp] theorem recordError_crcA (c : ErrorCode) (s : State) : (recordError c s).crcA = s.crcA := rfl
@[simp] theorem recordError_crcB (c : ErrorCode) (s : State) : (recordError c s).crcB = s.crcB := rfl
@[simp] theorem recordError_lenLo (c : ErrorCode) (s : State) : (recordError c s).lenLo = s.lenLo := rfl
@[simp] theorem recordError_lenHi (c : ErrorCode) (s : State) : (recordError c s).lenHi = s.lenHi := rfl
@[simp] theorem recordError_addrLo (c : ErrorCode) (s : State) : (recordError c s).addrLo = s.addrLo := rfl
@[simp] theorem recordError_addrHi (c : ErrorCode) (s : State) : (recordError c s).addrHi = s.addrHi := rfl
@[simp] theorem recordError_result (c : ErrorCode) (s : State) : (recordError c s).result = s.result := rfl
@[simp] theorem recordError_resultHi (c : ErrorCode) (s : State) : (recordError c s).resultHi = s.resultHi := rfl
@[simp] theorem recordError_ctx (c : ErrorCode) (s : State) : (recordError c s).ctx = s.ctx := rfl
@[simp] theorem recordError_bufferTouched (c : ErrorCode) (s : State) : (recordError c s).bufferTouched = s.bufferTouched := rfl
@[simp] theorem recordError_readFailed (c : ErrorCode) (s : State) : (recordError c s).readFailed = s.readFailed := rfl
@[simp] theorem recordError_tables (c : ErrorCode) (s : State) : (recordError c s).tables = s.tables := rfl
@[simp] theorem recordError_mem (c : ErrorCode) (s : State) : (recordError c s).mem = s.mem := rfl
@[simp] theorem recordError_unseen (c : ErrorCode) (s : State) : (recordError c s).unseen = s.unseen := rfl
@[simp] theorem recordError_inputs (c : ErrorCode) (s : State) : (recordError c s).inputs = s.inputs := rfl
@[simp] theorem recordError_resp (c : ErrorCode) (s : State) : (recordError c s).resp = s.resp := rfl
@[simp] theorem recordError_draws (c : ErrorCode) (s : State) : (recordError c s).draws = s.draws := rfl

/-! ### failCommand -/

@[simp] theorem failCommand_params (c : ErrorCode) (s : State) : (failCommand c s).params = s.params := rfl
@[simp] theorem failCommand_seq (c : ErrorCode) (s : State) : (failCommand c s).seq = Seq.idle := rfl
@[simp] theorem failCommand_done (c : ErrorCode) (s : State) : (failCommand c s).done = s.done := rfl
@[simp] theorem failCommand_err (c : ErrorCode) (s : State) : (failCommand c s).err = true := rfl
@[simp] theorem failCommand_ecode (c : ErrorCode) (s : State) : (failCommand c s).ecode = c := rfl
@[simp] theorem failCommand_irqEn (c : ErrorCode) (s : State) : (failCommand c s).irqEn = s.irqEn := rfl
@[simp] theorem failCommand_sel (c : ErrorCode) (s : State) : (failCommand c s).sel = s.sel := rfl
@[simp] theorem failCommand_crcA (c : ErrorCode) (s : State) : (failCommand c s).crcA = s.crcA := rfl
@[simp] theorem failCommand_crcB (c : ErrorCode) (s : State) : (failCommand c s).crcB = s.crcB := rfl
@[simp] theorem failCommand_lenLo (c : ErrorCode) (s : State) : (failCommand c s).lenLo = s.lenLo := rfl
@[simp] theorem failCommand_lenHi (c : ErrorCode) (s : State) : (failCommand c s).lenHi = s.lenHi := rfl
@[simp] theorem failCommand_addrLo (c : ErrorCode) (s : State) : (failCommand c s).addrLo = s.addrLo := rfl
@[simp] theorem failCommand_addrHi (c : ErrorCode) (s : State) : (failCommand c s).addrHi = s.addrHi := rfl
@[simp] theorem failCommand_result (c : ErrorCode) (s : State) : (failCommand c s).result = s.result := rfl
@[simp] theorem failCommand_resultHi (c : ErrorCode) (s : State) : (failCommand c s).resultHi = s.resultHi := rfl
@[simp] theorem failCommand_ctx (c : ErrorCode) (s : State) : (failCommand c s).ctx = s.ctx := rfl
@[simp] theorem failCommand_bufferTouched (c : ErrorCode) (s : State) : (failCommand c s).bufferTouched = s.bufferTouched := rfl
@[simp] theorem failCommand_readFailed (c : ErrorCode) (s : State) : (failCommand c s).readFailed = s.readFailed := rfl
@[simp] theorem failCommand_tables (c : ErrorCode) (s : State) : (failCommand c s).tables = s.tables := rfl
@[simp] theorem failCommand_mem (c : ErrorCode) (s : State) : (failCommand c s).mem = s.mem := rfl
@[simp] theorem failCommand_unseen (c : ErrorCode) (s : State) : (failCommand c s).unseen = s.unseen := rfl
@[simp] theorem failCommand_inputs (c : ErrorCode) (s : State) : (failCommand c s).inputs = s.inputs := rfl
@[simp] theorem failCommand_resp (c : ErrorCode) (s : State) : (failCommand c s).resp = s.resp := rfl
@[simp] theorem failCommand_draws (c : ErrorCode) (s : State) : (failCommand c s).draws = s.draws := rfl

/-! ### finishPlain -/

@[simp] theorem finishPlain_params (s : State) : (finishPlain s).params = s.params := rfl
@[simp] theorem finishPlain_seq (s : State) : (finishPlain s).seq = Seq.idle := rfl
@[simp] theorem finishPlain_done (s : State) : (finishPlain s).done = true := rfl
@[simp] theorem finishPlain_err (s : State) : (finishPlain s).err = s.err := rfl
@[simp] theorem finishPlain_ecode (s : State) : (finishPlain s).ecode = s.ecode := rfl
@[simp] theorem finishPlain_irqEn (s : State) : (finishPlain s).irqEn = s.irqEn := rfl
@[simp] theorem finishPlain_sel (s : State) : (finishPlain s).sel = s.sel := rfl
@[simp] theorem finishPlain_crcA (s : State) : (finishPlain s).crcA = s.crcA := rfl
@[simp] theorem finishPlain_crcB (s : State) : (finishPlain s).crcB = s.crcB := rfl
@[simp] theorem finishPlain_lenLo (s : State) : (finishPlain s).lenLo = s.lenLo := rfl
@[simp] theorem finishPlain_lenHi (s : State) : (finishPlain s).lenHi = s.lenHi := rfl
@[simp] theorem finishPlain_addrLo (s : State) : (finishPlain s).addrLo = s.addrLo := rfl
@[simp] theorem finishPlain_addrHi (s : State) : (finishPlain s).addrHi = s.addrHi := rfl
@[simp] theorem finishPlain_result (s : State) : (finishPlain s).result = s.result := rfl
@[simp] theorem finishPlain_resultHi (s : State) : (finishPlain s).resultHi = s.resultHi := rfl
@[simp] theorem finishPlain_ctx (s : State) : (finishPlain s).ctx = s.ctx := rfl
@[simp] theorem finishPlain_bufferTouched (s : State) : (finishPlain s).bufferTouched = s.bufferTouched := rfl
@[simp] theorem finishPlain_readFailed (s : State) : (finishPlain s).readFailed = s.readFailed := rfl
@[simp] theorem finishPlain_tables (s : State) : (finishPlain s).tables = s.tables := rfl
@[simp] theorem finishPlain_mem (s : State) : (finishPlain s).mem = s.mem := rfl
@[simp] theorem finishPlain_unseen (s : State) : (finishPlain s).unseen = s.unseen := rfl
@[simp] theorem finishPlain_inputs (s : State) : (finishPlain s).inputs = s.inputs := rfl
@[simp] theorem finishPlain_resp (s : State) : (finishPlain s).resp = s.resp := rfl
@[simp] theorem finishPlain_draws (s : State) : (finishPlain s).draws = s.draws := rfl

/-! ### finishWide -/

@[simp] theorem finishWide_params (v : DWord) (s : State) : (finishWide v s).params = s.params := rfl
@[simp] theorem finishWide_seq (v : DWord) (s : State) : (finishWide v s).seq = Seq.idle := rfl
@[simp] theorem finishWide_done (v : DWord) (s : State) : (finishWide v s).done = true := rfl
@[simp] theorem finishWide_err (v : DWord) (s : State) : (finishWide v s).err = s.err := rfl
@[simp] theorem finishWide_ecode (v : DWord) (s : State) : (finishWide v s).ecode = s.ecode := rfl
@[simp] theorem finishWide_irqEn (v : DWord) (s : State) : (finishWide v s).irqEn = s.irqEn := rfl
@[simp] theorem finishWide_sel (v : DWord) (s : State) : (finishWide v s).sel = s.sel := rfl
@[simp] theorem finishWide_crcA (v : DWord) (s : State) : (finishWide v s).crcA = s.crcA := rfl
@[simp] theorem finishWide_crcB (v : DWord) (s : State) : (finishWide v s).crcB = s.crcB := rfl
@[simp] theorem finishWide_lenLo (v : DWord) (s : State) : (finishWide v s).lenLo = s.lenLo := rfl
@[simp] theorem finishWide_lenHi (v : DWord) (s : State) : (finishWide v s).lenHi = s.lenHi := rfl
@[simp] theorem finishWide_addrLo (v : DWord) (s : State) : (finishWide v s).addrLo = s.addrLo := rfl
@[simp] theorem finishWide_addrHi (v : DWord) (s : State) : (finishWide v s).addrHi = s.addrHi := rfl
@[simp] theorem finishWide_result (v : DWord) (s : State) : (finishWide v s).result = lowWord v := rfl
@[simp] theorem finishWide_resultHi (v : DWord) (s : State) : (finishWide v s).resultHi = highWord v := rfl
@[simp] theorem finishWide_ctx (v : DWord) (s : State) : (finishWide v s).ctx = s.ctx := rfl
@[simp] theorem finishWide_bufferTouched (v : DWord) (s : State) : (finishWide v s).bufferTouched = s.bufferTouched := rfl
@[simp] theorem finishWide_readFailed (v : DWord) (s : State) : (finishWide v s).readFailed = s.readFailed := rfl
@[simp] theorem finishWide_tables (v : DWord) (s : State) : (finishWide v s).tables = s.tables := rfl
@[simp] theorem finishWide_mem (v : DWord) (s : State) : (finishWide v s).mem = s.mem := rfl
@[simp] theorem finishWide_unseen (v : DWord) (s : State) : (finishWide v s).unseen = s.unseen := rfl
@[simp] theorem finishWide_inputs (v : DWord) (s : State) : (finishWide v s).inputs = s.inputs := rfl
@[simp] theorem finishWide_resp (v : DWord) (s : State) : (finishWide v s).resp = s.resp := rfl
@[simp] theorem finishWide_draws (v : DWord) (s : State) : (finishWide v s).draws = s.draws := rfl

/-! ### finishWord -/

@[simp] theorem finishWord_params (v : Word) (s : State) : (finishWord v s).params = s.params := rfl
@[simp] theorem finishWord_seq (v : Word) (s : State) : (finishWord v s).seq = Seq.idle := rfl
@[simp] theorem finishWord_done (v : Word) (s : State) : (finishWord v s).done = true := rfl
@[simp] theorem finishWord_err (v : Word) (s : State) : (finishWord v s).err = s.err := rfl
@[simp] theorem finishWord_ecode (v : Word) (s : State) : (finishWord v s).ecode = s.ecode := rfl
@[simp] theorem finishWord_irqEn (v : Word) (s : State) : (finishWord v s).irqEn = s.irqEn := rfl
@[simp] theorem finishWord_sel (v : Word) (s : State) : (finishWord v s).sel = s.sel := rfl
@[simp] theorem finishWord_crcA (v : Word) (s : State) : (finishWord v s).crcA = s.crcA := rfl
@[simp] theorem finishWord_crcB (v : Word) (s : State) : (finishWord v s).crcB = s.crcB := rfl
@[simp] theorem finishWord_lenLo (v : Word) (s : State) : (finishWord v s).lenLo = s.lenLo := rfl
@[simp] theorem finishWord_lenHi (v : Word) (s : State) : (finishWord v s).lenHi = s.lenHi := rfl
@[simp] theorem finishWord_addrLo (v : Word) (s : State) : (finishWord v s).addrLo = s.addrLo := rfl
@[simp] theorem finishWord_addrHi (v : Word) (s : State) : (finishWord v s).addrHi = s.addrHi := rfl
@[simp] theorem finishWord_result (v : Word) (s : State) : (finishWord v s).result = v := rfl
@[simp] theorem finishWord_resultHi (v : Word) (s : State) : (finishWord v s).resultHi = 0#32 := rfl
@[simp] theorem finishWord_ctx (v : Word) (s : State) : (finishWord v s).ctx = s.ctx := rfl
@[simp] theorem finishWord_bufferTouched (v : Word) (s : State) : (finishWord v s).bufferTouched = s.bufferTouched := rfl
@[simp] theorem finishWord_readFailed (v : Word) (s : State) : (finishWord v s).readFailed = s.readFailed := rfl
@[simp] theorem finishWord_tables (v : Word) (s : State) : (finishWord v s).tables = s.tables := rfl
@[simp] theorem finishWord_mem (v : Word) (s : State) : (finishWord v s).mem = s.mem := rfl
@[simp] theorem finishWord_unseen (v : Word) (s : State) : (finishWord v s).unseen = s.unseen := rfl
@[simp] theorem finishWord_inputs (v : Word) (s : State) : (finishWord v s).inputs = s.inputs := rfl
@[simp] theorem finishWord_resp (v : Word) (s : State) : (finishWord v s).resp = s.resp := rfl
@[simp] theorem finishWord_draws (v : Word) (s : State) : (finishWord v s).draws = s.draws := rfl

/-! ### finishFree -/

@[simp] theorem finishFree_params (s : State) : (finishFree s).params = s.params := rfl
@[simp] theorem finishFree_seq (s : State) : (finishFree s).seq = Seq.idle := rfl
@[simp] theorem finishFree_done (s : State) : (finishFree s).done = true := rfl
@[simp] theorem finishFree_err (s : State) : (finishFree s).err = s.err := rfl
@[simp] theorem finishFree_ecode (s : State) : (finishFree s).ecode = s.ecode := rfl
@[simp] theorem finishFree_irqEn (s : State) : (finishFree s).irqEn = s.irqEn := rfl
@[simp] theorem finishFree_sel (s : State) : (finishFree s).sel = s.sel := rfl
@[simp] theorem finishFree_crcA (s : State) : (finishFree s).crcA = s.crcA := rfl
@[simp] theorem finishFree_crcB (s : State) : (finishFree s).crcB = s.crcB := rfl
@[simp] theorem finishFree_lenLo (s : State) : (finishFree s).lenLo = s.lenLo := rfl
@[simp] theorem finishFree_lenHi (s : State) : (finishFree s).lenHi = s.lenHi := rfl
@[simp] theorem finishFree_addrLo (s : State) : (finishFree s).addrLo = s.addrLo := rfl
@[simp] theorem finishFree_addrHi (s : State) : (finishFree s).addrHi = s.addrHi := rfl
@[simp] theorem finishFree_result (s : State) : (finishFree s).result = Config.freeWord s.draws := rfl
@[simp] theorem finishFree_resultHi (s : State) : (finishFree s).resultHi = 0#32 := rfl
@[simp] theorem finishFree_ctx (s : State) : (finishFree s).ctx = s.ctx := rfl
@[simp] theorem finishFree_bufferTouched (s : State) : (finishFree s).bufferTouched = s.bufferTouched := rfl
@[simp] theorem finishFree_readFailed (s : State) : (finishFree s).readFailed = s.readFailed := rfl
@[simp] theorem finishFree_tables (s : State) : (finishFree s).tables = s.tables := rfl
@[simp] theorem finishFree_mem (s : State) : (finishFree s).mem = s.mem := rfl
@[simp] theorem finishFree_unseen (s : State) : (finishFree s).unseen = s.unseen := rfl
@[simp] theorem finishFree_inputs (s : State) : (finishFree s).inputs = s.inputs := rfl
@[simp] theorem finishFree_resp (s : State) : (finishFree s).resp = s.resp := rfl
@[simp] theorem finishFree_draws (s : State) : (finishFree s).draws = s.draws + 1 := rfl

/-! ### latch -/

@[simp] theorem latch_params (w : Word) (s : State) : (latch w s).params = s.params := rfl
@[simp] theorem latch_seq (w : Word) (s : State) : (latch w s).seq = Seq.busy := rfl
@[simp] theorem latch_done (w : Word) (s : State) : (latch w s).done = false := rfl
@[simp] theorem latch_err (w : Word) (s : State) : (latch w s).err = s.err := rfl
@[simp] theorem latch_ecode (w : Word) (s : State) : (latch w s).ecode = s.ecode := rfl
@[simp] theorem latch_irqEn (w : Word) (s : State) : (latch w s).irqEn = s.irqEn := rfl
@[simp] theorem latch_sel (w : Word) (s : State) : (latch w s).sel = s.sel := rfl
@[simp] theorem latch_crcA (w : Word) (s : State) : (latch w s).crcA = s.crcA := rfl
@[simp] theorem latch_crcB (w : Word) (s : State) : (latch w s).crcB = s.crcB := rfl
@[simp] theorem latch_lenLo (w : Word) (s : State) : (latch w s).lenLo = s.lenLo := rfl
@[simp] theorem latch_lenHi (w : Word) (s : State) : (latch w s).lenHi = s.lenHi := rfl
@[simp] theorem latch_addrLo (w : Word) (s : State) : (latch w s).addrLo = s.addrLo := rfl
@[simp] theorem latch_addrHi (w : Word) (s : State) : (latch w s).addrHi = s.addrHi := rfl
@[simp] theorem latch_result (w : Word) (s : State) : (latch w s).result = s.result := rfl
@[simp] theorem latch_resultHi (w : Word) (s : State) : (latch w s).resultHi = s.resultHi := rfl
@[simp] theorem latch_ctx (w : Word) (s : State) : (latch w s).ctx = contextOf w s := rfl
@[simp] theorem latch_bufferTouched (w : Word) (s : State) : (latch w s).bufferTouched = hidesStore (contextOf w s) s.unseen := rfl
@[simp] theorem latch_readFailed (w : Word) (s : State) : (latch w s).readFailed = false := rfl
@[simp] theorem latch_tables (w : Word) (s : State) : (latch w s).tables = s.tables := rfl
@[simp] theorem latch_mem (w : Word) (s : State) : (latch w s).mem = s.mem := rfl
@[simp] theorem latch_unseen (w : Word) (s : State) : (latch w s).unseen = s.unseen := rfl
@[simp] theorem latch_inputs (w : Word) (s : State) : (latch w s).inputs = s.inputs := rfl
@[simp] theorem latch_resp (w : Word) (s : State) : (latch w s).resp = s.resp := rfl
@[simp] theorem latch_draws (w : Word) (s : State) : (latch w s).draws = s.draws := rfl

/-! ### touch -/

@[simp] theorem touch_params (a : Nat) (s : State) : (touch a s).params = s.params := rfl
@[simp] theorem touch_seq (a : Nat) (s : State) : (touch a s).seq = s.seq := rfl
@[simp] theorem touch_done (a : Nat) (s : State) : (touch a s).done = s.done := rfl
@[simp] theorem touch_err (a : Nat) (s : State) : (touch a s).err = s.err := rfl
@[simp] theorem touch_ecode (a : Nat) (s : State) : (touch a s).ecode = s.ecode := rfl
@[simp] theorem touch_irqEn (a : Nat) (s : State) : (touch a s).irqEn = s.irqEn := rfl
@[simp] theorem touch_sel (a : Nat) (s : State) : (touch a s).sel = s.sel := rfl
@[simp] theorem touch_crcA (a : Nat) (s : State) : (touch a s).crcA = s.crcA := rfl
@[simp] theorem touch_crcB (a : Nat) (s : State) : (touch a s).crcB = s.crcB := rfl
@[simp] theorem touch_lenLo (a : Nat) (s : State) : (touch a s).lenLo = s.lenLo := rfl
@[simp] theorem touch_lenHi (a : Nat) (s : State) : (touch a s).lenHi = s.lenHi := rfl
@[simp] theorem touch_addrLo (a : Nat) (s : State) : (touch a s).addrLo = s.addrLo := rfl
@[simp] theorem touch_addrHi (a : Nat) (s : State) : (touch a s).addrHi = s.addrHi := rfl
@[simp] theorem touch_result (a : Nat) (s : State) : (touch a s).result = s.result := rfl
@[simp] theorem touch_resultHi (a : Nat) (s : State) : (touch a s).resultHi = s.resultHi := rfl
@[simp] theorem touch_ctx (a : Nat) (s : State) : (touch a s).ctx = s.ctx := rfl
@[simp] theorem touch_bufferTouched (a : Nat) (s : State) : (touch a s).bufferTouched = (s.bufferTouched || (s.seq == .busy && s.ctx.covers a)) := rfl
@[simp] theorem touch_readFailed (a : Nat) (s : State) : (touch a s).readFailed = s.readFailed := rfl
@[simp] theorem touch_tables (a : Nat) (s : State) : (touch a s).tables = s.tables := rfl
@[simp] theorem touch_mem (a : Nat) (s : State) : (touch a s).mem = s.mem := rfl
@[simp] theorem touch_unseen (a : Nat) (s : State) : (touch a s).unseen = s.unseen := rfl
@[simp] theorem touch_inputs (a : Nat) (s : State) : (touch a s).inputs = s.inputs := rfl
@[simp] theorem touch_resp (a : Nat) (s : State) : (touch a s).resp = s.resp := rfl
@[simp] theorem touch_draws (a : Nat) (s : State) : (touch a s).draws = s.draws := rfl

/-! ### clearDone -/

@[simp] theorem clearDone_params (w : Word) (s : State) : (clearDone w s).params = s.params := rfl
@[simp] theorem clearDone_seq (w : Word) (s : State) : (clearDone w s).seq = s.seq := rfl
@[simp] theorem clearDone_done (w : Word) (s : State) : (clearDone w s).done = (s.done && !w.getLsbD 2) := rfl
@[simp] theorem clearDone_err (w : Word) (s : State) : (clearDone w s).err = s.err := rfl
@[simp] theorem clearDone_ecode (w : Word) (s : State) : (clearDone w s).ecode = s.ecode := rfl
@[simp] theorem clearDone_irqEn (w : Word) (s : State) : (clearDone w s).irqEn = s.irqEn := rfl
@[simp] theorem clearDone_sel (w : Word) (s : State) : (clearDone w s).sel = s.sel := rfl
@[simp] theorem clearDone_crcA (w : Word) (s : State) : (clearDone w s).crcA = s.crcA := rfl
@[simp] theorem clearDone_crcB (w : Word) (s : State) : (clearDone w s).crcB = s.crcB := rfl
@[simp] theorem clearDone_lenLo (w : Word) (s : State) : (clearDone w s).lenLo = s.lenLo := rfl
@[simp] theorem clearDone_lenHi (w : Word) (s : State) : (clearDone w s).lenHi = s.lenHi := rfl
@[simp] theorem clearDone_addrLo (w : Word) (s : State) : (clearDone w s).addrLo = s.addrLo := rfl
@[simp] theorem clearDone_addrHi (w : Word) (s : State) : (clearDone w s).addrHi = s.addrHi := rfl
@[simp] theorem clearDone_result (w : Word) (s : State) : (clearDone w s).result = s.result := rfl
@[simp] theorem clearDone_resultHi (w : Word) (s : State) : (clearDone w s).resultHi = s.resultHi := rfl
@[simp] theorem clearDone_ctx (w : Word) (s : State) : (clearDone w s).ctx = s.ctx := rfl
@[simp] theorem clearDone_bufferTouched (w : Word) (s : State) : (clearDone w s).bufferTouched = s.bufferTouched := rfl
@[simp] theorem clearDone_readFailed (w : Word) (s : State) : (clearDone w s).readFailed = s.readFailed := rfl
@[simp] theorem clearDone_tables (w : Word) (s : State) : (clearDone w s).tables = s.tables := rfl
@[simp] theorem clearDone_mem (w : Word) (s : State) : (clearDone w s).mem = s.mem := rfl
@[simp] theorem clearDone_unseen (w : Word) (s : State) : (clearDone w s).unseen = s.unseen := rfl
@[simp] theorem clearDone_inputs (w : Word) (s : State) : (clearDone w s).inputs = s.inputs := rfl
@[simp] theorem clearDone_resp (w : Word) (s : State) : (clearDone w s).resp = s.resp := rfl
@[simp] theorem clearDone_draws (w : Word) (s : State) : (clearDone w s).draws = s.draws := rfl

/-! ### clearErr -/

@[simp] theorem clearErr_params (w : Word) (s : State) : (clearErr w s).params = s.params := rfl
@[simp] theorem clearErr_seq (w : Word) (s : State) : (clearErr w s).seq = s.seq := rfl
@[simp] theorem clearErr_done (w : Word) (s : State) : (clearErr w s).done = s.done := rfl
@[simp] theorem clearErr_err (w : Word) (s : State) : (clearErr w s).err = (s.err && !w.getLsbD 3) := rfl
@[simp] theorem clearErr_ecode (w : Word) (s : State) : (clearErr w s).ecode = if w.getLsbD 3 then .none else s.ecode := rfl
@[simp] theorem clearErr_irqEn (w : Word) (s : State) : (clearErr w s).irqEn = s.irqEn := rfl
@[simp] theorem clearErr_sel (w : Word) (s : State) : (clearErr w s).sel = s.sel := rfl
@[simp] theorem clearErr_crcA (w : Word) (s : State) : (clearErr w s).crcA = s.crcA := rfl
@[simp] theorem clearErr_crcB (w : Word) (s : State) : (clearErr w s).crcB = s.crcB := rfl
@[simp] theorem clearErr_lenLo (w : Word) (s : State) : (clearErr w s).lenLo = s.lenLo := rfl
@[simp] theorem clearErr_lenHi (w : Word) (s : State) : (clearErr w s).lenHi = s.lenHi := rfl
@[simp] theorem clearErr_addrLo (w : Word) (s : State) : (clearErr w s).addrLo = s.addrLo := rfl
@[simp] theorem clearErr_addrHi (w : Word) (s : State) : (clearErr w s).addrHi = s.addrHi := rfl
@[simp] theorem clearErr_result (w : Word) (s : State) : (clearErr w s).result = s.result := rfl
@[simp] theorem clearErr_resultHi (w : Word) (s : State) : (clearErr w s).resultHi = s.resultHi := rfl
@[simp] theorem clearErr_ctx (w : Word) (s : State) : (clearErr w s).ctx = s.ctx := rfl
@[simp] theorem clearErr_bufferTouched (w : Word) (s : State) : (clearErr w s).bufferTouched = s.bufferTouched := rfl
@[simp] theorem clearErr_readFailed (w : Word) (s : State) : (clearErr w s).readFailed = s.readFailed := rfl
@[simp] theorem clearErr_tables (w : Word) (s : State) : (clearErr w s).tables = s.tables := rfl
@[simp] theorem clearErr_mem (w : Word) (s : State) : (clearErr w s).mem = s.mem := rfl
@[simp] theorem clearErr_unseen (w : Word) (s : State) : (clearErr w s).unseen = s.unseen := rfl
@[simp] theorem clearErr_inputs (w : Word) (s : State) : (clearErr w s).inputs = s.inputs := rfl
@[simp] theorem clearErr_resp (w : Word) (s : State) : (clearErr w s).resp = s.resp := rfl
@[simp] theorem clearErr_draws (w : Word) (s : State) : (clearErr w s).draws = s.draws := rfl

/-! ### writeCtrl -/

@[simp] theorem writeCtrl_params (w : Word) (s : State) : (writeCtrl w s).params = s.params := rfl
@[simp] theorem writeCtrl_seq (w : Word) (s : State) : (writeCtrl w s).seq = s.seq := rfl
@[simp] theorem writeCtrl_done (w : Word) (s : State) : (writeCtrl w s).done = s.done := rfl
@[simp] theorem writeCtrl_err (w : Word) (s : State) : (writeCtrl w s).err = s.err := rfl
@[simp] theorem writeCtrl_ecode (w : Word) (s : State) : (writeCtrl w s).ecode = s.ecode := rfl
@[simp] theorem writeCtrl_irqEn (w : Word) (s : State) : (writeCtrl w s).irqEn = w.getLsbD 0 := rfl
@[simp] theorem writeCtrl_sel (w : Word) (s : State) : (writeCtrl w s).sel = (legalWrite s.params.multistream w).getD s.sel := rfl
@[simp] theorem writeCtrl_crcA (w : Word) (s : State) : (writeCtrl w s).crcA = s.crcA := rfl
@[simp] theorem writeCtrl_crcB (w : Word) (s : State) : (writeCtrl w s).crcB = s.crcB := rfl
@[simp] theorem writeCtrl_lenLo (w : Word) (s : State) : (writeCtrl w s).lenLo = s.lenLo := rfl
@[simp] theorem writeCtrl_lenHi (w : Word) (s : State) : (writeCtrl w s).lenHi = s.lenHi := rfl
@[simp] theorem writeCtrl_addrLo (w : Word) (s : State) : (writeCtrl w s).addrLo = s.addrLo := rfl
@[simp] theorem writeCtrl_addrHi (w : Word) (s : State) : (writeCtrl w s).addrHi = s.addrHi := rfl
@[simp] theorem writeCtrl_result (w : Word) (s : State) : (writeCtrl w s).result = s.result := rfl
@[simp] theorem writeCtrl_resultHi (w : Word) (s : State) : (writeCtrl w s).resultHi = s.resultHi := rfl
@[simp] theorem writeCtrl_ctx (w : Word) (s : State) : (writeCtrl w s).ctx = s.ctx := rfl
@[simp] theorem writeCtrl_bufferTouched (w : Word) (s : State) : (writeCtrl w s).bufferTouched = s.bufferTouched := rfl
@[simp] theorem writeCtrl_readFailed (w : Word) (s : State) : (writeCtrl w s).readFailed = s.readFailed := rfl
@[simp] theorem writeCtrl_tables (w : Word) (s : State) : (writeCtrl w s).tables = s.tables := rfl
@[simp] theorem writeCtrl_mem (w : Word) (s : State) : (writeCtrl w s).mem = s.mem := rfl
@[simp] theorem writeCtrl_unseen (w : Word) (s : State) : (writeCtrl w s).unseen = s.unseen := rfl
@[simp] theorem writeCtrl_inputs (w : Word) (s : State) : (writeCtrl w s).inputs = s.inputs := rfl
@[simp] theorem writeCtrl_resp (w : Word) (s : State) : (writeCtrl w s).resp = s.resp := rfl
@[simp] theorem writeCtrl_draws (w : Word) (s : State) : (writeCtrl w s).draws = s.draws := rfl

/-! ### resetBlock -/

@[simp] theorem resetBlock_params (s : State) : (resetBlock s).params = s.params := rfl
@[simp] theorem resetBlock_seq (s : State) : (resetBlock s).seq = (State.initial s.params).seq := rfl
@[simp] theorem resetBlock_done (s : State) : (resetBlock s).done = (State.initial s.params).done := rfl
@[simp] theorem resetBlock_err (s : State) : (resetBlock s).err = (State.initial s.params).err := rfl
@[simp] theorem resetBlock_ecode (s : State) : (resetBlock s).ecode = (State.initial s.params).ecode := rfl
@[simp] theorem resetBlock_irqEn (s : State) : (resetBlock s).irqEn = (State.initial s.params).irqEn := rfl
@[simp] theorem resetBlock_sel (s : State) : (resetBlock s).sel = (State.initial s.params).sel := rfl
@[simp] theorem resetBlock_crcA (s : State) : (resetBlock s).crcA = (State.initial s.params).crcA := rfl
@[simp] theorem resetBlock_crcB (s : State) : (resetBlock s).crcB = (State.initial s.params).crcB := rfl
@[simp] theorem resetBlock_lenLo (s : State) : (resetBlock s).lenLo = (State.initial s.params).lenLo := rfl
@[simp] theorem resetBlock_lenHi (s : State) : (resetBlock s).lenHi = (State.initial s.params).lenHi := rfl
@[simp] theorem resetBlock_addrLo (s : State) : (resetBlock s).addrLo = (State.initial s.params).addrLo := rfl
@[simp] theorem resetBlock_addrHi (s : State) : (resetBlock s).addrHi = (State.initial s.params).addrHi := rfl
@[simp] theorem resetBlock_result (s : State) : (resetBlock s).result = (State.initial s.params).result := rfl
@[simp] theorem resetBlock_resultHi (s : State) : (resetBlock s).resultHi = (State.initial s.params).resultHi := rfl
@[simp] theorem resetBlock_ctx (s : State) : (resetBlock s).ctx = (State.initial s.params).ctx := rfl
@[simp] theorem resetBlock_bufferTouched (s : State) : (resetBlock s).bufferTouched = (State.initial s.params).bufferTouched := rfl
@[simp] theorem resetBlock_readFailed (s : State) : (resetBlock s).readFailed = (State.initial s.params).readFailed := rfl
@[simp] theorem resetBlock_tables (s : State) : (resetBlock s).tables = (State.initial s.params).tables := rfl
@[simp] theorem resetBlock_mem (s : State) : (resetBlock s).mem = s.mem := rfl
@[simp] theorem resetBlock_unseen (s : State) : (resetBlock s).unseen = s.unseen := rfl
@[simp] theorem resetBlock_inputs (s : State) : (resetBlock s).inputs = s.inputs := rfl
@[simp] theorem resetBlock_resp (s : State) : (resetBlock s).resp = (State.initial s.params).resp := rfl
@[simp] theorem resetBlock_draws (s : State) : (resetBlock s).draws = s.draws := rfl

/-! ### dropInput -/

@[simp] theorem dropInput_params (s : State) : (s.dropInput).params = s.params := rfl
@[simp] theorem dropInput_seq (s : State) : (s.dropInput).seq = s.seq := rfl
@[simp] theorem dropInput_done (s : State) : (s.dropInput).done = s.done := rfl
@[simp] theorem dropInput_err (s : State) : (s.dropInput).err = s.err := rfl
@[simp] theorem dropInput_ecode (s : State) : (s.dropInput).ecode = s.ecode := rfl
@[simp] theorem dropInput_irqEn (s : State) : (s.dropInput).irqEn = s.irqEn := rfl
@[simp] theorem dropInput_sel (s : State) : (s.dropInput).sel = s.sel := rfl
@[simp] theorem dropInput_crcA (s : State) : (s.dropInput).crcA = s.crcA := rfl
@[simp] theorem dropInput_crcB (s : State) : (s.dropInput).crcB = s.crcB := rfl
@[simp] theorem dropInput_lenLo (s : State) : (s.dropInput).lenLo = s.lenLo := rfl
@[simp] theorem dropInput_lenHi (s : State) : (s.dropInput).lenHi = s.lenHi := rfl
@[simp] theorem dropInput_addrLo (s : State) : (s.dropInput).addrLo = s.addrLo := rfl
@[simp] theorem dropInput_addrHi (s : State) : (s.dropInput).addrHi = s.addrHi := rfl
@[simp] theorem dropInput_result (s : State) : (s.dropInput).result = s.result := rfl
@[simp] theorem dropInput_resultHi (s : State) : (s.dropInput).resultHi = s.resultHi := rfl
@[simp] theorem dropInput_ctx (s : State) : (s.dropInput).ctx = s.ctx := rfl
@[simp] theorem dropInput_bufferTouched (s : State) : (s.dropInput).bufferTouched = s.bufferTouched := rfl
@[simp] theorem dropInput_readFailed (s : State) : (s.dropInput).readFailed = s.readFailed := rfl
@[simp] theorem dropInput_tables (s : State) : (s.dropInput).tables = s.tables := rfl
@[simp] theorem dropInput_mem (s : State) : (s.dropInput).mem = s.mem := rfl
@[simp] theorem dropInput_unseen (s : State) : (s.dropInput).unseen = s.unseen := rfl
@[simp] theorem dropInput_inputs (s : State) : (s.dropInput).inputs = s.inputs.tail := rfl
@[simp] theorem dropInput_resp (s : State) : (s.dropInput).resp = s.resp := rfl
@[simp] theorem dropInput_draws (s : State) : (s.dropInput).draws = s.draws := rfl

end Sys2Proof.Machine
end

