-- ==== Sys2Proof/Laws/Exec.lean ====
section
/-!
SUPPORT. What the datapaths compute and what completing a command can do, each said once.
-/

namespace Sys2Proof.Laws
open Sys2Proof.Machine

/-! ## Datapaths -/

/-- A legal MULTI selection exists only with the multi-stream unit (10_state.md R37). -/
theorem multistream_of_legal {m : Bool} {t : Selection} (h : selectionLegal m t = true) (ht : t.backend = .multi) :
    m = true := by
  simp only [selectionLegal, ht, Bool.and_eq_true, Bool.or_eq_true] at h
  exact h.1.1.resolve_left (by decide)

/-- Every EXTEND datapath computes Ext (44_multistream.md R240). -/
theorem extendPath_eq (p : Params) (t : Selection) (h : selectionLegal p.multistream t = true) (addr : Nat) (c : Word)
    (bs : List Byte) (hb : bs.length < 2 ^ 64) :
    extendPath p (builtTables p.multistream) t addr c bs = ext c bs := by
  unfold extendPath
  cases hs : t.backend
  · exact genericExtend_eq _ _ _ _ _
  · exact genericExtend_eq _ _ _ _ _
  · have hm := multistream_of_legal h hs
    rw [hm] at h ⊢
    exact multiExtend_eq t c bs hb h

/-- Every zero-extension datapath computes ExtZ (44_multistream.md R240). -/
theorem extZPath_eq (m : Bool) (t : Selection) (c : Word) (n : DWord) :
    extZPath (builtTables m) t c n = extZ c n.toNat := by
  unfold extZPath
  cases t.backend
  · exact genericExtZ_eq m c n
  · exact accelExtZ_eq m c n
  · exact accelExtZ_eq m c n

@[simp] theorem message_length (s : State) : (message s).length = s.ctx.len.toNat := readBytes_length _ _ _

/-- The message is the bytes at ADDR, ADDR + 1, .. (20_memory.md R71). -/
theorem message_eq (s : State) :
    message s = (List.range s.ctx.len.toNat).map (fun k => Memory.read s.mem (s.ctx.addr.toNat + k)) :=
  readBytes_eq_map _ _ _

/-- The value EXTEND computes (41_crc_ops.md R163). -/
theorem extendValue_eq (s : State) (h : s.Equipped) : extendValue s = ext s.ctx.crcA (message s) := by
  unfold extendValue
  rw [h.tables]
  exact extendPath_eq _ _ h.backend _ _ _ (by rw [message_length]; exact s.ctx.len.isLt)

theorem emptyMessage_iff (s : State) : emptyMessage s = true ↔ s.ctx.len = 0#64 := by
  simp [emptyMessage, operandLen]

theorem message_of_empty (s : State) (h : s.ctx.len = 0#64) : message s = [] := by
  apply List.length_eq_zero_iff.1
  rw [message_length, h]
  rfl

/-! ## Completion -/

/-- How a command can end (60_exceptions.md R284, R285). -/
inductive Ends (s : State) : State → Prop where
  | plain : Ends s (finishPlain s)
  | word (v : Word) : Ends s (finishWord v s)
  | wide (v : DWord) : Ends s (finishWide v s)
  | free : Ends s (finishFree s)
  | failed (code : ErrorCode) (h : code ≠ .none) : Ends s (failCommand code s)

theorem execExtend_ends (s : State) : ∃ t, execExtend s = .next t ∧ Ends s t := by
  unfold execExtend
  split
  · exact ⟨_, rfl, .word _⟩
  · split
    · exact ⟨_, rfl, .failed _ (by decide)⟩
    · split
      · exact ⟨_, rfl, .failed _ (by decide)⟩
      · split
        · exact ⟨_, rfl, .free⟩
        · exact ⟨_, rfl, .word _⟩

theorem execLutrd_ends (tsel : BitVec 4) (idx : BitVec 8) (s : State) : ∃ t, execLutrd tsel idx s = .next t ∧ Ends s t := by
  unfold execLutrd
  split
  · exact ⟨_, rfl, .wide _⟩
  · exact ⟨_, rfl, .failed _ (by decide)⟩

/-- Every command, in every state, ends in one of these ways. -/
theorem exec_ends (i : Instr) (s : State) : ∃ t, exec i s = .next t ∧ Ends s t := by
  cases i with
  | nop => exact ⟨_, rfl, .plain⟩
  | empty => exact ⟨_, rfl, .word _⟩
  | extend => exact execExtend_ends s
  | extz => exact ⟨_, rfl, .word _⟩
  | unextz => exact ⟨_, rfl, .word _⟩
  | concat => exact ⟨_, rfl, .word _⟩
  | combine => exact ⟨_, rfl, .word _⟩
  | scramble => exact ⟨_, rfl, .word _⟩
  | unscramble => exact ⟨_, rfl, .word _⟩
  | clmul => exact ⟨_, rfl, .wide _⟩
  | mulmod => exact ⟨_, rfl, .word _⟩
  | zconst => exact ⟨_, rfl, .word _⟩
  | lutrd tsel idx => exact execLutrd_ends tsel idx s

/-- If a command answers a next state, it is one of these ends. -/
theorem exec_next {i : Instr} {s t : State} (h : exec i s = .next t) : Ends s t := by
  obtain ⟨u, hu, he⟩ := exec_ends i s
  rw [hu] at h
  cases h
  exact he

theorem decodeCode_ne_none (e : DecodeError) : decodeCode e ≠ .none := by cases e <;> decide

theorem completeCommand_ends (s : State) : ∃ t, completeCommand s = .next t ∧ Ends s t := by
  unfold completeCommand
  split
  · exact exec_ends _ s
  · exact ⟨_, rfl, .failed _ (decodeCode_ne_none _)⟩

/-- What every end leaves alone. -/
theorem Ends.frame {s t : State} (h : Ends s t) :
    t.params = s.params ∧ t.irqEn = s.irqEn ∧ t.sel = s.sel ∧ t.crcA = s.crcA ∧ t.crcB = s.crcB ∧ t.lenLo = s.lenLo ∧
    t.lenHi = s.lenHi ∧ t.addrLo = s.addrLo ∧ t.addrHi = s.addrHi ∧ t.ctx = s.ctx ∧
    t.bufferTouched = s.bufferTouched ∧ t.readFailed = s.readFailed ∧ t.tables = s.tables ∧ t.mem = s.mem ∧
    t.unseen = s.unseen ∧ t.inputs = s.inputs ∧ t.resp = s.resp ∧ t.seq = .idle := by
  cases h <;> simp

/-- Every end sets DONE and leaves the error, or records an error and leaves DONE and the results. -/
theorem Ends.flags {s t : State} (h : Ends s t) :
    (t.done = true ∧ t.err = s.err ∧ t.ecode = s.ecode) ∨
    (t.done = s.done ∧ t.err = true ∧ t.ecode ≠ .none ∧ t.result = s.result ∧ t.resultHi = s.resultHi) := by
  cases h with
  | plain => simp
  | word v => simp
  | wide v => simp
  | free => simp
  | failed code hc => simp [hc]

end Sys2Proof.Laws
end

