-- ==== Sys2Proof/Laws/Words.lean ====
section
/-!
SUPPORT. Command, STATUS and CTRL words field by field, in numbers and in bits.
-/

namespace Sys2Proof.Laws
open Sys2Proof.Machine

/-! ## Command words (30_encoding.md R101) -/

theorem opcField_toNat (w : Word) : (opcField w).toNat = w.toNat % 2 ^ 8 := by
  simp [opcField, BitVec.extractLsb'_toNat]

theorem idxField_toNat (w : Word) : (idxField w).toNat = w.toNat / 2 ^ 8 % 2 ^ 8 := by
  simp [idxField, BitVec.extractLsb'_toNat, Nat.shiftRight_eq_div_pow]

theorem tselField_toNat (w : Word) : (tselField w).toNat = w.toNat / 2 ^ 16 % 2 ^ 4 := by
  simp [tselField, BitVec.extractLsb'_toNat, Nat.shiftRight_eq_div_pow]

/-- No bit above OPC is set. -/
theorem reservedZ_iff (w : Word) : w.extractLsb' 8 24 = 0#24 ↔ w.toNat / 2 ^ 8 = 0 := by
  have := w.isLt
  rw [← BitVec.toNat_inj, BitVec.extractLsb'_toNat, Nat.shiftRight_eq_div_pow]
  simp only [BitVec.toNat_ofNat]
  omega

/-- No bit of RSV is set. -/
theorem reservedT_iff (w : Word) : w.extractLsb' 20 12 = 0#12 ↔ w.toNat / 2 ^ 20 = 0 := by
  have := w.isLt
  rw [← BitVec.toNat_inj, BitVec.extractLsb'_toNat, Nat.shiftRight_eq_div_pow]
  simp only [BitVec.toNat_ofNat]
  omega

theorem wordZ_toNat (opc : BitVec 8) : (wordZ opc).toNat = opc.toNat := by
  have h : (wordZ opc).toNat = (0#24).toNat <<< 8 ||| opc.toNat := BitVec.toNat_append (0#24) opc
  simpa using h

theorem append_toNat {a b : Nat} (x : BitVec a) (y : BitVec b) : (x ++ y).toNat = x.toNat * 2 ^ b + y.toNat := by
  rw [BitVec.toNat_append, ← Nat.shiftLeft_add_eq_or_of_lt y.isLt, Nat.shiftLeft_eq]

theorem wordT_toNat (tsel : BitVec 4) (idx opc : BitVec 8) :
    (wordT tsel idx opc).toNat = tsel.toNat * 2 ^ 16 + idx.toNat * 2 ^ 8 + opc.toNat := by
  have h1 : (wordT tsel idx opc).toNat = (0#12 ++ tsel ++ idx).toNat * 2 ^ 8 + opc.toNat := append_toNat _ _
  have h2 := append_toNat (0#12 ++ tsel) idx
  have h3 := append_toNat (0#12) tsel
  simp only [BitVec.toNat_ofNat] at h3
  rw [h1, h2, h3]
  omega

/-- `{h, l}` (00_scope.md R8). -/
theorem join_toNat (h l : Word) : (join h l).toNat = h.toNat * 2 ^ 32 + l.toNat := append_toNat h l

/-- The format Z commands by opcode (30_encoding.md R105). -/
def commandsZ : List Instr :=
  [.nop, .empty, .extend, .extz, .unextz, .concat, .combine, .scramble, .unscramble, .clmul, .mulmod, .zconst]

/-- The decoder on the fields of a word, as numbers. -/
theorem decode_eq (w : Word) : decode w =
    if 0x0C < w.toNat % 2 ^ 8 then .error .illegalOpcode
    else if w.toNat % 2 ^ 8 = 0x0C then
      (if w.toNat / 2 ^ 20 = 0 then .ok (.lutrd (tselField w) (idxField w)) else .error .illegalField)
    else if w.toNat / 2 ^ 8 = 0 then .ok (commandsZ.getD (w.toNat % 2 ^ 8) .nop)
    else .error .illegalField := by
  unfold decode formatZ formatT
  simp only [reservedZ_iff, reservedT_iff, opcField_toNat]
  generalize w.toNat % 2 ^ 8 = o
  generalize w.toNat / 2 ^ 8 = a
  generalize w.toNat / 2 ^ 20 = b
  rcases Nat.lt_or_ge 0x0C o with h | h
  · rw [if_pos h]; split <;> first | omega | rfl
  · interval_cases o <;> simp [commandsZ]

/-- No format Z command is LUTRD. -/
theorem commandsZ_ne_lutrd (n : Nat) (tsel : BitVec 4) (idx : BitVec 8) : commandsZ.getD n .nop ≠ .lutrd tsel idx := by
  intro h
  rcases Nat.lt_or_ge n 12 with hn | hn
  · interval_cases n <;> cases h
  · rw [List.getD_eq_default _ _ hn] at h; cases h

/-- The legal indexes, table by table (30_encoding.md R104). -/
theorem legalIndex_iff (m : Bool) (tsel : BitVec 4) (idx : BitVec 8) : legalIndex m tsel idx = true ↔
    (tsel.toNat ≤ 4 ∨ tsel.toNat = 6) ∨ ((tsel.toNat = 5 ∨ tsel.toNat = 7) ∧ idx.toNat ≤ 239) ∨
    (tsel.toNat = 8 ∧ idx.toNat ≤ 61) ∨ (tsel.toNat = 9 ∧ idx.toNat ≤ 7 ∧ m = true) := by
  have hi := idx.isLt
  have ht := tsel.isLt
  rw [legalIndex, decide_eq_true_iff, tableEntries]
  generalize tsel.toNat = n at *
  cases m <;> interval_cases n <;> simp [Config.zeroesCount, Config.powersCount] <;> omega

/-! ## STATUS (10_state.md R35) -/

/-- The word of the STATUS fields. -/
theorem statusWord_eq (s : State) : statusWord s =
    (BitVec.ofBool s.busyBit).setWidth 32 ||| (BitVec.ofBool s.readyBit).setWidth 32 <<< 1
      ||| (BitVec.ofBool s.done).setWidth 32 <<< 2 ||| (BitVec.ofBool s.err).setWidth 32 <<< 3
      ||| (BitVec.ofBool s.fatalBit).setWidth 32 <<< 4 ||| s.ecode.bits.setWidth 32 <<< 8 := by
  unfold statusWord
  cases s.busyBit <;> cases s.readyBit <;> cases s.done <;> cases s.err <;> cases s.fatalBit <;> cases s.ecode <;> decide

theorem status_busy (s : State) : (statusWord s).getLsbD 0 = s.busyBit := by
  rw [statusWord_eq]; cases s.busyBit <;> simp

theorem status_ready (s : State) : (statusWord s).getLsbD 1 = s.readyBit := by
  rw [statusWord_eq]; cases s.busyBit <;> cases s.readyBit <;> simp

theorem status_done (s : State) : (statusWord s).getLsbD 2 = s.done := by
  rw [statusWord_eq]; cases s.busyBit <;> cases s.readyBit <;> cases s.done <;> simp

theorem status_err (s : State) : (statusWord s).getLsbD 3 = s.err := by
  unfold statusWord
  cases s.busyBit <;> cases s.readyBit <;> cases s.done <;> cases s.err <;> cases s.fatalBit <;> cases s.ecode <;> decide

theorem status_fatal (s : State) : (statusWord s).getLsbD 4 = s.fatalBit := by
  unfold statusWord
  cases s.busyBit <;> cases s.readyBit <;> cases s.done <;> cases s.err <;> cases s.fatalBit <;> cases s.ecode <;> decide

theorem status_ecode (s : State) : (statusWord s).extractLsb' 8 4 = s.ecode.bits := by
  unfold statusWord
  cases s.busyBit <;> cases s.readyBit <;> cases s.done <;> cases s.err <;> cases s.fatalBit <;> cases s.ecode <;> decide

theorem status_reserved (s : State) :
    (statusWord s).extractLsb' 5 3 = 0#3 ∧ (statusWord s).extractLsb' 12 20 = 0#20 := by
  unfold statusWord
  cases s.busyBit <;> cases s.readyBit <;> cases s.done <;> cases s.err <;> cases s.fatalBit <;> cases s.ecode <;> decide

/-! ## CTRL (10_state.md R36) -/

theorem bitVec2_cases (b : BitVec 2) : b = 0#2 ∨ b = 1#2 ∨ b = 2#2 ∨ b = 3#2 := by revert b; decide

/-- The IRQ_EN bit of CTRL. -/
theorem ctrl_irqEn (irq : Bool) (t : Selection) : (ctrlWord irq t).getLsbD 0 = irq := by
  obtain ⟨b, n, p, st⟩ := t
  rcases bitVec2_cases n with rfl | rfl | rfl | rfl <;> rcases bitVec2_cases p with rfl | rfl | rfl | rfl <;>
    cases irq <;> cases b <;> cases st <;> decide

/-- The backend fields of a CTRL word are the ones it was made of. -/
theorem selectionOfWord_ctrlWord (irq : Bool) (t : Selection) : selectionOfWord (ctrlWord irq t) = some t := by
  obtain ⟨b, n, p, st⟩ := t
  rcases bitVec2_cases n with rfl | rfl | rfl | rfl <;> rcases bitVec2_cases p with rfl | rfl | rfl | rfl <;>
    cases irq <;> cases b <;> cases st <;> decide

/-- IRQ_EN is the only bit of CTRL beside the backend fields. -/
theorem ctrlWord_eq (irq : Bool) (t : Selection) :
    ctrlWord irq t = (ctrlWord false t &&& 0x1FC#32) ||| (BitVec.ofBool irq).setWidth 32 := by
  obtain ⟨b, n, p, st⟩ := t
  rcases bitVec2_cases n with rfl | rfl | rfl | rfl <;> rcases bitVec2_cases p with rfl | rfl | rfl | rfl <;>
    cases irq <;> cases b <;> cases st <;> decide

/-- The backend fields of a word lie in its bits 8:2. -/
theorem backendBits_masked (w : Word) : w &&& 0x1FC#32 =
    ((w.extractLsb' 2 2).setWidth 32 <<< 2) ||| ((w.extractLsb' 4 2).setWidth 32 <<< 4)
      ||| ((w.extractLsb' 6 2).setWidth 32 <<< 6) ||| ((BitVec.ofBool (w.getLsbD 8)).setWidth 32 <<< 8) := by
  apply BitVec.eq_of_getLsbD_eq
  intro i hi
  interval_cases i <;> simp

/-- A CTRL word made of the backend fields of a word holds that word's bits 8:2. -/
theorem ctrlWord_of_word {w : Word} {t : Selection} (h : selectionOfWord w = some t) :
    ctrlWord false t = w &&& 0x1FC#32 := by
  rw [backendBits_masked]
  unfold selectionOfWord at h
  rcases bitVec2_cases (w.extractLsb' 2 2) with h2 | h2 | h2 | h2 <;>
    rcases bitVec2_cases (w.extractLsb' 4 2) with h4 | h4 | h4 | h4 <;>
    rcases bitVec2_cases (w.extractLsb' 6 2) with h6 | h6 | h6 | h6 <;>
    cases h8 : w.getLsbD 8 <;> rw [h2, h4, h6, h8] at h <;> cases h <;> rw [h2, h4, h6] <;> decide

end Sys2Proof.Laws
end

