-- ==== Sys2Proof/Laws/PerInstr.lean ====
section
/-!
SUPPORT. What holds of every command, constructor by constructor: its word carries its opcode, and its reserved bits
are 0.
-/

namespace Sys2Proof.Laws.ReservedZero
open Sys2Proof.Machine

/-- The opcode of a command (30_encoding.md R105). -/
def opcode (i : Instr) : Nat :=
  match i with
  | .nop => 0x00
  | .empty => 0x01
  | .extend => 0x02
  | .extz => 0x03
  | .unextz => 0x04
  | .concat => 0x05
  | .combine => 0x06
  | .scramble => 0x07
  | .unscramble => 0x08
  | .clmul => 0x09
  | .mulmod => 0x0A
  | .zconst => 0x0B
  | .lutrd _ _ => 0x0C

/-- The word of a command has its opcode in OPC and 0 in every reserved bit (30_encoding.md R101-R104): for LUTRD the
fields TSEL and IDX stand between them. -/
def Statement (i : Instr) : Prop :=
  (encode i).toNat % 2 ^ 8 = opcode i ∧ (encode i).toNat < 2 ^ 20 ∧ (i ∈ commandsZ → (encode i).toNat < 2 ^ 8)

theorem nop : Statement .nop := by unfold Statement; decide
theorem empty : Statement .empty := by unfold Statement; decide
theorem extend : Statement .extend := by unfold Statement; decide
theorem extz : Statement .extz := by unfold Statement; decide
theorem unextz : Statement .unextz := by unfold Statement; decide
theorem concat : Statement .concat := by unfold Statement; decide
theorem combine : Statement .combine := by unfold Statement; decide
theorem scramble : Statement .scramble := by unfold Statement; decide
theorem unscramble : Statement .unscramble := by unfold Statement; decide
theorem clmul : Statement .clmul := by unfold Statement; decide
theorem mulmod : Statement .mulmod := by unfold Statement; decide
theorem zconst : Statement .zconst := by unfold Statement; decide

theorem lutrd (tsel : BitVec 4) (idx : BitVec 8) : Statement (.lutrd tsel idx) := by
  have ht := tsel.isLt
  have hi := idx.isLt
  have h : (encode (.lutrd tsel idx)).toNat = tsel.toNat * 2 ^ 16 + idx.toNat * 2 ^ 8 + 12 := wordT_toNat tsel idx 0x0C#8
  refine ⟨?_, by omega, fun hm => by simp [commandsZ] at hm⟩
  show _ = 12
  omega

end Sys2Proof.Laws.ReservedZero
end

