-- ==== Sys2Proof/Laws/Poly.lean ====
section
/-!
SUPPORT. The polynomial view of values (00_scope.md R9, R10): both views respect XOR, and a bit step multiplies by x
modulo P.
-/

namespace Sys2Proof.Laws
open Sys2Proof.Machine Polynomial

theorem add_self_eq_zero (p : (ZMod 2)[X]) : p + p = 0 := CharTwo.add_self_eq_zero p

theorem select_xor (a b : Bool) (p : (ZMod 2)[X]) :
    (if (a ^^ b) then p else 0) = (if a then p else 0) + (if b then p else 0) := by
  cases a <;> cases b <;> simp [add_self_eq_zero]

theorem polyOf_xor (a b : Word) : polyOf (a ^^^ b) = polyOf a + polyOf b := by
  simp only [polyOf, BitVec.getLsbD_xor, select_xor, Finset.sum_add_distrib]

theorem normalOf_xor {w : Nat} (a b : BitVec w) : normalOf (a ^^^ b) = normalOf a + normalOf b := by
  simp only [normalOf, BitVec.getLsbD_xor, select_xor, Finset.sum_add_distrib]

@[simp] theorem polyOf_zero : polyOf 0#32 = 0 := by simp [polyOf]

@[simp] theorem normalOf_zero (w : Nat) : normalOf (0#w) = 0 := by simp [normalOf]

theorem getLsbD_bit {w : Nat} (i j : Nat) (hj : j < w) : (1#w <<< i).getLsbD j = decide (j = i) := by
  simp only [BitVec.getLsbD_shiftLeft, BitVec.getLsbD_one, hj, decide_true, Bool.true_and]
  by_cases h : j = i
  · subst h; simp; omega
  · simp [h]; omega

theorem polyOf_bit (i : Nat) (hi : i < 32) : polyOf (1#32 <<< i) = X ^ (31 - i) := by
  unfold polyOf
  rw [Finset.sum_eq_single i]
  · rw [getLsbD_bit i i hi]; simp
  · intro j hj hne
    rw [getLsbD_bit i j (Finset.mem_range.1 hj)]
    simp [hne]
  · intro h; exact absurd (Finset.mem_range.2 hi) h

theorem normalOf_bit {w : Nat} (i : Nat) (hi : i < w) : normalOf (1#w <<< i) = X ^ i := by
  unfold normalOf
  rw [Finset.sum_eq_single i]
  · rw [getLsbD_bit i i hi]; simp
  · intro j hj hne
    rw [getLsbD_bit i j (Finset.mem_range.1 hj)]
    simp [hne]
  · intro h; exact absurd (Finset.mem_range.2 hi) h

theorem degree_sum_select_lt (w : Nat) (f : Nat → Bool) (e : Nat → Nat) (n : Nat) (he : ∀ i, i < w → e i < n) :
    (∑ i ∈ Finset.range w, if f i then (X : (ZMod 2)[X]) ^ e i else 0).degree < n := by
  refine lt_of_le_of_lt (degree_sum_le _ _) ?_
  rw [Finset.sup_lt_iff (by exact WithBot.bot_lt_coe n)]
  intro i hi
  split
  · rw [degree_X_pow]; exact_mod_cast he i (Finset.mem_range.1 hi)
  · rw [degree_zero]; exact WithBot.bot_lt_coe n

theorem degree_polyOf_lt (v : Word) : (polyOf v).degree < 32 :=
  degree_sum_select_lt 32 v.getLsbD (fun i => 31 - i) 32 (by intros; omega)

theorem degree_normalOf_lt {w : Nat} (v : BitVec w) : (normalOf v).degree < w :=
  degree_sum_select_lt w v.getLsbD (fun i => i) w (by intros; omega)

theorem generator_monic : generator.Monic := by
  unfold generator
  exact monic_X_pow_add (degree_normalOf_lt _)

theorem generator_degree : generator.degree = 32 := by
  unfold generator
  rw [degree_add_eq_left_of_degree_lt]
  · exact degree_X_pow 32
  · rw [degree_X_pow]; exact degree_normalOf_lt _

/-- A value is its own remainder. -/
theorem polyOf_mod (v : Word) : polyOf v %ₘ generator = polyOf v := by
  rw [modByMonic_eq_self_iff generator_monic, generator_degree]
  exact degree_polyOf_lt v

/-- Reflection exchanges the two views. -/
theorem polyOf_rev32 (v : Word) : polyOf (rev32 v) = normalOf v := by
  unfold polyOf normalOf
  rw [← Finset.sum_range_reflect]
  refine Finset.sum_congr rfl fun i hi => ?_
  have hi := Finset.mem_range.1 hi
  have h1 : 32 - 1 - i < 32 := by omega
  have h2 : (rev32 v).getLsbD (32 - 1 - i) = v.getLsbD i := by
    rw [rev32, BitVec.getLsbD_reverse, BitVec.getMsbD_eq_getLsbD]
    simp only [h1, decide_true, Bool.true_and]
    congr 1; omega
  rw [h2, show 31 - (32 - 1 - i) = i by omega]

set_option maxRecDepth 10000 in
theorem rev32_poly : rev32 Config.poly = 0x1EDC6F41#32 := by decide

/-- P is x^32 and the terms POLY holds (00_scope.md R2). -/
theorem generator_eq : generator = X ^ 32 + polyOf Config.poly := by
  rw [← rev32_rev32 Config.poly, polyOf_rev32, rev32_poly, generator]

/-- A value is a polynomial's remainder when P divides their difference. -/
theorem polyOf_eq_mod_iff (v : Word) (p : (ZMod 2)[X]) : polyOf v = p %ₘ generator ↔ generator ∣ p - polyOf v := by
  rw [← modByMonic_eq_zero_iff_dvd generator_monic, sub_modByMonic, polyOf_mod, sub_eq_zero, eq_comm]

/-- One bit step multiplies by x (00_scope.md R11). -/
theorem dvd_bitStep (c : Word) : generator ∣ X * polyOf c - polyOf (bitStep c) := by
  refine bitvec_xor_induction (p := fun c : Word => generator ∣ X * polyOf c - polyOf (bitStep c)) ?_ ?_ ?_ c
  · have h : bitStep 0#32 = 0#32 := (xorLinear_bitStepQ Config.poly).map_zero
    rw [h, polyOf_zero, mul_zero, sub_zero]; exact dvd_zero _
  · intro a b ha hb
    have h : bitStep (a ^^^ b) = bitStep a ^^^ bitStep b := xorLinear_bitStepQ Config.poly a b
    rw [h, polyOf_xor, polyOf_xor, mul_add, add_sub_add_comm]
    exact dvd_add ha hb
  · intro i hi
    rw [polyOf_bit i hi, ← pow_succ']
    rcases Nat.eq_zero_or_pos i with rfl | hpos
    · have h : bitStep (1#32 <<< 0) = Config.poly := by decide
      rw [h, CharTwo.sub_eq_add, show 31 - 0 + 1 = 32 from rfl, ← generator_eq]
    · have h : bitStep (1#32 <<< i) = 1#32 <<< (i - 1) := by
        have e := bit_eq_bitStepsQ_one Config.poly
        rw [e i hi, e (i - 1) (by omega), show 31 - (i - 1) = 31 - i + 1 by omega]; rfl
      rw [h, polyOf_bit (i - 1) (by omega), show 31 - (i - 1) = 31 - i + 1 by omega, sub_self]
      exact dvd_zero _

/-- `n` bit steps multiply by x^n. -/
theorem dvd_bitSteps (n : Nat) (c : Word) : generator ∣ X ^ n * polyOf c - polyOf (bitSteps n c) := by
  induction n with
  | zero => simp [bitSteps]
  | succ n ih =>
    have h := dvd_add (Dvd.dvd.mul_left ih X) (dvd_bitStep (bitSteps n c))
    have e : X * (X ^ n * polyOf c - polyOf (bitSteps n c)) + (X * polyOf (bitSteps n c) - polyOf (bitStep (bitSteps n c)))
        = X ^ (n + 1) * polyOf c - polyOf (bitSteps (n + 1) c) := by
      rw [show bitSteps (n + 1) c = bitStep (bitSteps n c) from rfl]; ring
    rwa [e] at h

theorem polyOf_one : polyOf one = 1 := by
  have h := polyOf_bit 31 (by decide)
  rwa [show 1#32 <<< 31 = one from rfl] at h

end Sys2Proof.Laws
end

