-- ==== Sys2Proof/Laws/Step.lean ====
section
/-!
SUPPORT. What a step can do: the engine's turn, a host access, acceptance, the end of BUILD.
-/

namespace Sys2Proof.Laws
open Sys2Proof.Machine

/-! ## The engine's turn -/

/-- On the engine's turn a step is the engine's (log 6). -/
theorem step_of_engineNext (s : State) (h : s.engineNext) : step s = engineTurn s.dropInput := by
  unfold step advance
  cases hs : s.inputs with
  | nil =>
    have : s.dropInput = s := by rw [State.dropInput, hs]; cases s; cases hs; rfl
    rw [this]
  | cons i rest =>
    have hi : i = .engine := by
      rcases h with h | h
      · rw [hs] at h; cases h
      · rw [hs] at h; cases h; rfl
    subst hi
    simp [takeInput, State.dropInput, hs]

/-- The step of an input other than the engine's turn. -/
theorem step_of_input (s : State) (i : Input) (rest : List Input) (h : s.inputs = i :: rest) :
    step s = takeInput i { s with inputs := rest } := by
  unfold step advance
  rw [h]

theorem capacity_passes : capacityOk (fillZeroesTable Config.poly) = true ∧ capacityOk (fillZeroesTable unextPoly) = true :=
  ⟨capacityOk_fillZeroesTable _, capacityOk_fillZeroesTable _⟩

/-- BUILD ends in IDLE with the tables built (40_table_builder.md R141, R142). -/
theorem finishBuild_eq (s : State) :
    finishBuild s = { s with tables := builtTables s.params.multistream, seq := .idle } := by
  simp only [finishBuild, capacity_passes.1, capacity_passes.2, ↓reduceIte]

/-- What the engine's turn answers. -/
theorem engineTurn_cases (s : State) :
    (s.seq = .build ∧ engineTurn s = .next { s with tables := builtTables s.params.multistream, seq := .idle }) ∨
    ((s.seq = .idle ∨ s.seq = .fatal) ∧ engineTurn s = .next s) ∨
    (s.seq = .busy ∧ ∃ t, engineTurn s = .next t ∧ completeCommand s = .next t ∧ Ends s t) := by
  unfold engineTurn
  cases hs : s.seq
  · exact .inl ⟨rfl, congrArg Host.Outcome.next (finishBuild_eq s)⟩
  · exact .inr (.inl ⟨.inl rfl, rfl⟩)
  · obtain ⟨t, ht, he⟩ := completeCommand_ends s
    exact .inr (.inr ⟨rfl, t, ht, ht, he⟩)
  · exact .inr (.inl ⟨.inr rfl, rfl⟩)

/-! ## Acceptance (30_encoding.md R107) -/

/-- When a CMD write is accepted. -/
theorem checkCommand_ok (w : Word) (s : State) (i : Instr) :
    checkCommand w s = .ok i ↔ s.seq = .idle ∧ decode w = .ok i ∧ i.wellFormed s.params = true ∧
      (i = .extend → rangeOk s.params s.addr s.len = true) := by
  unfold checkCommand
  cases hs : s.seq <;> simp only [reduceCtorEq, false_and, true_and]
  cases hd : decode w with
  | error e => simp
  | ok j =>
    simp only [Except.ok.injEq, checkOperands]
    cases hw : j.wellFormed s.params
    · simp
      rintro rfl; simp [hw]
    · by_cases hr : j = .extend ∧ (!rangeOk s.params s.addr s.len) = true
      · simp only [Bool.not_true, Bool.false_eq_true, ↓reduceIte, hr, and_self, reduceCtorEq, false_iff]
        rintro ⟨rfl, _, h⟩
        have hok := h rfl
        simp [hok] at hr
      · simp only [Bool.not_true, Bool.false_eq_true, ↓reduceIte, hr, Except.ok.injEq]
        constructor
        · rintro rfl
          refine ⟨rfl, hw, fun he => ?_⟩
          by_contra hc
          exact hr ⟨he, by simpa using hc⟩
        · exact fun h => h.1

/-- A CMD write is accepted or rejected with a code. -/
theorem writeCmd_cases (w : Word) (s : State) :
    (∃ i, checkCommand w s = .ok i ∧ writeCmd w s = latch w s) ∨
    (∃ code, checkCommand w s = .error code ∧ writeCmd w s = recordError code s ∧ code ≠ .none) := by
  unfold writeCmd
  cases h : checkCommand w s with
  | ok i => exact .inl ⟨i, rfl, rfl⟩
  | error code =>
    refine .inr ⟨code, rfl, rfl, ?_⟩
    rintro rfl
    revert h
    unfold checkCommand
    cases s.seq <;> simp
    cases decode w with
    | error e => simp [decodeCode_ne_none]
    | ok i =>
      simp only [checkOperands]
      split
      · simp
      · split <;> simp

/-! ## Host accesses (10_state.md R33, R34) -/

theorem regAt_offset {off : Nat} {r : Reg} (h : regAt off = some r) : off < 256 ∧ off % 4 = 0 := by
  unfold regAt at h
  split at h <;> first | (cases h; done) | (constructor <;> decide)

theorem hostAccess_write (p : Params) (off : Nat) (w : Word) (s : State) (hp : s.params = p) (h : off < 256)
    (h4 : off % 4 = 0) :
    hostAccess { addr := p.engineBase + off, bytes := 4, write := some w } s
      = { writeOffset off w s with resp := .written } := by
  subst hp
  simp [hostAccess, selects, performAccess, h, h4]

theorem hostAccess_read (p : Params) (off : Nat) (s : State) (hp : s.params = p) (h : off < 256) (h4 : off % 4 = 0) :
    hostAccess { addr := p.engineBase + off, bytes := 4, write := none } s
      = { s with resp := .data (readOffset off s) } := by
  subst hp
  simp [hostAccess, selects, performAccess, h, h4]

/-- A word write of the register at an offset. -/
theorem step_of_busWrite (s : State) (off : Nat) (w : Word) (rest : List Input)
    (hi : s.inputs = busWrite s.params off w :: rest) (h : off < 256) (h4 : off % 4 = 0) :
    step s = .next { writeOffset off w { s with inputs := rest } with resp := .written } := by
  rw [step_of_input s _ rest hi]
  exact congrArg Host.Outcome.next (hostAccess_write s.params off w _ rfl h h4)

/-- A word read of the register at an offset. -/
theorem step_of_busRead (s : State) (off : Nat) (rest : List Input)
    (hi : s.inputs = busRead s.params off :: rest) (h : off < 256) (h4 : off % 4 = 0) :
    step s = .next { s with inputs := rest, resp := .data (readOffset off { s with inputs := rest }) } := by
  rw [step_of_input s _ rest hi]
  exact congrArg Host.Outcome.next (hostAccess_read s.params off _ rfl h h4)

/-- A host access changes the response only, or is a write of a register. -/
theorem hostAccess_cases (a : HostAccess) (s : State) :
    (∃ r, hostAccess a s = { s with resp := r }) ∨
    (∃ off r w, regAt off = some r ∧ Input.host a = busWrite s.params off w ∧
      hostAccess a s = { writeReg r w s with resp := .written }) := by
  unfold hostAccess
  split
  · exact .inl ⟨_, rfl⟩
  · rename_i hsel
    split
    · exact .inl ⟨_, rfl⟩
    · rename_i hform
      obtain ⟨addr, bytes, write⟩ := a
      simp only [selects, Bool.not_eq_true', decide_eq_false_iff_not, not_not] at hsel
      simp only [ne_eq, not_or, not_not] at hform
      obtain ⟨rfl, hal⟩ := hform
      cases write with
      | none => exact .inl ⟨_, rfl⟩
      | some w =>
        cases hr : regAt (addr - s.params.engineBase) with
        | none => exact .inl ⟨.written, by simp [performAccess, writeOffset, hr]⟩
        | some r =>
          refine .inr ⟨_, r, w, hr, ?_, by simp [performAccess, writeOffset, hr]⟩
          rw [busWrite]
          congr 2
          omega

/-- What a register write can change. -/
theorem writeReg_cases (r : Reg) (w : Word) (s : State) :
    (r = .status ∧ writeReg r w s = writeStatus w s) ∨
    (r = .ctrl ∧ writeReg r w s = writeCtrl w s) ∨
    (r = .cmd ∧ writeReg r w s = writeCmd w s) ∨
    (∃ a b c d e f, writeReg r w s
      = { s with crcA := a, crcB := b, lenLo := c, lenHi := d, addrLo := e, addrHi := f }) := by
  cases r
  · exact .inr (.inr (.inr ⟨_, _, _, _, _, _, rfl⟩))
  · exact .inl ⟨rfl, rfl⟩
  · exact .inr (.inl ⟨rfl, rfl⟩)
  · exact .inr (.inr (.inl ⟨rfl, rfl⟩))
  all_goals exact .inr (.inr (.inr ⟨_, _, _, _, _, _, rfl⟩))

/-! ## Legal backends (10_state.md R37) -/

theorem legalWrite_legal {m : Bool} {w : Word} {t : Selection} (h : legalWrite m w = some t) :
    selectionLegal m t = true := by
  unfold legalWrite at h
  split at h
  · split at h
    · cases h; assumption
    · cases h
  · cases h

/-- A write of CTRL leaves a legal backend. -/
theorem writeCtrl_legal (w : Word) (s : State) (h : selectionLegal s.params.multistream s.sel = true) :
    selectionLegal s.params.multistream (writeCtrl w s).sel = true := by
  rw [writeCtrl_sel]
  cases hw : legalWrite s.params.multistream w with
  | none => exact h
  | some t => exact legalWrite_legal hw

theorem unchosenDefault_legal (m : Bool) : selectionLegal m (unchosenDefault m) = true := by cases m <;> decide

/-- DISPATCH_DEFAULT is legal. -/
theorem dispatchDefault_legal (p : Params) : selectionLegal p.multistream (dispatchDefault p) = true := by
  unfold dispatchDefault
  split
  · split
    · assumption
    · exact unchosenDefault_legal _
  · exact unchosenDefault_legal _

/-! ## The step, case by case -/

/-- What a step that answers a next state did. -/
inductive StepDid (s : State) : State → Prop where
  | built (h : s.engineNext) (hs : s.seq = .build) :
      StepDid s { s.dropInput with tables := builtTables s.params.multistream, seq := .idle }
  | rested (h : s.engineNext) (hs : s.seq = .idle ∨ s.seq = .fatal) : StepDid s s.dropInput
  | completed (t : State) (h : s.engineNext) (hs : s.seq = .busy) (hc : completeCommand s.dropInput = .next t)
      (he : Ends s.dropInput t) : StepDid s t
  | answered (a : HostAccess) (r : Response) (h : s.inputs.head? = some (.host a)) :
      StepDid s { s.dropInput with resp := r }
  | wrote (off : Nat) (r : Reg) (w : Word) (hr : regAt off = some r)
      (h : s.inputs.head? = some (busWrite s.params off w)) :
      StepDid s { writeReg r w s.dropInput with resp := .written }
  | reset (h : s.inputs.head? = some .reset) : StepDid s (resetBlock s.dropInput)
  | stored (a : Nat) (b : Byte) (h : s.inputs.head? = some (.store a b)) (ha : a < s.params.dataBytes) :
      StepDid s { touch a s.dropInput with unseen := s.unseen ++ [(a, b)] }
  | published (n a : Nat) (b : Byte) (h : s.inputs.head? = some (.publish n)) (hn : s.unseen[n]? = some (a, b)) :
      StepDid s { touch a s.dropInput with mem := Memory.write s.mem a b, unseen := s.unseen.eraseIdx n }
  | nothing (n : Nat) (h : s.inputs.head? = some (.publish n)) (hn : s.unseen[n]? = none) : StepDid s s.dropInput
  | readError (h : s.inputs.head? = some .readError) :
      StepDid s { s.dropInput with readFailed := s.readFailed || readsOutstanding s.dropInput }

/-- Every step is one of these, or the store outside the data space (log 17). -/
theorem step_cases (s : State) : (∃ t, step s = .next t ∧ StepDid s t) ∨
    (∃ a b, s.inputs.head? = some (.store a b) ∧ s.params.dataBytes ≤ a ∧ step s = .fault .outsideDataSpace) := by
  have engine (h : s.engineNext) : ∃ t, step s = .next t ∧ StepDid s t := by
    rw [step_of_engineNext s h]
    rcases engineTurn_cases s.dropInput with ⟨hs, he⟩ | ⟨hs, he⟩ | ⟨hs, t, he, hc, hends⟩
    · exact ⟨_, he, .built h hs⟩
    · exact ⟨_, he, .rested h hs⟩
    · exact ⟨t, he, .completed t h hs hc hends⟩
  cases hi : s.inputs with
  | nil => exact .inl (engine (.inl (by rw [hi]; rfl)))
  | cons i rest =>
    have hd : { s with inputs := rest } = s.dropInput := by rw [State.dropInput, hi]; rfl
    have hh : s.inputs.head? = some i := by rw [hi]; rfl
    have hstep := step_of_input s i rest hi
    rw [hd] at hstep
    cases i with
    | engine => exact .inl (engine (.inr hh))
    | host a =>
      left
      rcases hostAccess_cases a s.dropInput with ⟨r, hr⟩ | ⟨off, r, w, hr, ha, hw⟩
      · exact ⟨_, hstep.trans (congrArg Host.Outcome.next hr), .answered a r hh⟩
      · exact ⟨_, hstep.trans (congrArg Host.Outcome.next hw), .wrote off r w hr (by rw [hh, ha]; rfl)⟩
    | reset => exact .inl ⟨_, hstep, .reset hh⟩
    | store a b =>
      by_cases ha : a < s.params.dataBytes
      · exact .inl ⟨_, hstep.trans (if_pos ha), .stored a b hh ha⟩
      · exact .inr ⟨a, b, rfl, Nat.le_of_not_lt ha, hstep.trans (if_neg ha)⟩
    | publish n =>
      left
      cases hn : s.unseen[n]? with
      | none => exact ⟨_, hstep.trans (by simp [takeInput, publishStore, hn]), .nothing n hh hn⟩
      | some x =>
        obtain ⟨a, b⟩ := x
        exact ⟨_, hstep.trans (by simp [takeInput, publishStore, hn]), .published n a b hh hn⟩
    | readError => exact .inl ⟨_, hstep, .readError hh⟩

/-- If a step answers a next state, it did one of these. -/
theorem step_next {s t : State} (h : step s = .next t) : StepDid s t := by
  rcases step_cases s with ⟨u, hu, hd⟩ | ⟨a, b, _, _, hf⟩
  · rw [hu] at h; cases h; exact hd
  · rw [hf] at h; cases h

end Sys2Proof.Laws
end

