-- ==== Sys2Proof/Tests/Slice0.lean ====
section
/-!
SUPPORT. The model's own tests. Every expected value is from spec/95_test_vectors.md or written out from the rule the
comment names. The last part shows, for every statement with premises, a concrete state that meets them.
-/

namespace Sys2Proof.Tests
open Sys2Proof.Machine

/-! ## A small machine -/

/-- Parameters of 95_test_vectors.md section 3: ADDR_WIDTH 32, the multi-stream unit present, and SCRAMBLE_K the
candidate of section 2.3. -/
def testParams : Params where
  scrambleK := 0x2E76E41A#32
  addrWidthPred := 31
  enginePage := 16
  multistream := true
  dispatchChoice := none
  needAligned := true
  prefetchHorizon := 64

/-- "123456789" at 0x1000. -/
def digits : Memory :=
  [(0x1000, 0x31#8), (0x1001, 0x32#8), (0x1002, 0x33#8), (0x1003, 0x34#8), (0x1004, 0x35#8), (0x1005, 0x36#8),
   (0x1006, 0x37#8), (0x1007, 0x38#8), (0x1008, 0x39#8)]

/-- In IDLE after boot. -/
def ready : State :=
  { State.initial testParams with seq := .idle, tables := builtTables true, mem := digits }

/-- Running command `w` on CRC_A, CRC_B, LEN and ADDR. -/
def running (w a b : Word) (len addr : DWord) : State :=
  { ready with
    seq := .busy
    ctx := { word := w, crcA := a, crcB := b, len := len, addr := addr, sel := unchosenDefault true } }

/-- The next state, if there is one. -/
def after (r : Host.Outcome State Fault Refusal) : Option State :=
  match r with
  | .next t => some t
  | .fault _ => none
  | .refused _ => none

/-- RESULT_HI and RESULT of the next state. -/
def resultOf (r : Host.Outcome State Fault Refusal) : Option (Word × Word) :=
  (after r).map fun t => (t.resultHi, t.result)

/-- A machine with inputs. -/
def withInputs (s : State) (l : List Input) : State := { s with inputs := l }

/-- A host's word write, then one step. -/
def afterWrite (s : State) (offset : Nat) (w : Word) : Option State :=
  after (step (withInputs s [busWrite s.params offset w]))

/-- SEQ and ECODE after a CMD write. -/
def cmdAnswer (s : State) (w : Word) : Option (Seq × ErrorCode) :=
  (afterWrite s 0x0C w).map fun t => (t.seq, t.ecode)

/-- The CTRL word after a CTRL write. -/
def ctrlAfter (s : State) (w : Word) : Option Word := (afterWrite s 0x08 w).map (readReg .ctrl)

/-! ## Decoding (30_encoding.md R105) -/

theorem test_decode_nop : decode 0b00000000000000000000000000000000#32 = .ok .nop := by decide
theorem test_decode_empty : decode 0b00000000000000000000000000000001#32 = .ok .empty := by decide
theorem test_decode_extend : decode 0b00000000000000000000000000000010#32 = .ok .extend := by decide
theorem test_decode_extz : decode 0b00000000000000000000000000000011#32 = .ok .extz := by decide
theorem test_decode_unextz : decode 0b00000000000000000000000000000100#32 = .ok .unextz := by decide
theorem test_decode_concat : decode 0b00000000000000000000000000000101#32 = .ok .concat := by decide
theorem test_decode_combine : decode 0b00000000000000000000000000000110#32 = .ok .combine := by decide
theorem test_decode_scramble : decode 0b00000000000000000000000000000111#32 = .ok .scramble := by decide
theorem test_decode_unscramble : decode 0b00000000000000000000000000001000#32 = .ok .unscramble := by decide
theorem test_decode_clmul : decode 0b00000000000000000000000000001001#32 = .ok .clmul := by decide
theorem test_decode_mulmod : decode 0b00000000000000000000000000001010#32 = .ok .mulmod := by decide
theorem test_decode_zconst : decode 0b00000000000000000000000000001011#32 = .ok .zconst := by decide
/-- RSV 0, TSEL 5, IDX 239, OPC 0x0C (30_encoding.md R103). -/
theorem test_decode_lutrd : decode 0b00000000000001011110111100001100#32 = .ok (.lutrd 5#4 239#8) := by decide
theorem test_decode_refused :
    decode 0x0000010D#32 = .error .illegalOpcode ∧ decode 0x00000100#32 = .error .illegalField ∧
    decode 0x80AFF00C#32 = .error .illegalField ∧ decodeTableWord 32 0xFF = none := by decide

/-! ## WellFormed: an ill-formed command for each check (30_encoding.md R104) -/

theorem test_wellFormed_reserved_tsel : (Instr.lutrd 10#4 0#8).wellFormed testParams = false := by decide
theorem test_wellFormed_zeroes : (Instr.lutrd 5#4 240#8).wellFormed testParams = false := by decide
theorem test_wellFormed_reverse_zeroes : (Instr.lutrd 7#4 240#8).wellFormed testParams = false := by decide
theorem test_wellFormed_powers : (Instr.lutrd 8#4 62#8).wellFormed testParams = false := by decide
theorem test_wellFormed_kconst : (Instr.lutrd 9#4 8#8).wellFormed testParams = false := by decide
theorem test_wellFormed_kconst_absent :
    (Instr.lutrd 9#4 0#8).wellFormed { testParams with multistream := false } = false := by decide

/-! ## The commands (95_test_vectors.md sections 1.1, 2.1 to 2.6) -/

theorem test_nop : (after (exec .nop (running 0#32 5#32 6#32 7#64 8#64))).map (fun t => (t.done, t.seq, t.result))
    = some (true, .idle, 0#32) := by decide

set_option maxRecDepth 20000 in
theorem test_empty : resultOf (exec .empty ready) = some (0#32, 0x82F63B78#32) := by decide

set_option maxRecDepth 20000 in
/-- The CRC-32C of "123456789" without the final complement. -/
theorem test_extend_digits : resultOf (exec .extend (running 2#32 0xFFFFFFFF#32 0#32 9#64 0x1000#64))
    = some (0#32, 0x1CF96D7C#32) := by decide

set_option maxRecDepth 20000 in
/-- The same digits by the GENERIC datapath, from EMPTY. -/
theorem test_extend_generic :
    resultOf (exec .extend { running 2#32 0x82F63B78#32 0#32 9#64 0x1000#64 with
      ctx := { word := 2#32, crcA := 0x82F63B78#32, crcB := 0#32, len := 9#64, addr := 0x1000#64,
               sel := { backend := .generic, ncrc := 1#2, npclmul := 1#2, strategy := .fold3 } } })
    = some (0#32, 0x22FC9104#32) := by decide

set_option maxRecDepth 20000 in
theorem test_extz : resultOf (exec .extz (running 3#32 0xDEADBEEF#32 0#32 256#64 0#64))
    = some (0#32, 0xDD1B866B#32) := by decide

set_option maxRecDepth 100000 in
theorem test_extz_longest : resultOf (exec .extz (running 3#32 0xDEADBEEF#32 0#32 0xFFFFFFFFFFFFFFFF#64 0#64))
    = some (0#32, 0xB392D579#32) := by decide

set_option maxRecDepth 20000 in
theorem test_unextz : resultOf (exec .unextz (running 4#32 0xFFFFFFFF#32 0#32 3#64 0#64))
    = some (0#32, 0x96DB52A8#32) := by decide

set_option maxRecDepth 20000 in
theorem test_unextz_longest : resultOf (exec .unextz (running 4#32 0xDEADBEEF#32 0#32 0xFFFFFFFFFFFFFFFF#64 0#64))
    = some (0#32, 0xC017BBE1#32) := by decide

set_option maxRecDepth 20000 in
theorem test_concat : resultOf (exec .concat (running 5#32 0xD0FF6A75#32 0xDACFA43B#32 5#64 0#64))
    = some (0#32, 0x22FC9104#32) := by decide

set_option maxRecDepth 20000 in
theorem test_combine : resultOf (exec .combine (running 6#32 0xF63AF4EE#32 0x83B565D8#32 5#64 0#64))
    = some (0#32, 0xE3069283#32) := by decide

theorem test_scramble : resultOf (exec .scramble (running 7#32 0x22FC9104#32 0#32 0#64 0#64))
    = some (0#32, 0xBA8F28B9#32) := by decide

/-- The sum wraps before the rotation. -/
theorem test_scramble_wraps : resultOf (exec .scramble (running 7#32 0xFFFFFFFF#32 0#32 0#64 0#64))
    = some (0#32, 0x720C973B#32) := by decide

theorem test_unscramble : resultOf (exec .unscramble (running 8#32 0x12345678#32 0#32 0#64 0#64))
    = some (0#32, 0x7E79404E#32) := by decide

set_option maxRecDepth 20000 in
theorem test_clmul : resultOf (exec .clmul (running 9#32 0x12345678#32 0x9ABCDEF0#32 0#64 0#64))
    = some (0x08860E94#32, 0x5CD25A80#32) := by decide

set_option maxRecDepth 20000 in
theorem test_mulmod : resultOf (exec .mulmod (running 0xA#32 0x12345678#32 0x9ABCDEF0#32 0#64 0#64))
    = some (0#32, 0x30370BB3#32) := by decide

set_option maxRecDepth 20000 in
theorem test_zconst : resultOf (exec .zconst (running 0xB#32 0#32 0#32 1024#64 0#64))
    = some (0#32, 0xE4172B16#32) := by decide

set_option maxRecDepth 20000 in
theorem test_zconst_empty_product : resultOf (exec .zconst (running 0xB#32 0#32 0#32 3#64 0#64))
    = some (0#32, 0x80000000#32) := by decide

set_option maxRecDepth 20000 in
theorem test_lutrd_word_tables :
    resultOf (exec (.lutrd 1#4 255#8) ready) = some (0#32, 0x009EA433#32) ∧
    resultOf (exec (.lutrd 4#4 1#8) ready) = some (0#32, 0xF20C0DFE#32) ∧
    resultOf (exec (.lutrd 6#4 255#8) ready) = some (0#32, 0x3D98BD6A#32) := by decide

set_option maxRecDepth 100000 in
theorem test_lutrd_constants :
    resultOf (exec (.lutrd 7#4 14#8) ready) = some (0#32, 0x0AB31C1F#32) ∧
    resultOf (exec (.lutrd 8#4 61#8) ready) = some (0#32, 0x00008000#32) ∧
    resultOf (exec (.lutrd 9#4 6#8) ready) = some (1#32, 0x1F91CAF6#32) := by decide

/-! ## Datapath intermediates (95_test_vectors.md section 2.7) -/

/-- PAT1 of section 2.7. -/
def pat1 (n : Nat) : List Byte := (List.range n).map fun i => BitVec.ofNat 8 (7 * i + 3 + i / 256)

set_option maxRecDepth 20000 in
/-- The carry-less-multiply lane over PAT1(128). -/
theorem test_pclmul_lane : pclmulLane reductionConstants (pat1 128) = 0x24F6B4A5#32 := by decide

set_option maxRecDepth 20000 in
/-- The combination of section 2.7's Fold3 row for L = 300. -/
theorem test_fold3_combine :
    fold3Combine powersTable 0xB360BE00#32 0xB3CC72CE#32 0x8224252E#32 96 = 0xFBA7C8EF#32 := by decide

/-! ## The register block (95_test_vectors.md section 2.8 and Programs 6 and 7) -/

set_option maxRecDepth 20000 in
/-- Every row of section 2.8 that rejects a LEN = 0 command in IDLE. -/
theorem test_rejections :
    cmdAnswer ready 0x0000000D#32 = some (.idle, .illegalOpcode) ∧
    cmdAnswer ready 0x000000FF#32 = some (.idle, .illegalOpcode) ∧
    cmdAnswer ready 0x0000010D#32 = some (.idle, .illegalOpcode) ∧
    cmdAnswer ready 0x00000103#32 = some (.idle, .illegalField) ∧
    cmdAnswer ready 0x8000000C#32 = some (.idle, .illegalField) ∧
    cmdAnswer ready 0x80AFF00C#32 = some (.idle, .illegalField) ∧
    cmdAnswer ready 0x000A000C#32 = some (.idle, .indexRange) ∧
    cmdAnswer ready 0x0005F00C#32 = some (.idle, .indexRange) ∧
    cmdAnswer ready 0x0007FF0C#32 = some (.idle, .indexRange) ∧
    cmdAnswer ready 0x00083E0C#32 = some (.idle, .indexRange) ∧
    cmdAnswer ready 0x0009080C#32 = some (.idle, .indexRange) := by decide

/-- The state check comes first. -/
theorem test_state_check :
    cmdAnswer (State.initial testParams) 0x0000000D#32 = some (.build, .notReady) ∧
    cmdAnswer { ready with seq := .fatal } 0x00000000#32 = some (.fatal, .notReady) ∧
    cmdAnswer (running 2#32 0#32 0#32 0#64 0#64) 0x00000003#32 = some (.busy, .busy) := by decide

/-- Program 6: the range check of EXTEND at its bounds. -/
theorem test_range_check :
    cmdAnswer { ready with addrLo := 0xFFFFFFF8#32, lenLo := 9#32 } 2#32 = some (.idle, .addrRange) ∧
    cmdAnswer { ready with addrLo := 0xFFFFFFF8#32, lenLo := 8#32 } 2#32 = some (.busy, .none) ∧
    cmdAnswer { ready with addrHi := 1#32, lenLo := 1#32 } 2#32 = some (.idle, .addrRange) ∧
    cmdAnswer { ready with addrHi := 1#32 } 2#32 = some (.busy, .none) := by decide

/-- The CTRL writes of section 2.8. -/
theorem test_ctrl_writes :
    ctrlAfter ready 0x00000158#32 = some 0x00000158#32 ∧ ctrlAfter ready 0x000000F8#32 = some 0x000000F8#32 ∧
    ctrlAfter ready 0x00000030#32 = some 0x00000030#32 ∧ ctrlAfter ready 0x00000018#32 = some 0x00000078#32 ∧
    ctrlAfter ready 0x00000010#32 = some 0x00000078#32 ∧ ctrlAfter ready 0x00000008#32 = some 0x00000078#32 ∧
    ctrlAfter ready 0x0000007D#32 = some 0x00000079#32 ∧ ctrlAfter ready 0xFFFFFFFF#32 = some 0x00000079#32 := by decide

/-- The last row of section 2.8: without the multi-stream unit MULTI is not legal. -/
theorem test_ctrl_without_unit :
    ctrlAfter (State.initial { testParams with multistream := false }) 0x00000078#32 = some 0x00000074#32 := by decide

/-- Program 7 steps 1 and 3: STATUS and IRQ after an early command, and with the interrupt enabled. -/
theorem test_early_command :
    (afterWrite (State.initial testParams) 0x0C 0#32).map (fun t => (readReg .status t, t.irq)) = some (0x00000309#32, false) ∧
    (afterWrite { ready with err := true, ecode := .notReady } 0x08 0x00000079#32).map (fun t => (readReg .status t, t.irq))
      = some (0x0000030A#32, true) := by decide

set_option maxRecDepth 20000 in
/-- Program 7 step 2: the end of BUILD. -/
theorem test_build_end :
    (after (step { State.initial testParams with err := true, ecode := .notReady })).map (readReg .status)
      = some 0x0000030A#32 := by decide

/-- Program 7 steps 4 and 6: the write-one-to-clear bits. -/
theorem test_status_clears :
    (afterWrite { ready with err := true, ecode := .notReady } 0x04 0x0000000C#32).map (readReg .status) = some 0x00000002#32 ∧
    (afterWrite { ready with done := true, err := true, ecode := .busy } 0x04 0x00000004#32).map (readReg .status)
      = some 0x0000040A#32 := by decide

/-- 10_state.md R34: a halfword access and an unaligned one get the bus error response. -/
theorem test_refused_access :
    (after (step (withInputs ready [.host { addr := 0x1010, bytes := 2, write := some 1#32 }]))).map
      (fun t => (t.resp, t.crcA)) = some (.busError, 0#32) ∧
    (after (step (withInputs ready [.host { addr := 0x1011, bytes := 4, write := some 1#32 }]))).map
      (fun t => (t.resp, t.crcA)) = some (.busError, 0#32) := by decide

/-! ## Fetch and memory -/

set_option maxRecDepth 20000 in
/-- A table word placed by `withFetchWord` is the command the very next step runs. -/
theorem test_withFetchWord :
    resultOf (step (State.withFetchWord { State.initial testParams with crcA := 0x12345678#32, crcB := 0x9ABCDEF0#32 }
      32 0x00000009)) = some (0x08860E94#32, 0x5CD25A80#32) := by decide

theorem test_memory_write :
    Memory.read (Memory.write digits 0x1004 0xFF#8) 0x1004 = 0xFF#8 ∧
    Memory.write (Memory.write digits 0x0FFF 0xFF#8) 0x0FFF 0#8 = digits := by decide

/-- A store reaches the engine when it is published. -/
theorem test_store_published :
    (after (step (withInputs ready [.store 0x1000 0xFF#8]))).map (fun t => (Memory.read t.mem 0x1000, t.unseen))
      = some (0x31#8, [(0x1000, 0xFF#8)]) ∧
    (after (step (withInputs { ready with unseen := [(0x1000, 0xFF#8)] } [.publish 0]))).map
      (fun t => (Memory.read t.mem 0x1000, t.unseen)) = some (0xFF#8, []) := by decide

/-- The data space ends at 2^32 here. -/
theorem test_store_outside : after (step (withInputs ready [.store 0x100000000 1#8])) = none := by decide

/-! ## Witnesses: states that meet the premises of the statements

One theorem for each statement with premises, at the boundary values of its clauses. -/

/-- In IDLE, with the registers a host has written. -/
def loaded : State :=
  { ready with
    crcA := 0x82F63B78#32
    crcB := 0xDACFA43B#32
    lenLo := 5#32
    addrLo := 0x1004#32
    result := 0xD0FF6A75#32
    done := true
    err := true
    ecode := .busError
    irqEn := true }

theorem ready_inv : ready.Inv :=
  ⟨by decide, by decide, by decide, by decide, by decide, fun _ => rfl, by decide, fun h => absurd h (by decide)⟩

/-- In IDLE after boot, without the multi-stream unit. -/
def readyWithout : State :=
  { State.initial { testParams with multistream := false } with seq := .idle, tables := builtTables false, mem := digits }

theorem readyWithout_inv : readyWithout.Inv :=
  ⟨by decide, by decide, by decide, by decide, by decide, fun _ => rfl, by decide, fun h => absurd h (by decide)⟩

/-- A running command that acceptance accepts meets the invariant. -/
theorem running_inv (w a b : Word) (len addr : DWord) (i : Instr) (hd : decode w = .ok i)
    (hw : i.wellFormed testParams = true) (hr : i = .extend → rangeOk testParams addr len = true) :
    (running w a b len addr).Inv :=
  ⟨by show Memory.wf digits = true; decide,
   by show ∀ x ∈ digits, x.1 < testParams.dataBytes; decide,
   fun _ h => absurd h List.not_mem_nil,
   by show selectionLegal true (unchosenDefault true) = true; decide,
   (by intro h; cases h),
   fun _ => rfl,
   ⟨(by intro h; cases h), fun h => absurd rfl h⟩,
   fun _ => ⟨⟨i, hd, hw, hr⟩, by show selectionLegal true (unchosenDefault true) = true; decide, rfl,
     fun _ h => absurd h List.not_mem_nil⟩⟩

/-- EXTEND of "56789" is running and meets the invariant. -/
theorem extending_inv : (running 2#32 0xD0FF6A75#32 0#32 5#64 0x1004#64).Inv :=
  running_inv _ _ _ _ _ .extend (by decide) rfl (fun _ => by decide)

/-- EXTEND is running with an input next. -/
def extendingWith (l : List Input) : State := withInputs (running 2#32 0xD0FF6A75#32 0#32 5#64 0x1004#64) l

theorem witness_DecodeEncodeAgree : decode 0x0009070C#32 = .ok (.lutrd 9#4 7#8) := by decide

/-- The highest command, the lowest illegal opcode, the lowest reserved bit of each format; each table's last index. -/
theorem witness_DecodeRejections :
    decode 0x000FFF0C#32 = .ok (.lutrd 15#4 255#8) ∧ decode 0x0000000D#32 = .error .illegalOpcode ∧
    decode 0x0000010B#32 = .error .illegalField ∧ decode 0x0010000C#32 = .error .illegalField ∧
    (Instr.lutrd 4#4 255#8).wellFormed testParams = true ∧ (Instr.lutrd 6#4 255#8).wellFormed testParams = true ∧
    (Instr.lutrd 5#4 239#8).wellFormed testParams = true ∧ (Instr.lutrd 7#4 239#8).wellFormed testParams = true ∧
    (Instr.lutrd 8#4 61#8).wellFormed testParams = true ∧ (Instr.lutrd 9#4 7#8).wellFormed testParams = true := by decide

/-- A device that chooses a legal default, one that does not choose, and one whose choice is not legal. -/
theorem witness_ResetValues :
    (∃ t, ({ testParams with dispatchChoice := some (unchosenDefault false) } : Params).dispatchChoice = some t ∧
      selectionLegal testParams.multistream t = true) ∧ testParams.dispatchChoice = none ∧
    (∃ t, ({ testParams with multistream := false, dispatchChoice := some (unchosenDefault true) } : Params).dispatchChoice
      = some t ∧ selectionLegal false t = false) :=
  ⟨⟨_, rfl, by decide⟩, rfl, ⟨_, rfl, by decide⟩⟩

theorem witness_ResetInput : (withInputs loaded [.reset]).inputs = .reset :: [] := rfl

set_option maxRecDepth 20000 in
/-- Each clause: no transition, reset, the end of BUILD, acceptance, completion. -/
theorem witness_SequencerTransitions :
    (∃ t, step (withInputs ready [.readError]) = .next t ∧ t.seq = ready.seq) ∧
    (∃ t, step (withInputs ready [.reset]) = .next t ∧ (withInputs ready [.reset]).inputs.head? = some .reset ∧
      t.seq = .build) ∧
    (∃ t, step (State.initial testParams) = .next t ∧ (State.initial testParams).engineNext ∧ t.seq = .idle) ∧
    (∃ t, step (withInputs ready [busWrite testParams 0x0C 1#32]) = .next t ∧ t.seq = .busy) ∧
    (∃ t, step (extendingWith [.engine]) = .next t ∧ (extendingWith [.engine]).engineNext ∧ t.seq = .idle) :=
  ⟨⟨_, rfl, rfl⟩, ⟨_, rfl, rfl, rfl⟩, ⟨_, rfl, .inl rfl, by decide⟩, ⟨_, rfl, by decide⟩, ⟨_, rfl, .inr rfl, by decide⟩⟩

theorem witness_BuildCompletes : (State.initial testParams).engineNext ∧ (State.initial testParams).seq = .build :=
  ⟨.inl rfl, rfl⟩

/-- The bounds of the indexes of WordTableContents, ZeroTableContents, ReverseTableContents and PowersContents: the
lowest and the highest. -/
theorem witness_table_bounds :
    (0 < 4 ∧ 3 < 4) ∧ (0 < 16 ∧ 15 < 16 ∧ 1 ≤ 1 ∧ 1 ≤ 15 ∧ 15 ≤ 15) ∧ (0 < 62 ∧ 61 < 62) ∧ (0 < 31 ∧ 30 < 31) ∧
    ((5, 64) : Nat × Nat) ∈ [(0, 576), (1, 512), (2, 192), (3, 128), (4, 96), (5, 64)] := by decide

/-- An input list whose first is a CMD write; test_rejections, test_state_check and test_range_check meet each outcome. -/
theorem witness_CmdWriteOutcome :
    (withInputs loaded [busWrite testParams 0x0C 0x0009070C#32]).inputs = busWrite loaded.params 0x0C 0x0009070C#32 :: [] ∧
    cmdAnswer loaded 0x0009070C#32 = some (.busy, .busError) := ⟨rfl, by decide⟩

theorem witness_HostAccessKeepsRunningCommand :
    (extendingWith [busWrite testParams 0x10 0xFFFFFFFF#32]).seq = .busy ∧
    (extendingWith [busWrite testParams 0x10 0xFFFFFFFF#32]).inputs
      = .host { addr := 0x1010, bytes := 4, write := some 0xFFFFFFFF#32 } :: [] := ⟨rfl, rfl⟩

theorem witness_StatusRead :
    (withInputs loaded [busRead testParams 0x04]).inputs = busRead loaded.params 0x04 :: [] ∧
    (after (step (withInputs loaded [busRead testParams 0x04]))).map (·.resp) = some (.data 0x0000070E#32) :=
  ⟨rfl, by decide⟩

theorem witness_StatusWrite :
    (withInputs loaded [busWrite testParams 0x04 0xC#32]).inputs = busWrite loaded.params 0x04 0xC#32 :: [] ∧
    (afterWrite loaded 0x04 0xC#32).map (fun t => (t.done, t.err, t.ecode)) = some (false, false, .none) :=
  ⟨rfl, by decide⟩

/-- ERR and DONE are cleared by reset, by their write-one bits, and DONE by acceptance. -/
theorem witness_StickyStatusBits :
    (∃ t, step (withInputs loaded [.reset]) = .next t ∧ loaded.err = true ∧ t.err = false ∧ t.done = false) ∧
    (∃ t, step (withInputs loaded [busWrite testParams 0x04 0x8#32]) = .next t ∧ t.err = false ∧ t.done = true) ∧
    (∃ t, step (withInputs loaded [busWrite testParams 0x04 0x4#32]) = .next t ∧ t.err = true ∧ t.done = false) ∧
    (∃ t, step (withInputs loaded [busWrite testParams 0x0C 0#32]) = .next t ∧ loaded.done = true ∧ t.done = false) :=
  ⟨⟨_, rfl, rfl, rfl, rfl⟩, ⟨_, rfl, by decide, by decide⟩, ⟨_, rfl, by decide, by decide⟩, ⟨_, rfl, rfl, by decide⟩⟩

/-- A legal value with the least lane total, and one below it; a read of CTRL. -/
theorem witness_CtrlWrite :
    (withInputs loaded [busWrite testParams 0x08 0x58#32]).inputs = busWrite loaded.params 0x08 0x58#32 :: [] ∧
    ctrlAfter loaded 0x00000020#32 = some 0x00000020#32 ∧ ctrlAfter loaded 0x00000011#32 = some 0x00000079#32 ∧
    (withInputs loaded [busRead testParams 0x08]).inputs = busRead loaded.params 0x08 :: [] ∧
    (after (step (withInputs loaded [busRead testParams 0x08]))).map (·.resp) = some (.data 0x00000079#32) :=
  ⟨rfl, by decide, by decide, rfl, by decide⟩

/-- A write and the read after it, a write of each operand register, and a read of each in a state where no two of them
hold the same word. -/
theorem witness_OperandRegisterWrites :
    (withInputs loaded [busWrite testParams 0x10 7#32, busRead testParams 0x10]).inputs
      = busWrite loaded.params 0x10 7#32 :: busRead loaded.params 0x10 :: [] ∧
    (afterWrite loaded 0x10 7#32).map (·.crcA) = some 7#32 ∧ (afterWrite loaded 0x14 7#32).map (·.crcB) = some 7#32 ∧
    (afterWrite loaded 0x18 7#32).map (·.lenLo) = some 7#32 ∧ (afterWrite loaded 0x1C 7#32).map (·.lenHi) = some 7#32 ∧
    (afterWrite loaded 0x20 7#32).map (·.addrLo) = some 7#32 ∧ (afterWrite loaded 0x24 7#32).map (·.addrHi) = some 7#32 ∧
    (∀ x ∈ [(0x10, 0x82F63B78#32), (0x14, 0xDACFA43B#32), (0x18, 5#32), (0x1C, 1#32), (0x20, 0x1004#32), (0x24, 0#32)],
      (after (step { withInputs loaded [busRead testParams x.1] with lenHi := 1#32 })).map (·.resp) = some (.data x.2)) :=
  ⟨rfl, by decide, by decide, by decide, by decide, by decide, by decide, by decide⟩

/-- POLY, RESULT, RESULT_HI and the first and the last reserved offset; reads of CMD and of those offsets; reads of POLY
and of the two result registers, which hold different words, while a command runs. -/
theorem witness_ReadOnlyAndReserved :
    (∀ offset ∈ [0x00, 0x28, 0x2C, 0x30, 0xFC], offset < 256 ∧ offset % 4 = 0 ∧
      afterWrite loaded offset 7#32 = some { loaded with resp := .written }) ∧
    (∀ offset ∈ [0x0C, 0x30, 0xFC], offset < 256 ∧ offset % 4 = 0 ∧
      after (step (withInputs loaded [busRead testParams offset])) = some { loaded with resp := .data 0#32 }) ∧
    (∀ x ∈ [(0x00, 0x82F63B78#32), (0x28, 0x5CD25A80#32), (0x2C, 0x08860E94#32)],
      (after (step { extendingWith [busRead testParams x.1] with result := 0x5CD25A80#32, resultHi := 0x08860E94#32 })).map
        (·.resp) = some (.data x.2)) :=
  ⟨by simp; exact ⟨rfl, rfl, rfl, rfl, rfl⟩, by simp; exact ⟨rfl, rfl, rfl⟩, by decide⟩

/-- The first and the last byte of the block, and the bytes around it; another size, another alignment. -/
theorem witness_RefusedAccess :
    after (step (withInputs loaded [.host { addr := 0x1000, bytes := 1, write := none }]))
      = some { loaded with resp := .busError } ∧
    after (step (withInputs loaded [.host { addr := 0x10FF, bytes := 4, write := none }]))
      = some { loaded with resp := .busError } ∧
    after (step (withInputs loaded [.host { addr := 0x0FFF, bytes := 4, write := none }]))
      = some { loaded with resp := .notSelected } ∧
    after (step (withInputs loaded [.host { addr := 0x1100, bytes := 4, write := none }]))
      = some { loaded with resp := .notSelected } := ⟨rfl, rfl, rfl, rfl⟩

/-- EXTEND's premises: a buffer that ends with the data space, and an empty one beyond it. -/
theorem witness_ExtendResult :
    (running 2#32 1#32 0#32 8#64 0xFFFFFFF8#64).Equipped ∧ 0xFFFFFFF8 + 8 ≤ 2 ^ testParams.addrWidth ∧
    (running 2#32 1#32 0#32 8#64 0xFFFFFFF8#64).readFailed = false ∧
    (running 2#32 1#32 0#32 8#64 0xFFFFFFF8#64).bufferTouched = false :=
  ⟨⟨rfl, by decide⟩, by decide, rfl, rfl⟩

theorem witness_ExtendEmptyMessage :
    (running 2#32 1#32 0#32 0#64 0x100000000#64).Equipped ∧ (running 2#32 1#32 0#32 0#64 0x100000000#64).ctx.len = 0#64 :=
  ⟨⟨rfl, by decide⟩, rfl⟩

/-- A store to the last byte of the range, or to the byte after it. -/
theorem witness_ExtendTouchedBuffer :
    (after (step (extendingWith [.store 0x1008 0#8]))).map (fun t => (t.bufferTouched, t.readFailed))
      = some (true, false) ∧
    (after (step (extendingWith [.store 0x1009 0#8]))).map (·.bufferTouched) = some false ∧
    (0x1004 : Nat) + 5 ≤ 2 ^ testParams.addrWidth := by decide

/-- The error, a store to the range and a host's read of STATUS after it, then the completion. -/
theorem witness_ExtendBusError :
    (extendingWith [.readError]).seq = .busy ∧ decode (extendingWith [.readError]).ctx.word = .ok .extend ∧
    (extendingWith [.readError]).ctx.len ≠ 0#64 ∧ 0x1004 + 5 ≤ 2 ^ testParams.addrWidth ∧
    (after (step (extendingWith [.readError]))).map (fun t => (t.seq, t.readFailed)) = some (.busy, true) ∧
    (∀ i ∈ [.store 0x1004 0#8, busRead testParams 0x04],
      (after (step { extendingWith [i] with readFailed := true })).map (fun t => (t.seq, t.readFailed))
        = some (.busy, true)) ∧
    (extendingWith [.engine]).engineNext ∧
    (after (step { extendingWith [.engine] with readFailed := true })).map (readReg .status) = some 0x0000070A#32 :=
  ⟨rfl, by decide, by decide, by decide, by decide, by decide, .inr rfl, by decide⟩

/-- The tables stand built: the premise of ExtzResult, UnextzResult, ConcatResult, CombineResult, ZconstResult,
LutrdResult, BackendInvariance and SplitInvariance. -/
theorem witness_tables : (running 3#32 1#32 0#32 5#64 0#64).tables
    = builtTables (running 3#32 1#32 0#32 5#64 0#64).params.multistream := rfl

set_option maxRecDepth 20000 in
/-- Every table's last entry. -/
theorem witness_LutrdResult : ready.tables = builtTables ready.params.multistream ∧
    (∀ x ∈ [(0#4, 255#8), (1#4, 255#8), (4#4, 255#8), (5#4, 239#8), (6#4, 255#8), (7#4, 239#8), (8#4, 61#8), (9#4, 7#8)],
      (Instr.lutrd x.1 x.2).wellFormed ready.params = true) := ⟨rfl, by decide⟩

/-- A command that succeeds and one that fails. -/
theorem witness_CommandFrame :
    (∃ t, exec .nop loaded = .next t ∧ t.done = true) ∧
    (∃ t, exec (.lutrd 10#4 0#8) loaded = .next t ∧ t.err = true) := ⟨⟨_, rfl, rfl⟩, ⟨_, rfl, by decide⟩⟩

theorem witness_EngineWritesNoMemory :
    ((extendingWith [.engine]).engineNext ∧ ∃ t, step (extendingWith [.engine]) = .next t) ∧
    (ready.engineNext ∧ ready.seq = .idle ∧ ∃ t, step ready = .next t) := ⟨⟨.inr rfl, ⟨_, rfl⟩⟩, .inl rfl, rfl, ⟨_, rfl⟩⟩

/-- Two READY states that both have the multi-stream unit, and a third that has not. -/
theorem witness_TablesImmutable :
    (∃ t, step ready = .next t ∧ ready.seq ≠ .build ∧ ready.inputs.head? ≠ some .reset) ∧
    (ready.Inv ∧ ready.readyBit = true) ∧
    ((running 2#32 0xD0FF6A75#32 0#32 5#64 0x1004#64).Inv ∧
      (running 2#32 0xD0FF6A75#32 0#32 5#64 0x1004#64).readyBit = true ∧
      ready.params.multistream = (running 2#32 0xD0FF6A75#32 0#32 5#64 0x1004#64).params.multistream) ∧
    (readyWithout.Inv ∧ readyWithout.readyBit = true ∧ readyWithout.params.multistream ≠ ready.params.multistream) :=
  ⟨⟨_, rfl, by decide, by decide⟩, ⟨ready_inv, rfl⟩, ⟨extending_inv, rfl, rfl⟩, ⟨readyWithout_inv, rfl, by decide⟩⟩

/-- The smallest lane total and the largest. -/
theorem witness_BackendInvariance :
    ready.tables = builtTables ready.params.multistream ∧
    selectionLegal ready.params.multistream { backend := .generic, ncrc := 2#2, npclmul := 0#2, strategy := .fold3 } = true ∧
    selectionLegal ready.params.multistream { backend := .multi, ncrc := 3#2, npclmul := 3#2, strategy := .unroll64 } = true :=
  ⟨rfl, by decide, by decide⟩

set_option maxRecDepth 20000 in
/-- "1234" and "56789" as both clauses want them. -/
theorem witness_SplitInvariance :
    (running 5#32 0xD0FF6A75#32 0xDACFA43B#32 5#64 0#64).ctx.len.toNat = [0x35#8, 0x36#8, 0x37#8, 0x38#8, 0x39#8].length ∧
    0xD0FF6A75#32 = ext Config.emptyValue [0x31#8, 0x32#8, 0x33#8, 0x34#8] ∧
    0xDACFA43B#32 = ext Config.emptyValue [0x35#8, 0x36#8, 0x37#8, 0x38#8, 0x39#8] ∧
    0xC6C713ED#32 = ext 0#32 [0x35#8, 0x36#8, 0x37#8, 0x38#8, 0x39#8] := by decide

theorem witness_StepKeepsInv : ready.Inv ∧ ∃ t, step ready = .next t := ⟨ready_inv, ⟨_, rfl⟩⟩

theorem witness_RunningIsEquipped :
    (running 2#32 0xD0FF6A75#32 0#32 5#64 0x1004#64).Inv ∧ (running 2#32 0xD0FF6A75#32 0#32 5#64 0x1004#64).seq = .busy :=
  ⟨extending_inv, rfl⟩

theorem witness_StepRunsDecodedCommand :
    (extendingWith [.engine]).seq = .busy ∧ (extendingWith [.engine]).engineNext ∧
    decode (extendingWith [.engine]).ctx.word = .ok .extend := ⟨rfl, .inr rfl, by decide⟩

theorem witness_FetchWordRuns : decodeTableWord 32 0x0000800C = some (.lutrd 0#4 128#8) := by decide

theorem witness_RunningCommandCompletes :
    (running 2#32 0xD0FF6A75#32 0#32 5#64 0x1004#64).Inv ∧ (running 2#32 0xD0FF6A75#32 0#32 5#64 0x1004#64).seq = .busy ∧
    (running 2#32 0xD0FF6A75#32 0#32 5#64 0x1004#64).engineNext := ⟨extending_inv, rfl, .inl rfl⟩

/-- Stores to the first and the last byte of the range and to the bytes around it; pending stores that become visible at
the same places, the one at the last byte writing the byte it held; a mark that stays. -/
theorem witness_UnmarkedBufferIsKept :
    (∀ x ∈ [(0x1003, false), (0x1004, true), (0x1008, true), (0x1009, false)],
      (after (step (extendingWith [.store x.1 1#8]))).map (fun t => (t.seq, t.bufferTouched)) = some (.busy, x.2)) ∧
    (∀ x ∈ [(0x1003, 1#8, false), (0x1004, 1#8, true), (0x1008, 0x39#8, true), (0x1009, 1#8, false)],
      (after (step { extendingWith [.publish 0] with unseen := [(x.1, x.2.1)] })).map (fun t => (t.seq, t.bufferTouched))
        = some (.busy, x.2.2)) ∧
    (after (step { extendingWith [.publish 0] with bufferTouched := true })).map (fun t => (t.seq, t.bufferTouched))
      = some (.busy, true) := by decide

/-- The last byte of the data space; a pending store and its place. -/
theorem witness_DataMemoryInputs :
    Memory.wf ready.mem = true ∧ 0xFFFFFFFF < 2 ^ ready.params.addrWidth ∧
    ({ ready with unseen := [(0x1000, 1#8)] } : State).unseen[0]? = some (0x1000, 1#8) := by decide

end Sys2Proof.Tests
end

/-!
The closed form of extension (00_scope.md R12). A byte in the low bits of a word is its polynomial times x^24, so a byte
step adds the byte's polynomial times x^32, shifted past the bytes that follow it.
-/

namespace Sys2Proof.Proofs
open Sys2Proof.Machine Sys2Proof.Laws Polynomial

@[simp] theorem messagePoly_nil : messagePoly [] = 0 := rfl

theorem messagePoly_singleton (b : Byte) :
    messagePoly [b] = ∑ i ∈ Finset.range 8, if b.getLsbD i then X ^ (7 - i) else 0 := by
  simp [messagePoly]

/-- A byte with `m` bits after it. -/
theorem messagePoly_singleton_shift (b : Byte) (m : Nat) :
    messagePoly [b] * X ^ m = ∑ i ∈ Finset.range 8, if b.getLsbD i then X ^ (m + 7 - i) else 0 := by
  rw [messagePoly_singleton, Finset.sum_mul]
  refine Finset.sum_congr rfl fun i hi => ?_
  have hi := Finset.mem_range.1 hi
  rw [ite_mul, zero_mul, ← pow_add, show 7 - i + m = m + 7 - i by omega]

/-- The first byte stands above all the others. -/
theorem messagePoly_cons (b : Byte) (bs : List Byte) :
    messagePoly (b :: bs) = messagePoly [b] * X ^ (8 * bs.length) + messagePoly bs := by
  have rest (k : Nat) : bs.length - 1 - k = bs.length - (k + 1) := by omega
  rw [messagePoly_singleton_shift, add_comm, messagePoly, List.length_cons, Finset.sum_range_succ']
  simp only [messagePoly, List.getD_cons_succ, List.getD_cons_zero, Nat.add_sub_cancel, Nat.sub_zero, rest]

/-- Bit i of a byte is the coefficient of x^(7 - i) in its message and of x^(31 - i) in the word that holds it. -/
theorem polyOf_byte (b : Byte) : polyOf (b.setWidth 32) = messagePoly [b] * X ^ 24 := by
  rw [messagePoly_singleton_shift]
  have high (i : Nat) (hi : 8 ≤ i) : (b.setWidth 32).getLsbD i = false := by simp [BitVec.getLsbD_of_ge b i hi]
  have low (i : Nat) (hi : i < 32) : (b.setWidth 32).getLsbD i = b.getLsbD i := by simp [hi]
  refine (Finset.sum_subset_zero_on_sdiff (Finset.range_subset_range.2 (by decide)) (fun i hi => ?_) fun i hi => ?_).symm
  · simp only [Finset.mem_sdiff, Finset.mem_range, not_lt] at hi
    simp [high i hi.2]
  · rw [low i (by have := Finset.mem_range.1 hi; omega)]

/-- One byte step multiplies by x^8 modulo P, the byte joining the accumulator first (00_scope.md R11). -/
theorem dvd_byteStep (c : Word) (b : Byte) :
    generator ∣ (polyOf c * X ^ 8 + messagePoly [b] * X ^ 32) - polyOf (byteStep c b) := by
  have h := dvd_bitSteps 8 (c ^^^ b.setWidth 32)
  rw [← byteStep_eq, polyOf_xor, polyOf_byte] at h
  rwa [show polyOf c * X ^ 8 + messagePoly [b] * X ^ 32 = X ^ 8 * (polyOf c + messagePoly [b] * X ^ 24) by ring]

theorem dvd_ext (c : Word) (bs : List Byte) :
    generator ∣ (polyOf c * X ^ (8 * bs.length) + messagePoly bs * X ^ 32) - polyOf (ext c bs) := by
  induction bs generalizing c with
  | nil => simp
  | cons b bs ih =>
    have h := dvd_add (Dvd.dvd.mul_right (dvd_byteStep c b) (X ^ (8 * bs.length))) (ih (byteStep c b))
    rw [ext_cons, messagePoly_cons, List.length_cons]
    convert h using 1
    ring

/-- Extension as a remainder modulo P (00_scope.md R12). -/
theorem polyOf_ext (c : Word) (bs : List Byte) :
    polyOf (ext c bs) = (polyOf c * X ^ (8 * bs.length) + messagePoly bs * X ^ 32) %ₘ generator :=
  (polyOf_eq_mod_iff _ _).2 (dvd_ext c bs)

theorem ext_xor_eq_extZ (c d : Word) (bs : List Byte) : ext (c ^^^ d) bs = ext c bs ^^^ extZ d bs.length := by
  rw [ext_xor, extZ_eq]

/-- Settles O43: the closed form by induction on the bytes, its consequences from the laws of `ext` and `extZ`. -/
theorem extensionClosedForm : Obligations.ExtensionClosedForm :=
  ⟨polyOf_ext, ext_xor_eq_extZ, ext_replicate_eq_extZ, ext_append⟩

end Sys2Proof.Proofs

/-!
The IRQ level (10_state.md R49) and the tables outside BUILD (R46): no step but reset changes them, and what BUILD leaves
depends on the presence of the multi-stream unit alone, and on that only in the reduction constants (R45).
-/

namespace Sys2Proof.Proofs
open Sys2Proof.Machine Sys2Proof.Laws

/-! ## What leaves the tables alone -/

@[simp] theorem writeStatus_tables (w : Word) (s : State) : (writeStatus w s).tables = s.tables := by
  rw [writeStatus, clearErr_tables, clearDone_tables]

@[simp] theorem writeCmd_tables (w : Word) (s : State) : (writeCmd w s).tables = s.tables := by
  obtain ⟨_, _, h⟩ | ⟨_, _, h, _⟩ := writeCmd_cases w s
  · rw [h, latch_tables]
  · rw [h, recordError_tables]

@[simp] theorem writeReg_tables (r : Reg) (w : Word) (s : State) : (writeReg r w s).tables = s.tables := by
  obtain ⟨_, h⟩ | ⟨_, h⟩ | ⟨_, h⟩ | ⟨_, _, _, _, _, _, h⟩ := writeReg_cases r w s
  · rw [h, writeStatus_tables]
  · rw [h, writeCtrl_tables]
  · rw [h, writeCmd_tables]
  · rw [h]

theorem tables_eq_of_ends {s t : State} (h : Ends s t) : t.tables = s.tables := by
  obtain ⟨-, -, -, -, -, -, -, -, -, -, -, -, htables, -⟩ := h.frame
  exact htables

/-- The end of BUILD and reset are the only steps that write a table. -/
theorem tables_eq_of_stepDid {s t : State} (h : StepDid s t) (hbuild : s.seq ≠ .build)
    (hreset : s.inputs.head? ≠ some .reset) : t.tables = s.tables := by
  cases h with
  | built _ hs => exact absurd hs hbuild
  | reset hi => exact absurd hi hreset
  | completed _ _ _ _ he => exact (tables_eq_of_ends he).trans (dropInput_tables s)
  | wrote _ r w => exact (writeReg_tables r w s.dropInput).trans (dropInput_tables s)
  | rested | answered | stored | published | nothing | readError => rfl

/-- Settles O41: by the cases of a step, and because two READY states both hold what BUILD leaves, in which only the
reduction constants look at the multi-stream unit. -/
theorem tablesImmutable : Obligations.TablesImmutable := by
  refine ⟨fun s t hstep => tables_eq_of_stepDid (step_next hstep), fun s t hs ht hsr htr => ?_⟩
  rw [hs.built hsr, ht.built htr]
  exact ⟨rfl, rfl, rfl, rfl, rfl, rfl, fun hm => by rw [hm]⟩

/-! ## The IRQ level in the registers -/

@[simp] theorem readReg_ctrl (s : State) : readReg .ctrl s = ctrlWord s.irqEn s.sel := rfl

@[simp] theorem readReg_status (s : State) : readReg .status s = statusWord s := rfl

/-- Settles O20: the bits a host reads are the fields the IRQ level is made of. -/
theorem irqLevel : Obligations.IrqLevel := by
  intro s
  rw [readReg_ctrl, readReg_status, ctrl_irqEn, status_done, status_err, State.irq]

end Sys2Proof.Proofs

/-!
The end of BUILD (40_table_builder.md R142).
-/

namespace Sys2Proof.Proofs
open Sys2Proof.Machine Sys2Proof.Laws

/-- The engine's turn in BUILD, as one step of the machine. -/
theorem step_of_build {s : State} (h : s.engineNext) (hs : s.seq = .build) :
    step s = .next { s.dropInput with seq := .idle, tables := builtTables s.params.multistream } := by
  rw [step_of_engineNext s h, engineTurn, dropInput_seq, hs]
  exact congrArg Host.Outcome.next (finishBuild_eq s.dropInput)

/-- Settles O7: by the step BUILD ends with, which writes SEQ and the tables alone. -/
theorem buildCompletes : Obligations.BuildCompletes := by
  intro s h hs
  refine ⟨_, step_of_build h hs, rfl, ?_, ?_, rfl, rfl, rfl⟩
  · rw [readReg_status, status_busy]; rfl
  · rw [readReg_status, status_ready]; rfl

end Sys2Proof.Proofs

/-!
What the tables hold (40_table_builder.md R131, R133, R136, R139). A sample value is read off the closed form; the
exponents too large for that are first reduced by x^(2^31) = x.
-/

namespace Sys2Proof.Proofs
open Sys2Proof.Machine Sys2Proof.Laws

/-! ## Powers of x modulo P -/

/-- Multiplication by a power of x is that many bit steps (00_scope.md R11). -/
theorem mulMod_xPow (c : Word) (k : Nat) : mulMod c (xPow k) = bitSteps k c := by
  rw [← mulModHw_eq, mulModHw_xPow]

theorem mulMod_xPow_self (k : Nat) : mulMod (xPow k) (xPow k) = xPow (k + k) := by
  rw [mulMod_xPow, ← xPow_add]

theorem poly_eq_xPow : Config.poly = xPow 32 := poly_eq_power.trans (bitSteps_eq 32 one).symm

set_option maxRecDepth 20000 in
/-- 26 squarings of POLY give x (40_table_builder.md R139). -/
theorem entry_powersTable_26 : entry powersTable 26 = 0x40000000#32 := by decide

theorem xPow_two_pow_31 : xPow (2 ^ 31) = xPow 1 := (entry_powersTable 26 (by decide)).symm.trans entry_powersTable_26

theorem bitSteps_two_pow_31 (c : Word) : bitSteps (2 ^ 31) c = bitSteps 1 c := by
  rw [← mulMod_xPow, xPow_two_pow_31, mulMod_xPow]

/-- Raising a power of x to 2^31 changes nothing. -/
theorem xPow_mul_two_pow_31 (n : Nat) : xPow (n * 2 ^ 31) = xPow n := by
  induction n with
  | zero => rw [Nat.zero_mul]
  | succ n ih => rw [Nat.succ_mul, Nat.add_comm, xPow_add, bitSteps_two_pow_31, ih, ← xPow_add, Nat.add_comm]

set_option maxRecDepth 20000 in
theorem xPow_120 : xPow 120 = 0xC94EC098#32 := by decide

set_option maxRecDepth 20000 in
theorem xPow_128 : xPow 128 = 0x18B8EA18#32 := by decide

/-! ## table0 and the word-interleaved tables -/

/-- Each power of two doubles a row (40_table_builder.md R132). -/
theorem foldl_row_length (ps t : List Word) :
    (ps.foldl (fun t p => t ++ t.map (p ^^^ ·)) t).length = 2 ^ ps.length * t.length := by
  induction ps generalizing t with
  | nil => simp
  | cons p ps ih => rw [List.foldl_cons, ih, List.length_append, List.length_map, List.length_cons]; ring

theorem rowPowers_length (q top : Word) : (rowPowers q top).length = 8 := rfl

theorem tableRow_length (q top : Word) : (tableRow q top).length = 256 := by
  simp [tableRow, foldl_row_length, rowPowers_length]

theorem entry_table0 (m : Bool) (b : Byte) : entry (builtTables m).table0 b.toNat = byteEntry b := entry_row_poly b

/-- Settles O8: the closed form of a row, at the four bytes for the values. -/
theorem byteTableContents : Obligations.ByteTableContents := by
  intro m
  refine ⟨rfl, tableRow_length _ _, fun i => ⟨entry_table0 m i, ?_⟩, (entry_table0 m 0#8).trans ?_,
    (entry_table0 m 1#8).trans ?_, (entry_table0 m 128#8).trans ?_, (entry_table0 m 255#8).trans ?_⟩
  · rw [entry_table0, mulMod_xPow, byteEntry]
  all_goals decide

theorem interleavedLast_eq_xPow : interleavedLast = xPow (32 + 96) := by
  rw [interleavedLast_eq, poly_eq_xPow, ← xPow_add]

theorem interleaved_row_length (m : Bool) (j : Nat) (hj : j < 4) :
    ((builtTables m).interleaved.getD j []).length = 256 := by
  rw [built_interleaved m j hj, List.length_map, tableRow_length]

theorem entry_interleaved_eq_extZ (m : Bool) (j : Nat) (hj : j < 4) (b : Byte) :
    entry ((builtTables m).interleaved.getD j []) b.toNat = extZ (entry (builtTables m).table0 b.toNat) (12 + j) := by
  rw [entry_interleaved m j hj, extZ_eq, entry_table0]

/-- The sample values of 40_table_builder.md R133: table, index, entry. -/
def wordTableSamples : List (Nat × Nat × Word) :=
  [(0, 1, 0x30D23865#32), (0, 128, 0x18B8EA18#32), (1, 1, 0x54075546#32), (2, 1, 0x678EFD01#32),
    (3, 1, 0xF20C0DFE#32), (3, 255, 0x8FDA7DFA#32)]

set_option maxRecDepth 20000 in
theorem bitSteps_wordTableSamples : ∀ x ∈ wordTableSamples, x.1 < 4 ∧ x.2.1 < 256 ∧
    bitSteps (8 * (12 + x.1)) (byteEntry (BitVec.ofNat 8 x.2.1)) = x.2.2 := by decide

theorem entry_wordTableSamples (m : Bool) :
    ∀ x ∈ wordTableSamples, entry ((builtTables m).interleaved.getD x.1 []) x.2.1 = x.2.2 := by
  intro x hx
  obtain ⟨hj, hi, hv⟩ := bitSteps_wordTableSamples x hx
  rw [← hv, ← entry_interleaved m x.1 hj, BitVec.toNat_ofNat, Nat.mod_eq_of_lt hi]

/-- Settles O9: `last` and every entry as powers of the bit step. -/
theorem wordTableContents : Obligations.WordTableContents :=
  ⟨rfl, interleavedLast_eq_xPow, interleavedLast_eq_xPow.trans xPow_128, fun m => ⟨rfl, rfl, fun j hj =>
    ⟨interleaved_row_length m j hj, entry_interleaved_eq_extZ m j hj⟩, entry_wordTableSamples m⟩⟩

/-! ## The zero table and the powers -/

theorem entry_zeroes (m : Bool) (k c : Nat) (hk : k < 16) (hc : 1 ≤ c) (hc' : c ≤ 15) :
    entry (builtTables m).zeroes (15 * k + c - 1) = xPow (8 * c * 16 ^ k) :=
  (entry_fillZeroesTable Config.poly k c hk hc hc').trans (bitSteps_eq _ _).symm

/-- The exponent of the last zero-table entry reduces to 30. -/
theorem xPow_last_zeroes : xPow (8 * 15 * 16 ^ 15) = xPow 30 := by
  rw [show 8 * 15 * 16 ^ 15 = 30 * 2 ^ 31 * 2 ^ 31 by norm_num, xPow_mul_two_pow_31, xPow_mul_two_pow_31]

/-- Settles O10: the closed form, and at the six entries small powers of x. -/
theorem zeroTableContents : Obligations.ZeroTableContents := by
  intro m
  have run (k c : Nat) : k < 16 ∧ 1 ≤ c ∧ c ≤ 15 →
      entry (builtTables m).zeroes (15 * k + c - 1) = xPow (8 * c * 16 ^ k) :=
    fun ⟨hk, hc, hc'⟩ => entry_zeroes m k c hk hc hc'
  exact ⟨rfl, fillZeroesTable_length _, entry_zeroes m, (run 0 1 (by decide)).trans (by decide),
    (run 0 2 (by decide)).trans (by decide), (run 0 3 (by decide)).trans (by decide),
    (run 0 15 (by decide)).trans xPow_120, (run 1 1 (by decide)).trans xPow_128,
    (run 15 15 (by decide)).trans (xPow_last_zeroes.trans (by decide))⟩

theorem built_powers (m : Bool) : (builtTables m).powers = powersTable := rfl

theorem powersFrom_length (n : Nat) (v : Word) : (powersFrom n v).length = n := by
  induction n generalizing v with
  | zero => rfl
  | succ n ih => rw [powersFrom, List.length_cons, ih]

theorem entry_powersTable_succ (i : Nat) (hi : i < 61) :
    entry powersTable (i + 1) = mulMod (entry powersTable i) (entry powersTable i) := by
  rw [entry_powersTable _ (by omega), entry_powersTable _ (by omega), mulMod_xPow_self]
  congr 1
  ring

/-- The powers repeat after 31 squarings (40_table_builder.md R139). -/
theorem entry_powersTable_add_31 (i : Nat) (hi : i < 31) : entry powersTable (i + 31) = entry powersTable i := by
  rw [entry_powersTable _ (by omega), entry_powersTable _ (by omega), pow_add, ← Nat.mul_assoc, xPow_mul_two_pow_31]

set_option maxRecDepth 20000 in
theorem powersTable_take_8 : powersTable.take 8 = [0x82F63B78#32, 0x6EA2D55C#32, 0x18B8EA18#32, 0x510AC59A#32,
    0xB82BE955#32, 0xB8FDB1E7#32, 0x88E56F72#32, 0x74C360A4#32] := by decide

/-- Settles O12: the closed form by induction on the squarings, the period because x^(2^31) = x. -/
theorem powersContents : Obligations.PowersContents := by
  intro m
  rw [built_powers]
  exact ⟨powersFrom_length _ _, entry_powersTable, rfl, entry_powersTable_succ, powersTable_take_8,
    entry_powersTable_add_31, entry_powersTable_26⟩

end Sys2Proof.Proofs

/-!
The laws of zero extension (41_crc_ops.md R167) and the split invariance of CONCAT and COMBINE (R173).
-/

namespace Sys2Proof.Proofs
open Sys2Proof.Machine Sys2Proof.Laws

/-! ## Zero extension and its inverse -/

theorem unextZ_extZ (c : Word) (n : Nat) : unextZ (extZ c n) n = c := by
  rw [unextZ_eq, extZ_eq, bitUnsteps_bitSteps]

theorem extZ_unextZ (c : Word) (n : Nat) : extZ (unextZ c n) n = c := by
  rw [extZ_eq, unextZ_eq, bitSteps_bitUnsteps]

/-- Settles O46: `extZ` and `unextZ` as powers of the bit step and of its inverse. -/
theorem zeroExtensionLaws : Obligations.ZeroExtensionLaws := fun c d m n =>
  ⟨unextZ_extZ c n, extZ_unextZ c n, extZ_extZ c m n, extZ_xor c d n, (ext_replicate_eq_extZ c n).symm⟩

/-! ## Recombination of the parts of a message -/

/-- An extension from `e` becomes the one from `v` when their difference, moved past the message, is added: the step
of CONCAT with the EMPTY baseline for `e`, of COMBINE with 0 (41_crc_ops.md R171, R172). -/
theorem extZ_xor_ext (v e : Word) (b : List Byte) : extZ (v ^^^ e) b.length ^^^ ext e b = ext v b := by
  rw [BitVec.xor_comm, ← ext_xor_eq_extZ, BitVec.xor_comm v, ← BitVec.xor_assoc, BitVec.xor_self, BitVec.zero_xor]

/-- CONCAT under every backend (41_crc_ops.md R171). -/
theorem exec_concat (s : State) (h : s.tables = builtTables s.params.multistream) :
    exec .concat s = .next (finishWord (extZ (s.ctx.crcA ^^^ Config.emptyValue) s.ctx.len.toNat ^^^ s.ctx.crcB) s) := by
  rw [exec, execConcat, h, extZPath_eq, operandA, operandB, operandLen]

/-- COMBINE under every backend (41_crc_ops.md R172). -/
theorem exec_combine (s : State) (h : s.tables = builtTables s.params.multistream) :
    exec .combine s = .next (finishWord (extZ s.ctx.crcA s.ctx.len.toNat ^^^ s.ctx.crcB) s) := by
  rw [exec, execCombine, h, extZPath_eq, operandA, operandB, operandLen]

/-- Settles O49: either command moves CRC_A past B, from the baseline CRC_B started at, and extension composes. -/
theorem splitInvariance : Obligations.SplitInvariance := by
  intro s c a b htables hlen
  refine ⟨fun hA hB => ⟨_, exec_concat s htables, ?_, finishWord_resultHi _ _⟩,
    fun hA hB => ⟨_, exec_combine s htables, ?_, finishWord_resultHi _ _⟩⟩
  · rw [finishWord_result, hA, hB, hlen, extZ_xor_ext, ext_append]
  · rw [finishWord_result, hA, hB, hlen, ext_append_eq_extZ]

end Sys2Proof.Proofs

/-!
Command words (30_encoding.md R101-R109): the decoder and the encoder are inverse to each other, and which words and
LUTRD indexes are illegal.
-/

namespace Sys2Proof.Proofs
open Sys2Proof.Machine Sys2Proof.Laws

/-! ## Words of commands -/

theorem tselField_wordT (tsel : BitVec 4) (idx opc : BitVec 8) : tselField (wordT tsel idx opc) = tsel := by
  have := tsel.isLt
  apply BitVec.eq_of_toNat_eq
  rw [tselField_toNat, wordT_toNat]
  omega

theorem idxField_wordT (tsel : BitVec 4) (idx opc : BitVec 8) : idxField (wordT tsel idx opc) = idx := by
  have := idx.isLt
  apply BitVec.eq_of_toNat_eq
  rw [idxField_toNat, wordT_toNat]
  omega

/-- The word of a format Z command is its opcode. -/
theorem encode_commandsZ : ∀ n, n < 12 → (encode (commandsZ.getD n .nop)).toNat = n := by decide

theorem decode_encode_lutrd (tsel : BitVec 4) (idx : BitVec 8) :
    decode (encode (.lutrd tsel idx)) = .ok (.lutrd tsel idx) := by
  obtain ⟨hopc, hrsv, -⟩ := ReservedZero.lutrd tsel idx
  rw [show ReservedZero.opcode (.lutrd tsel idx) = 0x0C from rfl] at hopc
  rw [decode_eq, if_neg (by omega), if_pos hopc, if_pos (by omega), encode, tselField_wordT, idxField_wordT]

/-- Decoding the word of a command gives the command. -/
theorem decode_encode (i : Instr) : decode (encode i) = .ok i := by
  cases i with
  | lutrd tsel idx => exact decode_encode_lutrd tsel idx
  | _ => rfl

/-- A word with LUTRD's opcode and no reserved bit is the word of its fields. -/
theorem encode_lutrd_fields (w : Word) (hopc : w.toNat % 2 ^ 8 = 0x0C) (hrsv : w.toNat / 2 ^ 20 = 0) :
    encode (.lutrd (tselField w) (idxField w)) = w := by
  apply BitVec.eq_of_toNat_eq
  rw [encode, wordT_toNat, tselField_toNat, idxField_toNat, BitVec.toNat_ofNat]
  omega

/-- A word that decodes to a command is the word of that command: no bit of it is dropped. -/
theorem encode_of_decode (w : Word) (i : Instr) (h : decode w = .ok i) : encode i = w := by
  rw [decode_eq] at h
  split at h
  · cases h
  · split at h
    · split at h
      · cases h
        exact encode_lutrd_fields w ‹_› ‹_›
      · cases h
    · split at h
      · cases h
        apply BitVec.eq_of_toNat_eq
        rw [encode_commandsZ _ (by omega)]
        omega
      · cases h

/-- Settles O1: one direction command by command, the other on the fields of the word. -/
theorem decodeEncodeAgree : Obligations.DecodeEncodeAgree := ⟨decode_encode, encode_of_decode⟩

/-! ## Illegal words and indexes -/

theorem decode_illegalOpcode_iff (w : Word) : decode w = .error .illegalOpcode ↔ 0x0C < w.toNat % 2 ^ 8 := by
  rw [decode_eq]
  split_ifs <;> simp <;> omega

theorem decode_illegalField_iff (w : Word) : decode w = .error .illegalField ↔
    (w.toNat % 2 ^ 8 < 0x0C ∧ w.toNat / 2 ^ 8 ≠ 0) ∨ (w.toNat % 2 ^ 8 = 0x0C ∧ w.toNat / 2 ^ 20 ≠ 0) := by
  rw [decode_eq]
  split_ifs <;> simp <;> omega

/-- LUTRD takes its table and its index from their fields (30_encoding.md R103). -/
theorem fields_of_decode_lutrd {w : Word} {tsel : BitVec 4} {idx : BitVec 8} (h : decode w = .ok (.lutrd tsel idx)) :
    tsel.toNat = w.toNat / 2 ^ 16 % 2 ^ 4 ∧ idx.toNat = w.toNat / 2 ^ 8 % 2 ^ 8 := by
  rw [← encode_of_decode w _ h, encode, ← tselField_toNat, ← idxField_toNat, tselField_wordT, idxField_wordT]
  exact ⟨rfl, rfl⟩

/-- Settles O3: the decoder on the fields as numbers, and the index ranges table by table. -/
theorem decodeRejections : Obligations.DecodeRejections :=
  ⟨fun w => ⟨decode_illegalOpcode_iff w, decode_illegalField_iff w, fun _ _ => fields_of_decode_lutrd⟩,
    fun p tsel idx => legalIndex_iff p.multistream tsel idx⟩

/-- Settles O2, by evaluating the decoder on each word. -/
theorem decodeSpecWords : Obligations.DecodeSpecWords := by
  unfold Obligations.DecodeSpecWords
  decide

end Sys2Proof.Proofs

/-!
The invariant of the machine: the reset state meets it, and each kind of step keeps it.
-/

namespace Sys2Proof.Proofs
open Sys2Proof.Machine Sys2Proof.Laws

/-! ## Changes the invariant does not see -/

/-- The state with every field the invariant does not speak of at a fixed value. -/
def coreOf (s : State) : State :=
  { s with
    irqEn := false, crcA := 0#32, crcB := 0#32, lenLo := 0#32, lenHi := 0#32, addrLo := 0#32, addrHi := 0#32
    result := 0#32, resultHi := 0#32, readFailed := false, inputs := [], resp := .nothing, draws := 0 }

theorem accepted_coreOf_iff (s : State) : (coreOf s).Accepted ↔ s.Accepted :=
  ⟨fun h => ⟨h.command, h.backend, h.notDone, h.hidden⟩, fun h => ⟨h.command, h.backend, h.notDone, h.hidden⟩⟩

theorem inv_coreOf_iff (s : State) : (coreOf s).Inv ↔ s.Inv :=
  ⟨fun h => ⟨h.memory, h.mapped, h.pending, h.legalCtrl, h.notFatal, h.built, h.errorCode,
      fun hb => (accepted_coreOf_iff s).1 (h.running hb)⟩,
    fun h => ⟨h.memory, h.mapped, h.pending, h.legalCtrl, h.notFatal, h.built, h.errorCode,
      fun hb => (accepted_coreOf_iff s).2 (h.running hb)⟩⟩

/-- A state that differs only where the invariant does not look meets it too. -/
theorem inv_of_coreOf_eq {s t : State} (h : s.Inv) (hc : coreOf t = coreOf s) : t.Inv := by
  rw [← inv_coreOf_iff, hc, inv_coreOf_iff]
  exact h

theorem inv_dropInput {s : State} (h : s.Inv) : s.dropInput.Inv := inv_of_coreOf_eq h rfl

theorem inv_resp {s : State} (h : s.Inv) (r : Response) : ({ s with resp := r } : State).Inv := inv_of_coreOf_eq h rfl

theorem inv_readFailed {s : State} (h : s.Inv) (f : Bool) : ({ s with readFailed := f } : State).Inv :=
  inv_of_coreOf_eq h rfl

/-! ## Errors, completion, acceptance -/

theorem inv_recordError {s : State} (h : s.Inv) {code : ErrorCode} (hc : code ≠ .none) : (recordError code s).Inv where
  memory := h.memory
  mapped := h.mapped
  pending := h.pending
  legalCtrl := h.legalCtrl
  notFatal := h.notFatal
  built := h.built
  errorCode := by simp [hc]
  running hb :=
    have a := h.running hb
    ⟨a.command, a.backend, a.notDone, a.hidden⟩

/-- A completed command leaves IDLE, and an error with its code or none. -/
theorem inv_of_ends {s t : State} (h : s.Inv) (hs : s.seq = .busy) (he : Ends s t) : t.Inv := by
  have hbuilt : s.tables = builtTables s.params.multistream := h.built (by simp [State.readyBit, hs])
  obtain ⟨hparams, -, hsel, -, -, -, -, -, -, -, -, -, htables, hmem, hunseen, -, -, hseq⟩ := he.frame
  refine ⟨hmem ▸ h.memory, hmem ▸ hparams ▸ h.mapped, hunseen ▸ hparams ▸ h.pending, hsel ▸ hparams ▸ h.legalCtrl, ?_,
    fun _ => ?_, ?_, fun hb => ?_⟩
  · simp [hseq]
  · rw [htables, hparams, hbuilt]
  · obtain ⟨-, herr, hcode⟩ | ⟨-, herr, hcode, -⟩ := he.flags
    · rw [herr, hcode]; exact h.errorCode
    · simp [herr, hcode]
  · rw [hseq] at hb; cases hb

/-- An accepted command is one the checks let through, and every pending store to its range is marked. -/
theorem inv_latch {s : State} (h : s.Inv) {w : Word} {i : Instr} (hc : checkCommand w s = .ok i) : (latch w s).Inv := by
  obtain ⟨hs, hd, hw, hr⟩ := (checkCommand_ok w s i).1 hc
  refine ⟨h.memory, h.mapped, h.pending, h.legalCtrl, by simp, fun _ => h.built (by simp [State.readyBit, hs]),
    h.errorCode, fun _ => ⟨⟨i, hd, hw, hr⟩, h.legalCtrl, rfl, fun x hx hcov => ?_⟩⟩
  exact List.any_eq_true.2 ⟨x, hx, hcov⟩

/-! ## Register writes -/

theorem inv_writeStatus {s : State} (h : s.Inv) (w : Word) : (writeStatus w s).Inv where
  memory := h.memory
  mapped := h.mapped
  pending := h.pending
  legalCtrl := h.legalCtrl
  notFatal := h.notFatal
  built := h.built
  errorCode := by
    have := h.errorCode
    rw [writeStatus, clearErr_err, clearErr_ecode, clearDone_err, clearDone_ecode]
    cases w.getLsbD 3 <;> simp [this]
  running hb :=
    have a := h.running hb
    ⟨a.command, a.backend, by simp [writeStatus, clearErr, clearDone, a.notDone], a.hidden⟩

theorem inv_writeCtrl {s : State} (h : s.Inv) (w : Word) : (writeCtrl w s).Inv where
  memory := h.memory
  mapped := h.mapped
  pending := h.pending
  legalCtrl := writeCtrl_legal w s h.legalCtrl
  notFatal := h.notFatal
  built := h.built
  errorCode := h.errorCode
  running hb :=
    have a := h.running hb
    ⟨a.command, a.backend, a.notDone, a.hidden⟩

theorem inv_writeCmd {s : State} (h : s.Inv) (w : Word) : (writeCmd w s).Inv := by
  obtain ⟨i, hc, hw⟩ | ⟨code, -, hw, hcode⟩ := writeCmd_cases w s
  · rw [hw]; exact inv_latch h hc
  · rw [hw]; exact inv_recordError h hcode

theorem inv_writeReg {s : State} (h : s.Inv) (r : Reg) (w : Word) : (writeReg r w s).Inv := by
  obtain ⟨-, hw⟩ | ⟨-, hw⟩ | ⟨-, hw⟩ | ⟨_, _, _, _, _, _, hw⟩ := writeReg_cases r w s
  · rw [hw]; exact inv_writeStatus h w
  · rw [hw]; exact inv_writeCtrl h w
  · rw [hw]; exact inv_writeCmd h w
  · rw [hw]; exact inv_of_coreOf_eq h rfl

/-! ## BUILD, reset, and the rest of the platform -/

/-- BUILD ends with the tables built and no command running. -/
theorem inv_built {s : State} (h : s.Inv) :
    ({ s with tables := builtTables s.params.multistream, seq := .idle } : State).Inv :=
  ⟨h.memory, h.mapped, h.pending, h.legalCtrl, by simp, fun _ => rfl, h.errorCode, nofun⟩

/-- Reset keeps data memory and the pending stores, and nothing is READY after it. -/
theorem inv_resetBlock {s : State} (h : s.Inv) : (resetBlock s).Inv :=
  ⟨h.memory, h.mapped, h.pending, dispatchDefault_legal s.params, by simp [State.initial], nofun,
    by simp [State.initial], nofun⟩

/-- A mark on the buffer only adds to what is marked. -/
theorem accepted_touch {s : State} (h : s.Accepted) (a : Nat) : (touch a s).Accepted :=
  ⟨h.command, h.backend, h.notDone, fun x hx hcov => by rw [touch_bufferTouched, h.hidden x hx hcov, Bool.true_or]⟩

/-- While a command runs, `touch` marks an address of its range. -/
theorem touch_marks {s : State} (hs : s.seq = .busy) {a : Nat} (ha : s.ctx.covers a = true) :
    (touch a s).bufferTouched = true := by
  simp [touch, hs, ha]

theorem inv_stored {s : State} (h : s.Inv) {a : Nat} (b : Byte) (ha : a < s.params.dataBytes) :
    ({ touch a s with unseen := s.unseen ++ [(a, b)] } : State).Inv := by
  refine ⟨h.memory, h.mapped, fun x hx => ?_, h.legalCtrl, h.notFatal, h.built, h.errorCode, fun hb => ?_⟩
  · obtain hx | rfl := List.mem_append.1 hx |>.imp_right List.mem_singleton.1
    · exact h.pending x hx
    · exact ha
  · have acc := accepted_touch (h.running hb) a
    refine ⟨acc.command, acc.backend, acc.notDone, fun x hx hcov => ?_⟩
    obtain hx | rfl := List.mem_append.1 hx |>.imp_right List.mem_singleton.1
    · exact acc.hidden x hx hcov
    · exact touch_marks (s := s) hb hcov

theorem inv_published {s : State} (h : s.Inv) {n a : Nat} {b : Byte} (hn : s.unseen[n]? = some (a, b)) :
    ({ touch a s with mem := Memory.write s.mem a b, unseen := s.unseen.eraseIdx n } : State).Inv := by
  refine ⟨write_wf _ _ _ h.memory, fun x hx => ?_, fun x hx => h.pending x (List.mem_of_mem_eraseIdx hx), h.legalCtrl,
    h.notFatal, h.built, h.errorCode, fun hb => ?_⟩
  · obtain hxa | hx := mem_write hx
    · rw [hxa]; exact h.pending (a, b) (List.mem_of_getElem? hn)
    · exact h.mapped x hx
  · have acc := accepted_touch (h.running hb) a
    exact ⟨acc.command, acc.backend, acc.notDone, fun x hx => acc.hidden x (List.mem_of_mem_eraseIdx hx)⟩

/-- Settles O51: case by case of what a step did, each on the state without the consumed input. -/
theorem stepKeepsInv : Obligations.StepKeepsInv := by
  intro s t hinv hstep
  have h := inv_dropInput hinv
  cases step_next hstep with
  | built => exact inv_built h
  | rested => exact h
  | completed _ _ hs _ he => exact inv_of_ends h hs he
  | answered _ r => exact inv_resp h r
  | wrote _ r w => exact inv_resp (inv_writeReg h r w) .written
  | reset => exact inv_resetBlock h
  | stored _ b _ ha => exact inv_stored h b ha
  | published _ _ _ _ hn => exact inv_published h hn
  | nothing => exact h
  | readError => exact inv_readFailed h _

/-! ## Reset and running commands -/

theorem inv_initial (p : Params) : (State.initial p).Inv :=
  ⟨rfl, fun _ hx => absurd hx List.not_mem_nil, fun _ hx => absurd hx List.not_mem_nil, dispatchDefault_legal p,
    by simp [State.initial], nofun, by simp [State.initial], nofun⟩

/-- Settles O52: no memory, no command, and a default backend that is legal. -/
theorem resetMeetsInv : Obligations.ResetMeetsInv := ⟨inv_initial, inv_initial Config.device⟩

theorem equipped_of_inv {s : State} (h : s.Inv) (hs : s.seq = .busy) : s.Equipped :=
  ⟨h.built (by simp [State.readyBit, hs]), (h.running hs).backend⟩

/-- Settles O53: BUSY is READY, and acceptance checked the backend. -/
theorem runningIsEquipped : Obligations.RunningIsEquipped := fun _ h hs =>
  ⟨equipped_of_inv h hs, equipped_of_inv (inv_dropInput h) hs⟩

end Sys2Proof.Proofs

/-!
Steps of the machine: when a step stops, the transitions of SEQ (10_state.md R32), what clears DONE and ERR (R35), the
frame of a command and of the engine's turn (R39, 20_memory.md R77), and the inputs of the platform (R79, R83).
-/

namespace Sys2Proof.Proofs
open Sys2Proof.Machine Sys2Proof.Laws

/-! ## One step by its input -/

/-- A step takes the first input. -/
theorem step_of_head {s : State} {i : Input} (h : s.inputs.head? = some i) : step s = takeInput i s.dropInput := by
  obtain ⟨rest, hi⟩ := List.head?_eq_some_iff.1 h
  rw [step_of_input s i rest hi, State.dropInput, hi, List.tail_cons]

theorem offset_of_status {off : Nat} (h : regAt off = some .status) : off = 0x04 := by
  unfold regAt at h
  split at h <;> cases h
  rfl

theorem offset_of_cmd {off : Nat} (h : regAt off = some .cmd) : off = 0x0C := by
  unfold regAt at h
  split at h <;> cases h
  rfl

/-- Settles O56: every input is answered, but for a store outside the data space. -/
theorem stepOutcomes : Obligations.StepOutcomes := fun s =>
  (step_cases s).imp_left fun ⟨t, ht, _⟩ => ⟨t, ht⟩

/-! ## The engine's turn -/

theorem ends_seq {s t : State} (h : Ends s t) : t.seq = .idle := by
  cases h <;> rfl

/-- BUILD and BUSY end in IDLE. -/
theorem engineTurn_seq {s t : State} (h : engineTurn s = .next t) (hs : s.seq = .build ∨ s.seq = .busy) :
    t.seq = .idle := by
  obtain ⟨-, he⟩ | ⟨hseq, -⟩ | ⟨-, u, he, -, hends⟩ := engineTurn_cases s
  · rw [he] at h; cases h; rfl
  · obtain hs | hs := hs <;> rw [hs] at hseq <;> cases hseq <;> contradiction
  · rw [he] at h; cases h
    exact ends_seq hends

/-- A command that completes changes only these fields. -/
theorem ends_frame {s t : State} (h : Ends s t) :
    t = { s with
      seq := t.seq, done := t.done, err := t.err, ecode := t.ecode, result := t.result, resultHi := t.resultHi
      draws := t.draws } := by
  cases h <;> rfl

/-- Settles O40: BUILD, a rest in IDLE or FATAL, or the completion of a command. -/
theorem engineWritesNoMemory : Obligations.EngineWritesNoMemory := by
  intro s t he h
  rw [step_of_engineNext s he] at h
  obtain ⟨hs, hb⟩ | ⟨-, hr⟩ | ⟨hs, u, hc, -, hends⟩ := engineTurn_cases s.dropInput
  · rw [hb] at h; cases h
    rw [dropInput_seq] at hs
    exact ⟨fun _ => rfl, rfl, fun hne => absurd hs hne, fun hne => by rw [hs] at hne; cases hne <;> contradiction⟩
  · rw [hr] at h; cases h
    exact ⟨fun _ => rfl, rfl, fun _ => rfl, fun _ => rfl⟩
  · rw [hc] at h; cases h
    rw [dropInput_seq] at hs
    have hf := ends_frame hends
    refine ⟨fun a => ?_, ?_, fun _ => ?_, fun hne => by rw [hs] at hne; cases hne <;> contradiction⟩
    all_goals rw [hf]; rfl

/-- Settles O54: the engine's turn in BUSY completes the latched command. -/
theorem stepRunsDecodedCommand : Obligations.StepRunsDecodedCommand := by
  intro s i hs he hd
  rw [step_of_engineNext s he, engineTurn, dropInput_seq, hs]
  show completeCommand s.dropInput = _
  rw [completeCommand, dropInput_ctx, hd]

theorem decode_of_decodeTableWord {nbits w : Nat} {i : Instr} (h : decodeTableWord nbits w = some i) :
    decode (tableWord nbits w) = .ok i := by
  unfold decodeTableWord at h
  split at h
  · cases h; assumption
  · cases h

/-- Settles O55: the placed word is latched on the operand registers, and the engine's turn comes first. -/
theorem fetchWordRuns : Obligations.FetchWordRuns := fun s nbits w i h =>
  ⟨stepRunsDecodedCommand (s.withFetchWord nbits w) i rfl (.inr rfl) (decode_of_decodeTableWord h), rfl, rfl, rfl, rfl,
    rfl⟩

/-! ## The frame of a command -/

theorem ends_draws_le {s t : State} (h : Ends s t) : s.draws ≤ t.draws := by
  cases h <;> simp

/-- EXTEND alone draws a free value. -/
theorem exec_draws {i : Instr} {s t : State} (h : exec i s = .next t) (hi : i ≠ .extend) : t.draws = s.draws := by
  cases i with
  | extend => exact absurd rfl hi
  | lutrd tsel idx =>
    rw [exec, execLutrd] at h
    split at h <;> cases h <;> rfl
  | _ => cases h; rfl

/-- Settles O39: the frame and the flags of every end, and the counts of the commands. -/
theorem commandFrame : Obligations.CommandFrame := by
  intro i s t h
  have he := exec_next h
  obtain ⟨hparams, hirq, hsel, hA, hB, hll, hlh, hal, hah, hctx, htouched, hfailed, htables, hmem, hunseen, hinputs,
    hresp, hseq⟩ := he.frame
  refine ⟨hparams, hirq, hsel, hA, hB, hll, hlh, hal, hah, hctx, htables, htouched, hfailed, hunseen, hinputs, hresp,
    fun a => by rw [hmem], hseq, he.flags, ?_, exec_draws h, ends_draws_le he⟩
  rintro rfl
  cases h
  exact ⟨rfl, rfl⟩

/-! ## What a register write does to SEQ and the flags -/

/-- A write changes SEQ only where CMD accepts a command. -/
theorem writeReg_seq (r : Reg) (w : Word) (s : State) : (writeReg r w s).seq = s.seq ∨
    (r = .cmd ∧ s.seq = .idle ∧ (writeReg r w s).seq = .busy ∧ ∃ i, checkCommand w s = .ok i) := by
  obtain ⟨-, h⟩ | ⟨-, h⟩ | ⟨hr, h⟩ | ⟨_, _, _, _, _, _, h⟩ := writeReg_cases r w s
  · left; rw [h, writeStatus, clearErr_seq, clearDone_seq]
  · left; rw [h, writeCtrl_seq]
  · rw [h]
    obtain ⟨i, hc, hw⟩ | ⟨_, -, hw, -⟩ := writeCmd_cases w s
    · exact .inr ⟨hr, ((checkCommand_ok w s i).1 hc).1, by rw [hw, latch_seq], i, hc⟩
    · left; rw [hw, recordError_seq]
  · left; rw [h]

/-- A write clears ERR only as bit 3 of STATUS, and ECODE with it. -/
theorem writeReg_clears_err {r : Reg} {w : Word} {s : State} (hs : s.err = true) (ht : (writeReg r w s).err = false) :
    r = .status ∧ w.getLsbD 3 = true ∧ (writeReg r w s).ecode = .none := by
  obtain ⟨hr, h⟩ | ⟨-, h⟩ | ⟨-, h⟩ | ⟨_, _, _, _, _, _, h⟩ := writeReg_cases r w s
  · rw [h, writeStatus, clearErr_err, clearDone_err, hs, Bool.true_and, Bool.not_eq_false'] at ht
    exact ⟨hr, ht, by rw [h, writeStatus, clearErr_ecode, if_pos ht]⟩
  · rw [h, writeCtrl_err, hs] at ht; cases ht
  · obtain ⟨_, -, hw⟩ | ⟨_, -, hw, -⟩ := writeCmd_cases w s
    · rw [h, hw, latch_err, hs] at ht; cases ht
    · rw [h, hw, recordError_err] at ht; cases ht
  · rw [h, hs] at ht; cases ht

/-- A write clears DONE only as bit 2 of STATUS, or where CMD accepts a command. -/
theorem writeReg_clears_done {r : Reg} {w : Word} {s : State} (hs : s.done = true) (ht : (writeReg r w s).done = false) :
    (r = .status ∧ w.getLsbD 2 = true) ∨ (r = .cmd ∧ s.seq = .idle ∧ (writeReg r w s).seq = .busy) := by
  obtain ⟨hr, h⟩ | ⟨-, h⟩ | ⟨hr, h⟩ | ⟨_, _, _, _, _, _, h⟩ := writeReg_cases r w s
  · rw [h, writeStatus, clearErr_done, clearDone_done, hs, Bool.true_and, Bool.not_eq_false'] at ht
    exact .inl ⟨hr, ht⟩
  · rw [h, writeCtrl_done, hs] at ht; cases ht
  · obtain ⟨i, hc, hw⟩ | ⟨_, -, hw, -⟩ := writeCmd_cases w s
    · exact .inr ⟨hr, ((checkCommand_ok w s i).1 hc).1, by rw [h, hw, latch_seq]⟩
    · rw [h, hw, recordError_done, hs] at ht; cases ht
  · rw [h, hs] at ht; cases ht

/-! ## The transitions of SEQ -/

theorem seq_of_stepDid {s t : State} (h : StepDid s t) : t.seq = s.seq ∨
    (s.inputs.head? = some .reset ∧ t.seq = .build) ∨
    (s.engineNext ∧ s.seq = .build ∧ t.seq = .idle) ∨
    (s.seq = .idle ∧ t.seq = .busy ∧
      ∃ w i, s.inputs.head? = some (busWrite s.params 0x0C w) ∧ checkCommand w s = .ok i) ∨
    (s.engineNext ∧ s.seq = .busy ∧ t.seq = .idle) := by
  cases h with
  | built he hs => exact .inr (.inr (.inl ⟨he, hs, rfl⟩))
  | completed _ he hs _ hends =>
    exact .inr (.inr (.inr (.inr ⟨he, hs, ends_seq hends⟩)))
  | wrote off r w hr hi =>
    obtain hkept | ⟨rfl, hidle, hbusy, i, hc⟩ := writeReg_seq r w s.dropInput
    · exact .inl hkept
    · rw [offset_of_cmd hr] at hi
      exact .inr (.inr (.inr (.inl ⟨hidle, hbusy, w, i, hi, hc⟩)))
  | reset hi => exact .inr (.inl ⟨hi, rfl⟩)
  | rested | answered | stored | published | nothing | readError => exact .inl rfl

/-- Settles O6: SEQ in each kind of step; the capacity checks pass, so BUILD ends in IDLE. -/
theorem sequencerTransitions : Obligations.SequencerTransitions := by
  refine ⟨fun s t h => ?_, fun s t h hi => ?_, fun s t h he hs => ?_⟩
  · rw [capacity_passes.1, capacity_passes.2]
    exact seq_of_stepDid (step_next h)
  · rw [step_of_head hi] at h
    cases h
    rfl
  · rw [step_of_engineNext s he] at h
    rw [engineTurn_seq h hs]
    obtain hs | hs := hs <;> rw [hs] <;> decide

/-! ## DONE and ERR -/

theorem err_cleared_of_stepDid {s t : State} (h : StepDid s t) (hs : s.err = true) (ht : t.err = false) :
    s.inputs.head? = some .reset ∨
      ∃ w, s.inputs.head? = some (busWrite s.params 0x04 w) ∧ w.getLsbD 3 = true ∧ t.ecode = .none := by
  cases h with
  | completed _ _ _ _ hends =>
    obtain ⟨-, herr, -⟩ | ⟨-, herr, -⟩ := hends.flags
    · rw [herr, dropInput_err, hs] at ht; cases ht
    · rw [herr] at ht; cases ht
  | wrote off r w hr hi =>
    obtain ⟨rfl, hbit, hcode⟩ := writeReg_clears_err (s := s.dropInput) hs ht
    rw [offset_of_status hr] at hi
    exact .inr ⟨w, hi, hbit, hcode⟩
  | reset hi => exact .inl hi
  | built | rested | answered | stored | published | nothing | readError => exact absurd (hs.symm.trans ht) nofun

theorem done_cleared_of_stepDid {s t : State} (h : StepDid s t) (hs : s.done = true) (ht : t.done = false) :
    s.inputs.head? = some .reset ∨
      (∃ w, s.inputs.head? = some (busWrite s.params 0x04 w) ∧ w.getLsbD 2 = true) ∨
      (∃ w, s.inputs.head? = some (busWrite s.params 0x0C w) ∧ s.seq = .idle ∧ t.seq = .busy) := by
  cases h with
  | completed _ _ _ _ hends =>
    obtain ⟨hdone, -⟩ | ⟨hdone, -⟩ := hends.flags
    · rw [hdone] at ht; cases ht
    · rw [hdone, dropInput_done, hs] at ht; cases ht
  | wrote off r w hr hi =>
    obtain ⟨rfl, hbit⟩ | ⟨rfl, hidle, hbusy⟩ := writeReg_clears_done (s := s.dropInput) hs ht
    · rw [offset_of_status hr] at hi
      exact .inr (.inl ⟨w, hi, hbit⟩)
    · rw [offset_of_cmd hr] at hi
      exact .inr (.inr ⟨w, hi, hidle, hbusy⟩)
  | reset hi => exact .inl hi
  | built | rested | answered | stored | published | nothing | readError => exact absurd (hs.symm.trans ht) nofun

/-- Settles O18: the two bits in each kind of step. -/
theorem stickyStatusBits : Obligations.StickyStatusBits := fun _ _ h =>
  ⟨err_cleared_of_stepDid (step_next h), done_cleared_of_stepDid (step_next h)⟩

/-- Settles O5: the reset input is the reset of the block. -/
theorem resetInput : Obligations.ResetInput := fun s rest h => step_of_input s .reset rest h

/-! ## Data memory -/

theorem step_of_store {s : State} {a : Nat} {b : Byte} (hi : s.inputs.head? = some (.store a b))
    (ha : a < s.params.dataBytes) : step s = .next { touch a s.dropInput with unseen := s.unseen ++ [(a, b)] } :=
  (step_of_head hi).trans (if_pos ha)

theorem step_of_publish {s : State} {n a : Nat} {b : Byte} (hi : s.inputs.head? = some (.publish n))
    (hn : s.unseen[n]? = some (a, b)) : step s =
      .next { touch a s.dropInput with mem := Memory.write s.mem a b, unseen := s.unseen.eraseIdx n } := by
  rw [step_of_head hi, takeInput, publishStore, dropInput_unseen, hn]
  rfl

/-- Settles O59: a store waits among the pending ones; a publication is a write of memory. -/
theorem dataMemoryInputs : Obligations.DataMemoryInputs := by
  intro s a b rest hwf
  refine ⟨fun hi ha => ⟨_, step_of_store (by rw [hi]; rfl) ha, ?_⟩, fun n hi hn =>
    ⟨_, step_of_publish (by rw [hi]; rfl) hn, read_write_same _ _ _ hwf, fun c hc => read_write_other _ _ _ _ hc, ?_⟩⟩
  all_goals
    rw [State.dropInput, hi]
    rfl

end Sys2Proof.Proofs

/-!
A running command: what can happen before it completes (20_memory.md R79, R80, 30_encoding.md R108), how EXTEND ends
(41_crc_ops.md R163), and that every command ends (60_exceptions.md R284, R285).
-/

namespace Sys2Proof.Proofs
open Sys2Proof.Machine Sys2Proof.Laws

/-! ## What a running command depends on -/

/-- The state with every field a running command does not read at a fixed value. -/
def runOf (s : State) : State :=
  { s with
    done := false, err := false, ecode := .none, irqEn := false, sel := resetContext.sel, crcA := 0#32, crcB := 0#32
    lenLo := 0#32, lenHi := 0#32, addrLo := 0#32, addrHi := 0#32, inputs := [], resp := .nothing }

theorem execExtend_runOf (s : State) : ∃ s' t', execExtend s = .next s' ∧ execExtend (runOf s) = .next t' ∧
    t'.result = s'.result ∧ t'.resultHi = s'.resultHi := by
  unfold execExtend
  rw [show emptyMessage (runOf s) = emptyMessage s from rfl,
    show rangeOk (runOf s).params (operandAddr (runOf s)) (operandLen (runOf s))
      = rangeOk s.params (operandAddr s) (operandLen s) from rfl,
    show (runOf s).readFailed = s.readFailed from rfl, show (runOf s).bufferTouched = s.bufferTouched from rfl]
  split_ifs <;> exact ⟨_, _, rfl, rfl, rfl, rfl⟩

theorem execLutrd_runOf (tsel : BitVec 4) (idx : BitVec 8) (s : State) :
    ∃ s' t', execLutrd tsel idx s = .next s' ∧ execLutrd tsel idx (runOf s) = .next t' ∧
      t'.result = s'.result ∧ t'.resultHi = s'.resultHi := by
  unfold execLutrd
  rw [show (runOf s).params = s.params from rfl]
  split_ifs <;> exact ⟨_, _, rfl, rfl, rfl, rfl⟩

/-- A command's result is a function of `runOf`. -/
theorem exec_runOf (i : Instr) (s : State) : ∃ s' t', exec i s = .next s' ∧ exec i (runOf s) = .next t' ∧
    t'.result = s'.result ∧ t'.resultHi = s'.resultHi := by
  cases i with
  | extend => exact execExtend_runOf s
  | lutrd tsel idx => exact execLutrd_runOf tsel idx s
  | _ => exact ⟨_, _, rfl, rfl, rfl, rfl⟩

theorem exec_of_runOf_eq (i : Instr) {s t : State} (h : runOf t = runOf s) :
    ∃ s' t', exec i s = .next s' ∧ exec i t = .next t' ∧ t'.result = s'.result ∧ t'.resultHi = s'.resultHi := by
  obtain ⟨s', u, hs, hu, hlo, hhi⟩ := exec_runOf i s
  obtain ⟨t', v, ht, hv, hlo', hhi'⟩ := exec_runOf i t
  rw [h, hu] at hv
  cases hv
  exact ⟨s', t', hs, ht, hlo'.symm.trans hlo, hhi'.symm.trans hhi⟩

/-- While a command runs, no CMD write is accepted. -/
theorem writeCmd_of_busy (w : Word) {s : State} (hs : s.seq = .busy) : writeCmd w s = recordError .busy s := by
  unfold writeCmd checkCommand
  rw [hs]
  rfl

theorem runOf_writeReg (r : Reg) (w : Word) {s : State} (hs : s.seq = .busy) : runOf (writeReg r w s) = runOf s := by
  obtain ⟨-, h⟩ | ⟨-, h⟩ | ⟨-, h⟩ | ⟨_, _, _, _, _, _, h⟩ := writeReg_cases r w s
  · rw [h]; rfl
  · rw [h]; rfl
  · rw [h, writeCmd_of_busy w hs]; rfl
  · rw [h]; rfl

/-- While a command runs, a host access changes nothing the command depends on (70_reset_and_hazards.md R325). -/
theorem runOf_hostAccess (a : HostAccess) {s : State} (hs : s.seq = .busy) : runOf (hostAccess a s) = runOf s := by
  obtain ⟨r, h⟩ | ⟨_, r, w, -, -, h⟩ := hostAccess_cases a s
  · rw [h]; rfl
  · rw [h]; exact runOf_writeReg r w hs

/-! ## What stays while a command runs -/

/-- What a step that leaves a command running keeps: the command, its results, its marks, and the bytes of an unmarked
buffer. -/
structure KeepsRun (s t : State) : Prop where
  ctx : t.ctx = s.ctx
  params : t.params = s.params
  result : t.result = s.result
  resultHi : t.resultHi = s.resultHi
  readFailed : s.readFailed = true → t.readFailed = true
  touched : s.bufferTouched = true → t.bufferTouched = true
  buffer : t.bufferTouched = false → ∀ a, s.ctx.covers a = true → Memory.read t.mem a = Memory.read s.mem a

theorem keepsRun_of_runOf_eq {s t : State} (h : runOf t = runOf s) : KeepsRun s t where
  ctx := (congrArg State.ctx h :)
  params := (congrArg State.params h :)
  result := (congrArg State.result h :)
  resultHi := (congrArg State.resultHi h :)
  readFailed := (congrArg State.readFailed h).trans
  touched := (congrArg State.bufferTouched h).trans
  buffer _ a _ := congrArg (Memory.read · a) (congrArg State.mem h :)

/-- Settles O15: by what the access leaves of the state and what a command's result depends on. -/
theorem hostAccessKeepsRunningCommand : Obligations.HostAccessKeepsRunningCommand := by
  intro s a rest hs hi
  have hstep : step s = .next (hostAccess a s.dropInput) := step_of_head (by rw [hi]; rfl)
  have h : runOf (hostAccess a s.dropInput) = runOf s := runOf_hostAccess a (s := s.dropInput) hs
  have hk := keepsRun_of_runOf_eq h
  exact ⟨_, hstep, (congrArg State.seq h :).trans hs, hk.ctx, hk.result, hk.resultHi, (congrArg State.tables h :),
    (congrArg State.mem h :), fun i => exec_of_runOf_eq i h⟩

theorem bufferTouched_touch {s : State} (a : Nat) (h : s.bufferTouched = true) : (touch a s).bufferTouched = true := by
  rw [touch_bufferTouched, h, Bool.true_or]

theorem keepsRun_of_stepDid {s t : State} (hs : s.seq = .busy) (h : StepDid s t) (ht : t.seq = .busy) :
    KeepsRun s t := by
  cases h with
  | built => cases ht
  | completed _ _ _ _ he => rw [ends_seq he] at ht; cases ht
  | reset => cases ht
  | rested | answered | nothing => exact keepsRun_of_runOf_eq rfl
  | wrote _ r w => exact keepsRun_of_runOf_eq (runOf_writeReg r w (s := s.dropInput) hs)
  | stored a => exact ⟨rfl, rfl, rfl, rfl, id, bufferTouched_touch (s := s.dropInput) a, fun _ _ _ => rfl⟩
  | published n a b =>
    refine ⟨rfl, rfl, rfl, rfl, id, bufferTouched_touch (s := s.dropInput) a, fun hu c hc => ?_⟩
    refine read_write_other _ _ _ _ ?_
    rintro rfl
    exact absurd (touch_marks (s := s.dropInput) hs hc) (by rw [show _ = false from hu]; decide)
  | readError => exact ⟨rfl, rfl, rfl, rfl, fun hf => by simp [hf], id, fun _ _ _ => rfl⟩

theorem covers_iff (c : Context) (a : Nat) :
    c.covers a = true ↔ c.addr.toNat ≤ a ∧ a < c.addr.toNat + c.len.toNat := decide_eq_true_iff

/-- Settles O58: a mark stays, a buffer without one keeps its bytes, and stores and publications in the range mark it. -/
theorem unmarkedBufferIsKept : Obligations.UnmarkedBufferIsKept := by
  intro s t hs h ht
  have hk := keepsRun_of_stepDid hs (step_next h) ht
  refine ⟨fun hu a hlo hhi => hk.buffer hu a ((covers_iff _ _).2 ⟨hlo, hhi⟩), fun a b hi hlo hhi => ?_,
    fun n a b hi hn hlo hhi => ?_, hk.touched⟩
  · rw [step_of_head hi, takeInput, issueStore] at h
    split at h <;> cases h
    exact touch_marks (s := s.dropInput) hs ((covers_iff _ _).2 ⟨hlo, hhi⟩)
  · rw [step_of_publish hi hn] at h
    cases h
    exact touch_marks (s := s.dropInput) hs ((covers_iff _ _).2 ⟨hlo, hhi⟩)

/-! ## How EXTEND ends -/

theorem rangeOk_iff (p : Params) (addr len : DWord) :
    rangeOk p addr len = true ↔ len = 0#64 ∨ addr.toNat + len.toNat ≤ 2 ^ p.addrWidth := decide_eq_true_iff

/-- Of no byte, EXTEND looks at no mark (20_memory.md R73). -/
theorem execExtend_of_empty {s : State} (h : s.ctx.len = 0#64) : execExtend s = .next (finishWord (extendValue s) s) := by
  rw [execExtend, if_pos ((emptyMessage_iff s).2 h)]

/-- Of a range inside the data space, EXTEND looks at its marks: the failed read first, then the touched buffer. -/
theorem execExtend_of_range {s : State} (hne : s.ctx.len ≠ 0#64)
    (hr : s.ctx.addr.toNat + s.ctx.len.toNat ≤ 2 ^ s.params.addrWidth) :
    execExtend s = if s.readFailed then .next (failCommand .busError s)
      else if s.bufferTouched then .next (finishFree s) else .next (finishWord (extendValue s) s) := by
  rw [execExtend, if_neg (mt (emptyMessage_iff s).1 hne), operandAddr, operandLen, (rangeOk_iff _ _ _).2 (.inr hr)]
  rfl

/-- Settles O26: on a kept buffer every datapath computes `ext` of the message. -/
theorem extendResult : Obligations.ExtendResult := by
  intro s he hr hf ht
  have hv : execExtend s = .next (finishWord (extendValue s) s) := by
    by_cases h0 : s.ctx.len = 0#64
    · exact execExtend_of_empty h0
    · rw [execExtend_of_range h0 hr, hf, ht]; rfl
  rw [exec, hv, extendValue_eq s he, message_eq]
  rfl

/-- Settles O27: the message is empty, so `ext` leaves CRC_A. -/
theorem extendEmptyMessage : Obligations.ExtendEmptyMessage := by
  intro s he h0
  rw [exec, execExtend_of_empty h0, extendValue_eq s he, message_of_empty s h0]
  rfl

/-- Settles O28: the mark alone decides. -/
theorem extendTouchedBuffer : Obligations.ExtendTouchedBuffer := by
  intro s hne hr hf ht
  have hv : execExtend s = .next (finishFree s) := by rw [execExtend_of_range hne hr, hf, ht]; rfl
  rw [exec, hv]
  rfl

theorem tableWord_toNat (w : Word) : tableWord 32 w.toNat = w := by
  apply BitVec.eq_of_toNat_eq
  rw [tableWord, BitVec.toNat_ofNat, Nat.mod_mod, Nat.mod_eq_of_lt w.isLt]

/-- A running EXTEND of at least one byte has reads outstanding. -/
theorem readsOutstanding_of_extend {s : State} (hs : s.seq = .busy) (hd : decode s.ctx.word = .ok .extend)
    (hne : s.ctx.len ≠ 0#64) : readsOutstanding s = true := by
  simp [readsOutstanding, hs, decodeTableWord, tableWord_toNat, hd, hne]

theorem step_of_readError {s : State} (hi : s.inputs.head? = some .readError) (hs : s.seq = .busy)
    (hd : decode s.ctx.word = .ok .extend) (hne : s.ctx.len ≠ 0#64) :
    step s = .next { s.dropInput with readFailed := true } := by
  rw [step_of_head hi, takeInput, signalReadError, readsOutstanding_of_extend (s := s.dropInput) hs hd hne, Bool.or_true]

theorem exec_extend_of_failed {s : State} (hne : s.ctx.len ≠ 0#64)
    (hr : s.ctx.addr.toNat + s.ctx.len.toNat ≤ 2 ^ s.params.addrWidth) (hf : s.readFailed = true) :
    exec .extend s = .next (failCommand .busError s) := by
  rw [exec, execExtend_of_range hne hr, if_pos hf]

/-- Settles O29: the mark is set, every step that leaves the command running keeps it, and EXTEND ends by it. -/
theorem extendBusError : Obligations.ExtendBusError := by
  refine ⟨fun s rest hs hd hne hi => ?_, fun s t hs h ht => ?_, fun s hne hr hf => ?_⟩
  · rw [step_of_readError (by rw [hi]; rfl) hs hd hne, State.dropInput, hi]
    rfl
  · have hk := keepsRun_of_stepDid hs (step_next h) ht
    exact ⟨hk.ctx, hk.params, hk.result, hk.resultHi, hk.readFailed⟩
  · exact ⟨exec_extend_of_failed hne hr hf, fun hs hd he =>
      (stepRunsDecodedCommand s .extend hs he hd).trans (exec_extend_of_failed (s := s.dropInput) hne hr hf)⟩

/-! ## Every accepted command ends -/

/-- LUTRD of a legal index writes both halves of the entry (40_table_builder.md R143). -/
theorem exec_lutrd {s : State} {tsel : BitVec 4} {idx : BitVec 8}
    (hw : (Instr.lutrd tsel idx).wellFormed s.params = true) :
    exec (.lutrd tsel idx) s = .next (finishWide (readEntry s.tables tsel idx) s) := if_pos hw

/-- How an accepted command ends: with DONE and no new error, or EXTEND with a bus error. -/
theorem exec_of_accepted {s : State} {i : Instr} (hw : i.wellFormed s.params = true)
    (hr : i = .extend → rangeOk s.params s.ctx.addr s.ctx.len = true) :
    ∃ t, exec i s = .next t ∧ Ends s t ∧
      ((t.done = true ∧ t.err = s.err ∧ t.ecode = s.ecode) ∨ (i = .extend ∧ t = failCommand .busError s)) := by
  obtain ⟨t, ht, he⟩ := exec_ends i s
  refine ⟨t, ht, he, ?_⟩
  cases i with
  | extend =>
    by_cases h0 : s.ctx.len = 0#64
    · rw [exec, execExtend_of_empty h0] at ht
      cases ht
      exact .inl ⟨rfl, rfl, rfl⟩
    · rw [exec, execExtend_of_range h0 (((rangeOk_iff _ _ _).1 (hr rfl)).resolve_left h0)] at ht
      split_ifs at ht <;> cases ht
      · exact .inr ⟨rfl, rfl⟩
      · exact .inl ⟨rfl, rfl, rfl⟩
      · exact .inl ⟨rfl, rfl, rfl⟩
  | lutrd tsel idx =>
    rw [exec_lutrd hw] at ht
    cases ht
    exact .inl ⟨rfl, rfl, rfl⟩
  | _ => cases ht; exact .inl ⟨rfl, rfl, rfl⟩

/-- Settles O57: the latched command was accepted, so its operands pass the checks `exec` repeats. -/
theorem runningCommandCompletes : Obligations.RunningCommandCompletes := by
  intro s hinv hs he
  obtain ⟨⟨i, hd, hw, hr⟩, -, hdone, -⟩ := hinv.running hs
  obtain ⟨t, ht, hends, hflags⟩ := exec_of_accepted (s := s.dropInput) hw hr
  refine ⟨t, (stepRunsDecodedCommand s i hs he hd).trans ht, ends_seq hends, ?_⟩
  obtain hok | ⟨rfl, rfl⟩ := hflags
  · exact .inl hok
  · exact .inr ⟨hdone, rfl, rfl, hd, rfl, rfl⟩

end Sys2Proof.Proofs

/-!
The register block: reset values (10_state.md R51), the checks of a CMD write (30_encoding.md R107), STATUS and CTRL
(10_state.md R35-R37), the operand registers (R39-R41), and what is ignored or refused (R34).
-/

namespace Sys2Proof.Proofs
open Sys2Proof.Machine Sys2Proof.Laws

/-! ## Reset -/

theorem dispatchDefault_of_choice {p : Params} {t : Selection} (h : p.dispatchChoice = some t)
    (hl : selectionLegal p.multistream t = true) : dispatchDefault p = t := by
  simp only [dispatchDefault, h, hl, ↓reduceIte]

theorem dispatchDefault_of_no_choice {p : Params}
    (h : ∀ t, p.dispatchChoice = some t → selectionLegal p.multistream t = false) :
    dispatchDefault p = unchosenDefault p.multistream := by
  unfold dispatchDefault
  split
  · next t ht => rw [h t ht]; rfl
  · rfl

theorem statusWord_initial (p : Params) : statusWord (State.initial p) = 0x00000001#32 := by
  show 0#20 ++ 0#4 ++ 0#3 ++ 0#1 ++ 0#1 ++ 0#1 ++ 0#1 ++ 1#1 = 0x00000001#32
  decide

theorem ctrlWord_unchosenDefault (m : Bool) :
    ctrlWord false (unchosenDefault m) = if m then 0x00000078#32 else 0x00000074#32 := by
  cases m <;> decide

/-- Settles O4: every register of the reset state, the default backend by the choice of the parameters. -/
theorem resetValues : Obligations.ResetValues := by
  refine ⟨rfl, fun p => ⟨rfl, statusWord_initial p, rfl, rfl, rfl, rfl, rfl, rfl, rfl, rfl, rfl, rfl,
    dispatchDefault_legal p, ?_, fun t => dispatchDefault_of_choice, fun h => ?_, fun w => rfl⟩⟩
  · exact ctrl_irqEn false _
  · show ctrlWord false (dispatchDefault p) = _
    rw [dispatchDefault_of_no_choice h, ctrlWord_unchosenDefault]

/-! ## The checks of a CMD write -/

theorem wellFormed_commandsZ (p : Params) (n : Nat) : (commandsZ.getD n .nop).wellFormed p = true := by
  cases h : commandsZ.getD n .nop with
  | lutrd tsel idx => exact absurd h (commandsZ_ne_lutrd n tsel idx)
  | _ => rfl

theorem commandsZ_eq_extend_iff : ∀ n, n < 12 → (commandsZ.getD n .nop = .extend ↔ n = 2) := by decide

/-- The range check fails for a range of at least one byte that ends beyond the data space (20_memory.md R73). -/
theorem rangeOk_eq_false_iff (p : Params) (addr len : DWord) :
    rangeOk p addr len = false ↔ len.toNat ≠ 0 ∧ 2 ^ p.addrWidth < addr.toNat + len.toNat := by
  rw [← Bool.not_eq_true, rangeOk_iff, not_or, not_le, ← BitVec.toNat_inj, BitVec.toNat_ofNat, Nat.zero_mod]

/-- The index check of LUTRD on the fields of its word. -/
theorem wellFormed_fields_iff (p : Params) (w : Word) : (Instr.lutrd (tselField w) (idxField w)).wellFormed p = true ↔
    (w.toNat / 2 ^ 16 % 2 ^ 4 ≤ 4 ∨ w.toNat / 2 ^ 16 % 2 ^ 4 = 6) ∨
    ((w.toNat / 2 ^ 16 % 2 ^ 4 = 5 ∨ w.toNat / 2 ^ 16 % 2 ^ 4 = 7) ∧ w.toNat / 2 ^ 8 % 2 ^ 8 ≤ 239) ∨
    (w.toNat / 2 ^ 16 % 2 ^ 4 = 8 ∧ w.toNat / 2 ^ 8 % 2 ^ 8 ≤ 61) ∨
    (w.toNat / 2 ^ 16 % 2 ^ 4 = 9 ∧ w.toNat / 2 ^ 8 % 2 ^ 8 ≤ 7 ∧ p.multistream = true) := by
  rw [← tselField_toNat, ← idxField_toNat]
  exact legalIndex_iff p.multistream (tselField w) (idxField w)

/-- The operand checks of a format Z command: EXTEND's range alone. -/
theorem checkOperands_commandsZ (s : State) {n : Nat} (hn : n < 12) : checkOperands (commandsZ.getD n .nop) s =
    if n = 2 ∧ s.len.toNat ≠ 0 ∧ 2 ^ s.params.addrWidth < s.addr.toNat + s.len.toNat then .error .addrRange
    else .ok (commandsZ.getD n .nop) := by
  simp only [checkOperands, wellFormed_commandsZ, commandsZ_eq_extend_iff n hn, Bool.not_eq_true', rangeOk_eq_false_iff,
    Bool.true_eq_false, if_false]

/-- The operand check of LUTRD: its index alone. -/
theorem checkOperands_lutrd (tsel : BitVec 4) (idx : BitVec 8) (s : State) : checkOperands (.lutrd tsel idx) s =
    if (Instr.lutrd tsel idx).wellFormed s.params = true then .ok (.lutrd tsel idx) else .error .indexRange := by
  unfold checkOperands
  cases (Instr.lutrd tsel idx).wellFormed s.params <;> simp

theorem writeCmd_of_decode_error {w : Word} {s : State} {e : DecodeError} (hs : s.seq = .idle)
    (h : decode w = .error e) : writeCmd w s = recordError (decodeCode e) s := by
  unfold writeCmd checkCommand
  rw [hs]
  simp only [h]
  rfl

/-- A LUTRD word is accepted when its index is legal. -/
theorem writeCmd_of_lutrd {w : Word} {s : State} (hs : s.seq = .idle) (hopc : w.toNat % 2 ^ 8 = 0x0C)
    (hrsv : w.toNat / 2 ^ 20 = 0) : writeCmd w s =
      if (Instr.lutrd (tselField w) (idxField w)).wellFormed s.params = true then latch w s
      else recordError .indexRange s := by
  have hd : decode w = .ok (.lutrd (tselField w) (idxField w)) := by
    rw [decode_eq, if_neg (by omega), if_pos hopc, if_pos hrsv]
  unfold writeCmd checkCommand
  rw [hs]
  simp only [hd, checkOperands_lutrd]
  split_ifs <;> rfl

/-- A format Z word is accepted unless it is EXTEND on a range beyond the data space. -/
theorem writeCmd_of_commandsZ {w : Word} {s : State} (hs : s.seq = .idle) (hopc : w.toNat % 2 ^ 8 < 0x0C)
    (hrsv : w.toNat / 2 ^ 8 = 0) : writeCmd w s =
      if w.toNat % 2 ^ 8 = 0x02 ∧ s.len.toNat ≠ 0 ∧ 2 ^ s.params.addrWidth < s.addr.toNat + s.len.toNat then
        recordError .addrRange s
      else latch w s := by
  have hd : decode w = .ok (commandsZ.getD (w.toNat % 2 ^ 8) .nop) := by
    rw [decode_eq, if_neg (by omega), if_neg (by omega), if_pos hrsv]
  unfold writeCmd checkCommand
  rw [hs]
  simp only [hd, checkOperands_commandsZ s hopc]
  split_ifs <;> rfl

/-- In IDLE, a CMD write check by check on the bits of the word (30_encoding.md R107). -/
theorem writeCmd_of_idle (w : Word) {s : State} (hs : s.seq = .idle) : writeCmd w s =
    if 0x0C < w.toNat % 2 ^ 8 then recordError .illegalOpcode s
    else if w.toNat % 2 ^ 8 ≠ 0x0C ∧ w.toNat / 2 ^ 8 ≠ 0 then recordError .illegalField s
    else if w.toNat % 2 ^ 8 = 0x0C ∧ w.toNat / 2 ^ 20 ≠ 0 then recordError .illegalField s
    else if w.toNat % 2 ^ 8 = 0x0C ∧ ¬ (Instr.lutrd (tselField w) (idxField w)).wellFormed s.params = true then
      recordError .indexRange s
    else if w.toNat % 2 ^ 8 = 0x02 ∧ s.len.toNat ≠ 0 ∧ 2 ^ s.params.addrWidth < s.addr.toNat + s.len.toNat then
      recordError .addrRange s
    else latch w s := by
  split_ifs with hop hZ hT hidx haddr
  · exact writeCmd_of_decode_error hs ((decode_illegalOpcode_iff w).2 hop)
  · exact writeCmd_of_decode_error hs ((decode_illegalField_iff w).2 (.inl ⟨by omega, hZ.2⟩))
  · exact writeCmd_of_decode_error hs ((decode_illegalField_iff w).2 (.inr hT))
  · rw [writeCmd_of_lutrd hs hidx.1 (by omega), if_neg hidx.2]
  · rw [writeCmd_of_commandsZ hs (by omega) (by omega), if_pos haddr]
  · by_cases hopc : w.toNat % 2 ^ 8 = 0x0C
    · rw [writeCmd_of_lutrd hs hopc (by omega), if_pos (not_not.1 fun h => hidx ⟨hopc, h⟩)]
    · rw [writeCmd_of_commandsZ hs (by omega) (by omega), if_neg haddr]

theorem writeCmd_of_not_ready (w : Word) {s : State} (hs : s.seq = .build ∨ s.seq = .fatal) :
    writeCmd w s = recordError .notReady s := by
  unfold writeCmd checkCommand
  obtain hs | hs := hs <;> rw [hs] <;> rfl

/-- A write was answered (10_state.md R34). -/
def withWritten (s : State) : State := { s with resp := .written }

/-- Settles O14: SEQ decides first, and in IDLE the checks of the word in their order. -/
theorem cmdWriteOutcome : Obligations.CmdWriteOutcome := by
  intro s w rest hi
  rw [step_of_busWrite s 0x0C w rest hi (by decide) (by decide)]
  show Host.Outcome.next (withWritten (writeCmd w { s with inputs := rest })) = _
  congr 1
  by_cases hn : s.seq = .build ∨ s.seq = .fatal
  · rw [if_pos hn, writeCmd_of_not_ready w (s := { s with inputs := rest }) hn]; rfl
  rw [if_neg hn]
  by_cases hb : s.seq = .busy
  · rw [if_pos hb, writeCmd_of_busy w (s := { s with inputs := rest }) hb]; rfl
  have hidle : s.seq = .idle := by cases hs : s.seq <;> simp_all
  rw [if_neg hb, writeCmd_of_idle w (s := { s with inputs := rest }) hidle]
  simp only [wellFormed_fields_iff, apply_ite withWritten]
  rfl

/-! ## STATUS -/

theorem busyBit_eq (s : State) : s.busyBit = decide (s.seq = .build ∨ s.seq = .busy) := by
  rw [State.busyBit]; cases s.seq <;> rfl

theorem readyBit_eq (s : State) : s.readyBit = decide (s.seq = .idle ∨ s.seq = .busy) := by
  rw [State.readyBit]; cases s.seq <;> rfl

theorem fatalBit_eq (s : State) : s.fatalBit = decide (s.seq = .fatal) := by
  rw [State.fatalBit]; cases s.seq <;> rfl

/-- Settles O16: a read of STATUS answers its word, field by field. -/
theorem statusRead : Obligations.StatusRead := by
  intro s rest hi
  refine ⟨statusWord s, step_of_busRead s 0x04 rest hi (by decide) (by decide), ?_, ?_, status_done s, status_err s, ?_,
    (status_reserved s).1, (status_reserved s).2, ?_⟩
  · rw [status_busy, busyBit_eq]
  · rw [status_ready, readyBit_eq]
  · rw [status_fatal, fatalBit_eq]
  · rw [status_ecode]; cases s.ecode <;> rfl

theorem and_not_eq_ite (b c : Bool) : (b && !c) = if c then false else b := by cases c <;> simp

/-- Settles O17: the two write-one-to-clear bits. -/
theorem statusWrite : Obligations.StatusWrite := by
  intro s w rest hi
  rw [step_of_busWrite s 0x04 w rest hi (by decide) (by decide)]
  show Host.Outcome.next { writeStatus w { s with inputs := rest } with resp := .written } = _
  simp only [writeStatus, clearErr, clearDone, and_not_eq_ite]

/-! ## CTRL -/

/-- When the backend fields of a written word are legal, on its bits (10_state.md R37). -/
def LegalFields (m : Bool) (w : Word) : Prop :=
  w.extractLsb' 2 2 ≠ 3#2 ∧ (w.extractLsb' 2 2 = 2#2 → m = true) ∧ w.extractLsb' 4 2 ≠ 0#2 ∧
    2 ≤ (w.extractLsb' 4 2).toNat + (w.extractLsb' 6 2).toNat

theorem backendOfBits_eq_none_iff (b : BitVec 2) : backendOfBits b = none ↔ b = 3#2 := by
  obtain rfl | rfl | rfl | rfl := bitVec2_cases b <;> decide

theorem backendOfBits_eq_some_iff (b : BitVec 2) (k : Backend) : backendOfBits b = some k ↔ b = backendBits k := by
  obtain rfl | rfl | rfl | rfl := bitVec2_cases b <;> cases k <;> decide

/-- The fields a word names. -/
theorem selectionOfWord_some {w : Word} {t : Selection} (h : selectionOfWord w = some t) :
    w.extractLsb' 2 2 = backendBits t.backend ∧ w.extractLsb' 4 2 = t.ncrc ∧ w.extractLsb' 6 2 = t.npclmul ∧
      w.getLsbD 8 = decide (t.strategy = .unroll64) := by
  unfold selectionOfWord at h
  split at h
  · next b hb =>
    cases h
    refine ⟨(backendOfBits_eq_some_iff _ _).1 hb, rfl, rfl, ?_⟩
    cases w.getLsbD 8 <;> rfl
  · cases h

theorem backendBits_eq_two_iff (b : Backend) : backendBits b = 2#2 ↔ b = .multi := by cases b <;> decide

theorem legalFields_iff {w : Word} {t : Selection} (h : selectionOfWord w = some t) (m : Bool) :
    LegalFields m w ↔ selectionLegal m t = true := by
  obtain ⟨hb, hn, hp, -⟩ := selectionOfWord_some h
  have h3 : backendBits t.backend ≠ 3#2 := by cases t.backend <;> decide
  simp only [LegalFields, hb, hn, hp, selectionLegal, backendBits_eq_two_iff, Bool.and_eq_true, Bool.or_eq_true,
    bne_iff_ne, decide_eq_true_eq, ne_eq, h3, not_false_eq_true, true_and, imp_iff_not_or, and_assoc]

/-- A legal word is taken whole. -/
theorem legalWrite_of_legal {m : Bool} {w : Word} (h : LegalFields m w) :
    ∃ t, selectionOfWord w = some t ∧ legalWrite m w = some t := by
  cases hw : selectionOfWord w with
  | none =>
    unfold selectionOfWord at hw
    split at hw
    · cases hw
    · next hb => exact absurd ((backendOfBits_eq_none_iff _).1 hb) h.1
  | some t =>
    have hl := (legalFields_iff hw m).1 h
    exact ⟨t, rfl, by simp only [legalWrite, hw, hl, if_true]⟩

theorem legalWrite_of_not_legal {m : Bool} {w : Word} (h : ¬ LegalFields m w) : legalWrite m w = none := by
  unfold legalWrite
  split
  · next t ht => exact if_neg (mt (legalFields_iff ht m).2 h)
  · rfl

theorem mask_irqEn (w : Word) : w &&& 1#32 = (BitVec.ofBool (w.getLsbD 0)).setWidth 32 := by
  apply BitVec.eq_of_getLsbD_eq
  intro i hi
  interval_cases i <;> simp

theorem mask_ctrl (w : Word) : w &&& 0x1FD#32 = (w &&& 0x1FC#32) ||| (w &&& 1#32) := by
  rw [← BitVec.and_or_distrib_left]
  rfl

/-- IRQ_EN lies outside the backend fields. -/
theorem ctrlWord_mask (irq : Bool) (t : Selection) : ctrlWord irq t &&& 0x1FC#32 = ctrlWord false t &&& 0x1FC#32 := by
  rw [ctrlWord_eq, BitVec.and_or_distrib_right, BitVec.and_assoc, BitVec.and_self]
  cases irq <;> simp

/-- The CTRL word after a write (10_state.md R37). -/
theorem readReg_ctrl_writeCtrl (w : Word) (s : State) : readReg .ctrl (writeCtrl w s) =
    (ctrlWord false ((legalWrite s.params.multistream w).getD s.sel) &&& 0x1FC#32) ||| (w &&& 1#32) := by
  rw [readReg_ctrl, writeCtrl_irqEn, writeCtrl_sel, ctrlWord_eq, mask_irqEn]

theorem readReg_ctrl_of_legal {w : Word} {s : State} (h : LegalFields s.params.multistream w) :
    readReg .ctrl (writeCtrl w s) = w &&& 0x1FD#32 := by
  obtain ⟨t, ht, hw⟩ := legalWrite_of_legal h
  rw [readReg_ctrl_writeCtrl, hw, Option.getD_some, ctrlWord_of_word ht, BitVec.and_assoc, BitVec.and_self, mask_ctrl]

theorem readReg_ctrl_of_not_legal {w : Word} {s : State} (h : ¬ LegalFields s.params.multistream w) :
    readReg .ctrl (writeCtrl w s) = (readReg .ctrl s &&& 0x1FC#32) ||| (w &&& 1#32) := by
  rw [readReg_ctrl_writeCtrl, legalWrite_of_not_legal h, Option.getD_none, readReg_ctrl, ctrlWord_mask s.irqEn]

theorem ctrlWord_reserved (irq : Bool) (t : Selection) :
    (ctrlWord irq t).getLsbD 1 = false ∧ (ctrlWord irq t).extractLsb' 9 23 = 0#23 := by
  rw [ctrlWord_eq]
  refine ⟨by cases irq <;> simp, ?_⟩
  apply BitVec.eq_of_getLsbD_eq
  intro i hi
  cases irq <;> interval_cases i <;> simp

/-- Settles O19: a write by the legality of its backend fields, a read by the fields of the word. -/
theorem ctrlWrite : Obligations.CtrlWrite := by
  refine ⟨fun s w rest hi => ?_, fun s rest hi => ?_⟩
  · refine ⟨_, step_of_busWrite s 0x08 w rest hi (by decide) (by decide), rfl, rfl, ?_⟩
    split
    · next h => exact readReg_ctrl_of_legal (s := { s with inputs := rest }) h
    · next h => exact readReg_ctrl_of_not_legal (s := { s with inputs := rest }) h
  · obtain ⟨hb, hn, hp, hst⟩ := selectionOfWord_some (selectionOfWord_ctrlWord s.irqEn s.sel)
    obtain ⟨hbit, hrsv⟩ := ctrlWord_reserved s.irqEn s.sel
    refine ⟨_, step_of_busRead s 0x08 rest hi (by decide) (by decide), rfl, ctrl_irqEn _ _, hbit, ?_, hn, hp, hst, hrsv⟩
    refine hb.trans ?_
    cases s.sel.backend <;> rfl

/-! ## Operand registers, reserved offsets and refused accesses -/

/-- Settles O21: a write and a read at each of the six offsets. -/
theorem operandRegisterWrites : Obligations.OperandRegisterWrites := by
  intro s w rest
  have hwrite (off : Nat) (hi : s.inputs = busWrite s.params off w :: rest) := step_of_busWrite s off w rest hi
  have hread (off : Nat) (hi : s.inputs = busRead s.params off :: rest) := step_of_busRead s off rest hi
  refine ⟨fun hi => hwrite _ hi (by decide) (by decide), fun hi => hwrite _ hi (by decide) (by decide),
    fun hi => hwrite _ hi (by decide) (by decide), fun hi => hwrite _ hi (by decide) (by decide),
    fun hi => hwrite _ hi (by decide) (by decide), fun hi => hwrite _ hi (by decide) (by decide),
    join_toNat _ _, join_toNat _ _, fun x hx hi => ?_, fun off hoff hi => ?_⟩
  · simp only [List.mem_cons, List.not_mem_nil, or_false] at hx
    obtain rfl | rfl | rfl | rfl | rfl | rfl := hx <;> exact hread _ hi (by simp) (by simp)
  · simp only [List.mem_cons, List.not_mem_nil, or_false] at hoff
    obtain rfl | rfl | rfl | rfl | rfl | rfl := hoff <;>
      exact ⟨_, _, step_of_busWrite s _ w _ hi (by decide) (by decide),
        step_of_busRead _ _ rest rfl (by decide) (by decide), rfl, rfl⟩

theorem regAt_le {off : Nat} {r : Reg} (h : regAt off = some r) : off ≤ 0x2C := by
  unfold regAt at h
  split at h <;> cases h <;> decide

/-- Beyond RESULT_HI every offset is reserved (10_state.md R33). -/
theorem regAt_reserved {off : Nat} (h : 0x30 ≤ off) : regAt off = none := by
  cases hr : regAt off with
  | none => rfl
  | some r => have := regAt_le hr; omega

theorem writeOffset_ignored {off : Nat} (h : off = 0x00 ∨ off = 0x28 ∨ off = 0x2C ∨ 0x30 ≤ off) (w : Word) (s : State) :
    writeOffset off w s = s := by
  obtain rfl | rfl | rfl | h := h
  · rfl
  · rfl
  · rfl
  · rw [writeOffset, regAt_reserved h]

theorem readOffset_zero {off : Nat} (h : off = 0x0C ∨ 0x30 ≤ off) (s : State) : readOffset off s = 0#32 := by
  obtain rfl | h := h
  · rfl
  · rw [readOffset, regAt_reserved h]

/-- Settles O22: which offsets ignore a write, which read 0, and the three read-only registers. -/
theorem readOnlyAndReserved : Obligations.ReadOnlyAndReserved := by
  intro s w off rest hoff h4
  refine ⟨fun hi h => ?_, fun hi h => ?_, fun hi => step_of_busRead s _ rest hi (by decide) (by decide),
    fun hi => step_of_busRead s _ rest hi (by decide) (by decide),
    fun hi => step_of_busRead s _ rest hi (by decide) (by decide)⟩
  · rw [step_of_busWrite s off w rest hi hoff h4, writeOffset_ignored h]
  · rw [step_of_busRead s off rest hi hoff h4, readOffset_zero h]

theorem selects_iff (p : Params) (a : HostAccess) :
    selects p a = true ↔ p.engineBase ≤ a.addr ∧ a.addr < p.engineBase + 256 := decide_eq_true_iff

theorem hostAccess_refused {a : HostAccess} {s : State} (hsel : selects s.params a = true)
    (h : a.bytes ≠ 4 ∨ a.addr % 4 ≠ 0) : hostAccess a s = { s with resp := .busError } := by
  have hbase : s.params.engineBase = 256 * s.params.enginePage := rfl
  have hle := ((selects_iff _ _).1 hsel).1
  rw [hostAccess, hsel, Bool.not_true, if_neg Bool.false_ne_true, if_pos (h.imp_right fun h => by omega)]

theorem hostAccess_not_selected {a : HostAccess} {s : State} (hsel : selects s.params a = false) :
    hostAccess a s = { s with resp := .notSelected } := by
  rw [hostAccess, hsel, Bool.not_false, if_pos rfl]

/-- Settles O23: ENGINE_BASE is aligned, so the alignment of the offset is that of the address. -/
theorem refusedAccess : Obligations.RefusedAccess := by
  intro s a rest hi
  have hstep := step_of_input s (.host a) rest hi
  refine ⟨fun hlo hhi h => ?_, fun h => ?_⟩
  · have hsel : selects s.params a = true := (selects_iff _ _).2 ⟨hlo, hhi⟩
    exact hstep.trans (congrArg Host.Outcome.next (hostAccess_refused (s := { s with inputs := rest }) hsel h))
  · have hsel : selects s.params a = false := by
      rw [← Bool.not_eq_true, selects_iff]
      omega
    exact hstep.trans (congrArg Host.Outcome.next (hostAccess_not_selected (s := { s with inputs := rest }) hsel))

end Sys2Proof.Proofs

/-!
Powers of x and the polynomials they stand for (00_scope.md R9-R11, 43_gf2_multiply.md R210, R214), the scrambling of
42_scramble.md, and the tables whose contents they name (40_table_builder.md R137, R138, 44_multistream.md R252).
-/

namespace Sys2Proof.Proofs
open Sys2Proof.Machine Sys2Proof.Laws Polynomial

/-! ## The laws of MulMod (43_gf2_multiply.md R214) -/

theorem mulMod_comm (a b : Word) : mulMod a b = mulMod b a := by
  simp only [mulMod_eq_polyMultiply, polyMultiply_comm]

theorem mulMod_assoc (a b c : Word) : mulMod (mulMod a b) c = mulMod a (mulMod b c) := by
  simp only [mulMod_eq_polyMultiply, polyMultiply_assoc]

theorem mulMod_one (a : Word) : mulMod a one = a := mulMod_xPow a 0

theorem bitSteps_xPowInv (k : Nat) : bitSteps k (xPowInv k) = one := bitSteps_bitUnsteps k one

/-- Settles O47: MulMod is the builders' multiply, and multiplies by a power of x with bit steps. -/
theorem mulModLaws : Obligations.MulModLaws := by
  refine ⟨mulMod_comm, mulMod_assoc, xorLinear_mulMod_right, mulMod_one, fun i j => ?_, fun k => ?_⟩
  · rw [mulMod_xPow, ← xPow_add, Nat.add_comm]
  · rw [mulMod_comm, mulMod_xPow, bitSteps_xPowInv, one]

/-! ## The order of x (43_gf2_multiply.md R214) -/

theorem bitSteps_eq_iterate (n : Nat) (c : Word) : bitSteps n c = bitStep^[n] c := by
  induction n with
  | zero => rfl
  | succ n ih => rw [bitSteps, ih, Function.iterate_succ_apply']

theorem xPow_eq_one_iff_isPeriodicPt (k : Nat) : xPow k = one ↔ Function.IsPeriodicPt bitStep k one := by
  rw [xPow, bitSteps_eq_iterate, Function.IsPeriodicPt, Function.IsFixedPt]

/-- By the Lucas-Lehmer test. -/
theorem prime_two_pow_31_sub_one : Nat.Prime (2 ^ 31 - 1) :=
  lucas_lehmer_sufficiency 31 (by decide) (by norm_num)

theorem xPow_succ (n : Nat) : xPow (n + 1) = bitStep (xPow n) := rfl

/-- x^(2^31) = x, and a bit step is injective. -/
theorem xPow_two_pow_31_sub_one : xPow (2 ^ 31 - 1) = one := by
  rw [← bitUnstep_bitStep (xPow _), ← xPow_succ, show 2 ^ 31 - 1 + 1 = 2 ^ 31 by norm_num, xPow_two_pow_31, xPow_succ,
    bitUnstep_bitStep, xPow, bitSteps]

theorem bitStep_one_ne_one : bitStep one ≠ one := by decide

/-- The period of 1 under the bit step divides the prime 2^31 - 1, and is not 1. -/
theorem minimalPeriod_bitStep_one : Function.minimalPeriod bitStep one = 2 ^ 31 - 1 := by
  have hdvd : Function.minimalPeriod bitStep one ∣ 2 ^ 31 - 1 :=
    ((xPow_eq_one_iff_isPeriodicPt _).1 xPow_two_pow_31_sub_one).minimalPeriod_dvd
  refine (prime_two_pow_31_sub_one.eq_one_or_self_of_dvd _ hdvd).resolve_left fun h => ?_
  exact bitStep_one_ne_one (Function.minimalPeriod_eq_one_iff_isFixedPt.1 h)

/-- Settles O48: the order of x is the period of 1 under the bit step. -/
theorem orderOfX : Obligations.OrderOfX := by
  refine ⟨prime_two_pow_31_sub_one, fun k => ?_⟩
  rw [xPow_eq_one_iff_isPeriodicPt, Function.isPeriodicPt_iff_minimalPeriod_dvd, minimalPeriod_bitStep_one]

/-! ## MulMod, XPow and XPowInv as polynomials (00_scope.md R10, R11) -/

theorem dvd_mulMod (a b : Word) : generator ∣ polyOf a * polyOf b - polyOf (mulMod a b) := by
  refine bitvec_xor_induction (p := fun b => generator ∣ polyOf a * polyOf b - polyOf (mulMod a b)) ?_ ?_ ?_ b
  · rw [XorLinear.map_zero (xorLinear_mulMod_right a), polyOf_zero, mul_zero, sub_zero]
    exact dvd_zero _
  · intro b c hb hc
    rw [xorLinear_mulMod_right a b c, polyOf_xor, polyOf_xor, mul_add, add_sub_add_comm]
    exact dvd_add hb hc
  · intro i hi
    rw [polyOf_bit i hi, bit_eq_bitStepsQ_one Config.poly i hi, ← bitSteps_eq, ← xPow, mulMod_xPow, mul_comm]
    exact dvd_bitSteps (31 - i) a

theorem polyOf_mulMod (a b : Word) : polyOf (mulMod a b) = (polyOf a * polyOf b) %ₘ generator :=
  (polyOf_eq_mod_iff _ _).2 (dvd_mulMod a b)

/-- Bit steps as a remainder modulo P. -/
theorem polyOf_bitSteps (n : Nat) (c : Word) : polyOf (bitSteps n c) = (X ^ n * polyOf c) %ₘ generator :=
  (polyOf_eq_mod_iff _ _).2 (dvd_bitSteps n c)

theorem polyOf_xPow (k : Nat) : polyOf (xPow k) = X ^ k %ₘ generator := by
  rw [xPow, polyOf_bitSteps, polyOf_one, mul_one]

theorem polyOf_xPowInv (k : Nat) : (polyOf (xPowInv k) * X ^ k) %ₘ generator = 1 := by
  rw [mul_comm, ← polyOf_bitSteps, bitSteps_xPowInv, polyOf_one]

/-- Bit i of a value, as the coefficient of x^(31 - i). -/
theorem coeff_polyOf (v : Word) (i : Nat) (hi : i < 32) : (polyOf v).coeff (31 - i) = if v.getLsbD i then 1 else 0 := by
  rw [polyOf, finsetSum_coeff, Finset.sum_eq_single i]
  · split <;> simp
  · intro j hj hne
    have hj := Finset.mem_range.1 hj
    split
    · rw [coeff_X_pow, if_neg (by omega)]
    · exact coeff_zero _
  · intro h; exact absurd (Finset.mem_range.2 hi) h

theorem polyOf_injective : Function.Injective polyOf := by
  intro a b h
  apply BitVec.eq_of_getLsbD_eq
  intro i hi
  have hc := congrArg (coeff · (31 - i)) h
  simp only [coeff_polyOf _ i hi] at hc
  cases ha : a.getLsbD i <;> cases hb : b.getLsbD i <;> simp [ha, hb] at hc ⊢

/-- Settles O44: each function by the bit steps it is made of, and a value by its coefficients. -/
theorem mulModIsPolynomialProduct : Obligations.MulModIsPolynomialProduct :=
  ⟨polyOf_mulMod, polyOf_xPow, polyOf_xPowInv, polyOf_injective⟩

/-! ## The carry-less product (00_scope.md R11) -/

/-- A carry-less product in a width that holds it is the product of the polynomials. -/
theorem normalOf_clMulBits {p q w n : Nat} (hw : p + q ≤ w) (hn : q ≤ n) (a : BitVec p) (b : BitVec q) :
    normalOf (clMulBits (a.setWidth w) (b.setWidth w) n) = normalOf a * normalOf b := by
  refine bitvec_xor_induction
    (p := fun b : BitVec q => normalOf (clMulBits (a.setWidth w) (b.setWidth w) n) = normalOf a * normalOf b)
    ?_ ?_ (fun j hj => ?_) b
  · have h : clMulBits (a.setWidth w) 0#w n = 0#w :=
      XorLinear.map_zero (f := fun b => clMulBits (a.setWidth w) b n) fun x y => clMulBits_xor_right _ x y n
    rw [BitVec.setWidth_zero, h, normalOf_zero, normalOf_zero, mul_zero]
  · intro x y hx hy
    rw [BitVec.setWidth_xor, clMulBits_xor_right, normalOf_xor, hx, hy, normalOf_xor, mul_add]
  rw [bit_setWidth j hj (by omega), clMulBits_bit _ j (by omega), if_pos (by omega), normalOf_bit j hj]
  refine bitvec_xor_induction
    (p := fun a : BitVec p => normalOf (a.setWidth w <<< j) = normalOf a * X ^ j) ?_ ?_ (fun i hi => ?_) a
  · rw [BitVec.setWidth_zero, BitVec.zero_shiftLeft, normalOf_zero, normalOf_zero, zero_mul]
  · intro x y hx hy
    rw [BitVec.setWidth_xor, BitVec.shiftLeft_xor_distrib, normalOf_xor, hx, hy, normalOf_xor, add_mul]
  · rw [bit_setWidth i hi (by omega), bit_shiftLeft, normalOf_bit (i + j) (by omega), normalOf_bit i hi, pow_add]

theorem normalOf_clMul (a b : Word) : normalOf (clMul a b) = normalOf a * normalOf b :=
  normalOf_clMulBits (by decide) (by decide) a b

/-- The product of two words has degree 62 at most. -/
theorem clMul_high_bit (a b : Word) : (clMul a b).getLsbD 63 = false := by
  have h : clMul a b >>> 63 = 0#64 := by
    refine bilinear_ext_bits (f := fun a b => clMul a b >>> 63) (g := fun _ _ => 0#64)
      (fun c => XorLinear.comp (xorLinear_ushiftRight 63) fun x y => clMul_xor_left x y c)
      (fun c => XorLinear.comp (xorLinear_ushiftRight 63) (clMul_xor_right c))
      (fun _ _ _ => by simp) (fun _ _ _ => by simp) (fun i hi j hj => ?_) a b
    show clMul (1#32 <<< i) (1#32 <<< j) >>> 63 = 0#64
    have hzero : ∀ k : Nat, k < 63 → (1#64 <<< k) >>> 63 = 0#64 := by decide
    rw [clMul_bits i j hi hj, hzero _ (by omega)]
  have h0 := congrArg (BitVec.getLsbD · 0) h
  simpa using h0

/-- Settles O45, by the bits of either factor. -/
theorem clMulIsPolynomialProduct : Obligations.ClMulIsPolynomialProduct := fun a b =>
  ⟨normalOf_clMul a b, clMul_high_bit a b⟩

/-! ## The reduction constants (44_multistream.md R252) -/

theorem normalOf_setWidth {p w : Nat} (h : p ≤ w) (v : BitVec p) : normalOf (v.setWidth w) = normalOf v := by
  refine bitvec_xor_induction (p := fun v : BitVec p => normalOf (v.setWidth w) = normalOf v) ?_ ?_ (fun i hi => ?_) v
  · rw [BitVec.setWidth_zero, normalOf_zero, normalOf_zero]
  · intro a b ha hb
    rw [BitVec.setWidth_xor, normalOf_xor, ha, hb, normalOf_xor]
  · rw [bit_setWidth i hi h, normalOf_bit i (by omega), normalOf_bit i hi]

/-- A word whose reflection is XPow(n) is x^n modulo P in normal form. -/
theorem normalOf_of_rev32 {k : Word} {n : Nat} (h : rev32 k = xPow n) :
    normalOf (k.setWidth 64) = X ^ n %ₘ generator := by
  rw [normalOf_setWidth (by decide), ← polyOf_rev32, h, polyOf_xPow]

/-- P of degree 32 in normal form (00_scope.md R2). -/
theorem normalOf_fullPoly : normalOf 0x11EDC6F41#33 = generator := by
  rw [show 0x11EDC6F41#33 = (1#33 <<< 32) ^^^ (0x1EDC6F41#32).setWidth 33 by decide, normalOf_xor,
    normalOf_bit 32 (by decide), normalOf_setWidth (by decide), generator]

set_option maxRecDepth 10000 in
/-- Division of x^64 by P, checked: quotient times P, and the remainder K64. -/
theorem clMulBits_quotient : clMulBits ((0x11F91CAF6#33).setWidth 128) ((0x11EDC6F41#33).setWidth 128) 33
    ^^^ (0x3AAB4576#32).setWidth 128 = 1#128 <<< 64 := by decide

/-- MU is the quotient of x^64 by P. -/
theorem normalOf_mu : normalOf 0x11F91CAF6#33 = X ^ 64 /ₘ generator := by
  have h := congrArg normalOf clMulBits_quotient
  rw [normalOf_xor, normalOf_clMulBits (by decide) le_rfl, normalOf_setWidth (by decide), normalOf_bit 64 (by decide),
    normalOf_fullPoly] at h
  refine ((div_modByMonic_unique _ (normalOf 0x3AAB4576#32) generator_monic ⟨?_, ?_⟩).1).symm
  · rw [← h, add_comm, mul_comm]
  · rw [generator_degree]; exact degree_normalOf_lt _

theorem built_kconst : (builtTables true).kconst = reductionConstants := rfl

/-- The low words of the first six constants, and the powers of x they are. -/
def powerConstants : List (Nat × Nat × Word) :=
  [(0, 576, 0xA6955F31#32), (1, 512, 0xAA97D41D#32), (2, 192, 0x6503EA99#32), (3, 128, 0x18571D18#32),
    (4, 96, 0xD7A01665#32), (5, 64, 0x3AAB4576#32)]

theorem rev32_powerConstants : ∀ x ∈ powerConstants, rev32 x.2.2 = xPow x.2.1 := by
  simp only [powerConstants, List.forall_mem_cons, List.not_mem_nil, false_implies, implies_true, and_true]
  exact ⟨k576_eq, k512_eq, k192_eq, k128_eq, k96_eq, k64_eq⟩

set_option maxRecDepth 10000 in
theorem kconst_powerConstants :
    ∀ x ∈ powerConstants, (builtTables true).kconst.getD x.1 0#64 = x.2.2.setWidth 64 := by
  rw [built_kconst]
  decide

theorem lowWord_setWidth (v : Word) : lowWord (v.setWidth 64) = v := by
  apply BitVec.eq_of_toNat_eq
  have := v.isLt
  simp [lowWord, BitVec.extractLsb'_toNat]
  omega

/-- Settles O13: the powers by their reflections, MU and P by their polynomials. -/
theorem reductionConstantContents : Obligations.ReductionConstantContents := by
  refine ⟨rfl, rfl, fun x hx => ?_, ?_, ?_⟩
  · obtain ⟨y, hy, rfl⟩ := List.mem_map.1 (show x ∈ powerConstants.map fun y => (y.1, y.2.1) from hx)
    rw [kconst_powerConstants y hy, lowWord_setWidth]
    exact ⟨normalOf_of_rev32 (rev32_powerConstants y hy), rev32_powerConstants y hy⟩
  · exact (normalOf_setWidth (w := 64) (by decide) 0x11F91CAF6#33).trans normalOf_mu
  · exact (normalOf_setWidth (w := 64) (by decide) 0x11EDC6F41#33).trans normalOf_fullPoly

/-! ## The reverse tables (40_table_builder.md R137, R138) -/

set_option maxRecDepth 10000 in
theorem unextPoly_eq : unextPoly = 0x8F6E37A0#32 := by decide

/-- `n` reversed steps modulo U are undone by `n` bit steps. -/
theorem bitSteps_bitStepsQ_unext (n : Nat) (c : Word) : bitSteps n (rev32 (bitStepsQ unextPoly n c)) = rev32 c := by
  have h := bitStepsQ_unext n (rev32 c)
  rw [rev32_rev32] at h
  rw [h, rev32_rev32, bitSteps_bitUnsteps]

/-- Settles O11: on bit-reversed values, steps modulo U are inverse bit steps. -/
theorem reverseTableContents : Obligations.ReverseTableContents := by
  refine ⟨unextPoly_eq, fun d => ?_, fun c => ?_, fun m => ⟨tableRow_length _ _, fillZeroesTable_length _, fun i => ?_,
    fun k c hk hc hc' => ?_⟩⟩
  · rw [bitStepQ_unext, rev32_rev32, bitUnstep_bitStep]
  · rw [bitStepQ_unext, rev32_rev32, bitStep_bitUnstep]
  · rw [byteTable_unext m i, bitSteps_bitStepsQ_unext]
  · rw [zeroTable_unext m k c hk hc hc', bitSteps_bitStepsQ_unext]

/-! ## Scrambling (42_scramble.md R200-R202) -/

theorem rotr32_eq_rotateRight {n : Nat} (hn : n < 32) (v : Word) : rotr32 v n = v.rotateRight n := by
  rw [rotr32, BitVec.rotateRight_def, Nat.mod_eq_of_lt hn]

theorem rotr32_eq_rotateLeft (v : Word) : rotr32 v 15 = v.rotateLeft 17 := by
  rw [rotr32, BitVec.rotateLeft_def, BitVec.or_comm]

theorem rotr32_15_17 (v : Word) : rotr32 (rotr32 v 17) 15 = v := by
  apply BitVec.eq_of_getLsbD_eq
  intro i hi
  interval_cases i <;> simp [rotr32]

theorem rotr32_17_15 (v : Word) : rotr32 (rotr32 v 15) 17 = v := by
  apply BitVec.eq_of_getLsbD_eq
  intro i hi
  interval_cases i <;> simp [rotr32]

theorem unscramble_scramble (k x : Word) : unscramble k (scramble k x) = x := by
  rw [unscramble, scramble, Config.scrambleRot, rotr32_15_17, BitVec.add_sub_cancel]

theorem scramble_unscramble (k x : Word) : scramble k (unscramble k x) = x := by
  rw [unscramble, scramble, Config.scrambleRot, BitVec.sub_add_cancel, rotr32_17_15]

/-- Settles O50: the two rotations make a full turn. -/
theorem scrambleBijection : Obligations.ScrambleBijection := fun k =>
  ⟨unscramble_scramble k, scramble_unscramble k,
    Function.bijective_iff_has_inverse.2 ⟨unscramble k, unscramble_scramble k, scramble_unscramble k⟩⟩

end Sys2Proof.Proofs

/-!
What each command writes (41_crc_ops.md R160-R172, 42_scramble.md, 43_gf2_multiply.md R210-R217, 40_table_builder.md
R143), and that no legal backend changes it (44_multistream.md R240).
-/

namespace Sys2Proof.Proofs
open Sys2Proof.Machine Sys2Proof.Laws

/-! ## Commands without a datapath -/

/-- Settles O24: the definition of a plain completion. -/
theorem nopResult : Obligations.NopResult := fun _ => rfl

/-- Settles O25: a completion with the EMPTY value. -/
theorem emptyResult : Obligations.EmptyResult := fun _ => rfl

/-- Settles O35: a completion with both halves of the product. -/
theorem clmulResult : Obligations.ClmulResult := fun _ => rfl

theorem exec_scramble (s : State) :
    exec .scramble s = .next (finishWord ((s.ctx.crcA + s.params.scrambleK).rotateRight 17) s) := by
  rw [exec, execScramble, scramble, Config.scrambleRot, rotr32_eq_rotateRight (by decide), operandA]

theorem exec_unscramble (s : State) :
    exec .unscramble s = .next (finishWord (s.ctx.crcA.rotateLeft 17 - s.params.scrambleK) s) := by
  rw [exec, execUnscramble, unscramble, Config.scrambleRot, rotr32_eq_rotateLeft, operandA]

/-- Settles O34: the rotations are Lean's own. -/
theorem scrambleResults : Obligations.ScrambleResults := fun s => ⟨exec_scramble s, exec_unscramble s⟩

/-- Settles O36: the multiply-reduce unit computes MulMod. -/
theorem mulmodResult : Obligations.MulmodResult := by
  intro s
  rw [exec, execMulmod, mulModHw_eq]
  rfl

/-! ## Commands on the tables -/

theorem exec_extz (s : State) (h : s.tables = builtTables s.params.multistream) :
    exec .extz s = .next (finishWord (extZ s.ctx.crcA s.ctx.len.toNat) s) := by
  rw [exec, execExtz, h, extZPath_eq, operandA, operandLen]

/-- Settles O30: every zero-extension datapath computes ExtZ. -/
theorem extzResult : Obligations.ExtzResult := exec_extz

theorem exec_unextz (s : State) (h : s.tables = builtTables s.params.multistream) :
    exec .unextz s = .next (finishWord (unextZ s.ctx.crcA s.ctx.len.toNat) s) := by
  rw [exec, execUnextz, h, reverseUnextZ_eq, operandA, operandLen]

/-- Settles O31: the reverse tables compute UnextZ. -/
theorem unextzResult : Obligations.UnextzResult := exec_unextz

/-- Settles O32: ExtZ with the EMPTY baseline removed. -/
theorem concatResult : Obligations.ConcatResult := exec_concat

/-- Settles O33: ExtZ with no baseline. -/
theorem combineResult : Obligations.CombineResult := exec_combine

theorem exec_zconst (s : State) (h : s.tables = builtTables s.params.multistream) :
    exec .zconst s = .next (finishWord (xPow (32 * (s.ctx.len.toNat / 4))) s) := by
  rw [exec, execZconst, h, built_powers, zConstHw_eq _ (operandLen s).isLt, zeroConstant, operandLen]

/-- Settles O37: the zero-constant unit on the built powers. -/
theorem zconstResult : Obligations.ZconstResult := exec_zconst

/-! ## LUTRD -/

/-- An index below 240 as the digit and the magnitude of a zero count (40_table_builder.md R136). -/
theorem zeroes_index (n : Nat) : n = 15 * (n / 15) + (n % 15 + 1) - 1 := by omega

theorem entry_zeroes_index (m : Bool) {n : Nat} (hn : n ≤ 239) :
    entry (builtTables m).zeroes n = xPow (8 * (n % 15 + 1) * 16 ^ (n / 15)) := by
  conv_lhs => rw [zeroes_index n]
  exact entry_zeroes m (n / 15) (n % 15 + 1) (by omega) (by omega) (by omega)

theorem entry_reverseZeroes_index (m : Bool) {n : Nat} (hn : n ≤ 239) :
    entry (builtTables m).reverseZeroes n = bitStepsQ unextPoly (8 * (n % 15 + 1) * 16 ^ (n / 15)) one := by
  conv_lhs => rw [zeroes_index n]
  exact zeroTable_unext m (n / 15) (n % 15 + 1) (by omega) (by omega) (by omega)

/-- TSEL 1 to 4 read the word-interleaved tables. -/
theorem readEntry_interleaved (t : Tables) {tsel : BitVec 4} (idx : BitVec 8) {j : Nat} (hj : j < 4)
    (ht : tsel.toNat = j + 1) :
    readEntry t tsel idx = (entry (t.interleaved.getD j []) idx.toNat).setWidth 64 := by
  unfold readEntry
  rw [ht]
  interval_cases j <;> rfl

/-- Settles O38: the entry that LUTRD reads, in the closed form of each table. -/
theorem lutrdResult : Obligations.LutrdResult := by
  intro s tsel idx h hw
  have hlegal := (legalIndex_iff _ _ _).1 hw
  refine ⟨readEntry (builtTables s.params.multistream) tsel idx, ?_, ?_, fun j hj ht => ?_, ?_, ?_, ?_, ?_, ?_⟩
  · rw [← h]; exact exec_lutrd hw
  · rintro rfl
    exact congrArg (BitVec.setWidth 64) (entry_table0 _ idx)
  · rw [readEntry_interleaved _ idx hj ht, entry_interleaved_eq_extZ _ j hj, entry_table0]
    rfl
  · rintro rfl
    exact congrArg (BitVec.setWidth 64) (entry_zeroes_index _ (by simpa using hlegal))
  · rintro rfl
    exact congrArg (BitVec.setWidth 64) (byteTable_unext _ idx)
  · rintro rfl
    exact congrArg (BitVec.setWidth 64) (entry_reverseZeroes_index _ (by simpa using hlegal))
  · rintro rfl
    exact congrArg (BitVec.setWidth 64) (entry_powersTable _ (Nat.lt_succ_of_le (by simpa using hlegal)))
  · rintro rfl
    have hidx : idx.toNat ≤ 7 ∧ s.params.multistream = true := by simpa using hlegal
    rw [hidx.2]
    rfl

/-! ## Every legal backend -/

/-- The state with another latched backend. -/
def withSel (s : State) (b : Selection) : State := { s with ctx := { s.ctx with sel := b } }

theorem extendValue_withSel {s : State} (h : s.tables = builtTables s.params.multistream) {b : Selection}
    (hb : selectionLegal s.params.multistream b = true) : extendValue (withSel s b) = ext s.ctx.crcA (message s) :=
  extendValue_eq (withSel s b) ⟨h, hb⟩

theorem execExtend_withSel {s : State} (h : s.tables = builtTables s.params.multistream) {b c : Selection}
    (hb : selectionLegal s.params.multistream b = true) (hc : selectionLegal s.params.multistream c = true) :
    ∃ t, execExtend (withSel s b) = .next t ∧ execExtend (withSel s c) = .next (withSel t c) := by
  unfold execExtend
  rw [extendValue_withSel h hb, extendValue_withSel h hc,
    show emptyMessage (withSel s c) = emptyMessage (withSel s b) from rfl,
    show rangeOk (withSel s c).params (operandAddr (withSel s c)) (operandLen (withSel s c))
      = rangeOk (withSel s b).params (operandAddr (withSel s b)) (operandLen (withSel s b)) from rfl,
    show (withSel s c).readFailed = (withSel s b).readFailed from rfl,
    show (withSel s c).bufferTouched = (withSel s b).bufferTouched from rfl]
  split_ifs <;> exact ⟨_, rfl, rfl⟩

theorem execLutrd_withSel (tsel : BitVec 4) (idx : BitVec 8) (s : State) (b c : Selection) :
    ∃ t, execLutrd tsel idx (withSel s b) = .next t ∧ execLutrd tsel idx (withSel s c) = .next (withSel t c) := by
  unfold execLutrd
  rw [show (withSel s c).params = (withSel s b).params from rfl]
  split_ifs <;> exact ⟨_, rfl, rfl⟩

/-- The latched backend is the only trace a legal backend leaves. -/
theorem exec_withSel (i : Instr) {s : State} (h : s.tables = builtTables s.params.multistream) {b c : Selection}
    (hb : selectionLegal s.params.multistream b = true) (hc : selectionLegal s.params.multistream c = true) :
    ∃ t, exec i (withSel s b) = .next t ∧ exec i (withSel s c) = .next (withSel t c) := by
  cases i with
  | extend => exact execExtend_withSel h hb hc
  | extz => exact ⟨_, exec_extz (withSel s b) h, exec_extz (withSel s c) h⟩
  | concat => exact ⟨_, exec_concat (withSel s b) h, exec_concat (withSel s c) h⟩
  | combine => exact ⟨_, exec_combine (withSel s b) h, exec_combine (withSel s c) h⟩
  | lutrd tsel idx => exact execLutrd_withSel tsel idx s b c
  | _ => exact ⟨_, rfl, rfl⟩

/-- Settles O42: only EXTEND and the zero extensions look at the backend, and every datapath computes the same value. -/
theorem backendInvariance : Obligations.BackendInvariance := by
  intro i s b c h hb hc
  obtain ⟨t, ht, hu⟩ := exec_withSel i h hb hc
  exact ⟨t, withSel t c, ht, hu, rfl, rfl, rfl⟩

end Sys2Proof.Proofs
